-- ==== Sys2Proof/Word.lean ====
section
/-! DEFINITION. The bus word and the byte of the hongtak/totp OTP block (00_scope.md R7: BUS_WIDTH 32, CHAR_WIDTH 8). -/

namespace Sys2Proof

/-- The value of one register, and one command word (00_scope.md R7, 30_encoding.md R70). Every value is unsigned (R8). -/
abbrev Word := BitVec 32

/-- One data byte, one character code or one digest byte (00_scope.md R7 and R13). -/
abbrev Byte := BitVec 8

end Sys2Proof
end

