-- ==== Sys2Proof/Config.lean ====
section
/-! DEFINITION. The parameters of the block (00_scope.md R7) and its one open parameter, CMD_LATENCY. -/

namespace Sys2Proof.Config

/-- REG_SPACE: byte offsets 0x00 to 0x57, 22 registers (00_scope.md R7). -/
abbrev regSpace : Nat := 0x58

/-- DBUF_SIZE: the bytes of the digest buffer (00_scope.md R7). -/
abbrev dbufSize : Nat := 64

/-- DIGITS_RANGE: the least code length (00_scope.md R7). -/
abbrev digitsMin : Nat := 6

/-- DIGITS_RANGE: the greatest code length (00_scope.md R7). -/
abbrev digitsMax : Nat := 9

/-- CMD_LATENCY, left OPEN by the spec (00_scope.md R7, 70_reset_and_hazards.md R247): the time a command takes.
Its type carries the one constraint R247 puts on a build, a latency that may depend on the opcode and on nothing
else. No rule, and no definition of the model, reads it (assumption log 12). -/
opaque cmdLatency : BitVec 8 → Nat

end Sys2Proof.Config
end

