-- ==== Sys2Proof/Machine/Bus.lean ====
section
/-! DEFINITION. The register map and the two access primitives (10_state.md R21, 20_memory.md R50 and R51), and the
inputs a step of the block takes. -/

namespace Sys2Proof.Machine

/-- The 22 registers of the map (10_state.md R21), under their own names. -/
inductive Reg where
  | id | cmd | status | cfg | step | epochLo | epochHi | counterLo | counterHi | msg0 | msg1
  | encState | encOutN | encOut0 | encOut1 | decState | decOut | trnState | code | codeStr0 | codeStr1 | codeStr2
deriving DecidableEq, Repr

/-- The access column of 10_state.md R21. -/
inductive RegAccess where
  | ro | wo | rw
deriving DecidableEq, Repr

/-- The direction of an access (20_memory.md R51). -/
inductive Dir where
  | read | write
deriving DecidableEq, Repr

/-- One host access (20_memory.md R50): `read off n` is `MemRead(off, n)` and `write off n v` is `MemWrite(off, n, v)`.
The offset and the width in bytes are plain numbers, so that an access the map does not allow can be written down;
a value of another width than 32 bits is not carried, since no access of that width is permitted (assumption log 9). -/
inductive Access where
  | read (off n : Nat)
  | write (off n : Nat) (v : Word)
deriving DecidableEq, Repr

/-- What the outside world does to the block: a host access, or a change of the level of the reset input
(00_scope.md R6, 70_reset_and_hazards.md R230; assumption log 4). -/
inductive HostInput where
  | access (a : Access)
  | resetLine (asserted : Bool)
deriving DecidableEq, Repr

/-- The byte offset of a register (10_state.md R21). -/
def Reg.offset : Reg → Nat
  | .id => 0x00
  | .cmd => 0x04
  | .status => 0x08
  | .cfg => 0x0C
  | .step => 0x10
  | .epochLo => 0x14
  | .epochHi => 0x18
  | .counterLo => 0x1C
  | .counterHi => 0x20
  | .msg0 => 0x24
  | .msg1 => 0x28
  | .encState => 0x2C
  | .encOutN => 0x30
  | .encOut0 => 0x34
  | .encOut1 => 0x38
  | .decState => 0x3C
  | .decOut => 0x40
  | .trnState => 0x44
  | .code => 0x48
  | .codeStr0 => 0x4C
  | .codeStr1 => 0x50
  | .codeStr2 => 0x54

/-- The access column of a register (10_state.md R21). -/
def Reg.access : Reg → RegAccess
  | .cmd => .wo
  | .cfg | .step | .epochLo | .epochHi | .counterLo | .counterHi => .rw
  | .id | .status | .msg0 | .msg1 | .encState | .encOutN | .encOut0 | .encOut1 | .decState | .decOut | .trnState
  | .code | .codeStr0 | .codeStr1 | .codeStr2 => .ro

/-- The register at a byte offset, none where the map has none (10_state.md R21: "Offsets 0x58 and above are unmapped"). -/
def Reg.atOffset : Nat → Option Reg
  | 0x00 => some .id
  | 0x04 => some .cmd
  | 0x08 => some .status
  | 0x0C => some .cfg
  | 0x10 => some .step
  | 0x14 => some .epochLo
  | 0x18 => some .epochHi
  | 0x1C => some .counterLo
  | 0x20 => some .counterHi
  | 0x24 => some .msg0
  | 0x28 => some .msg1
  | 0x2C => some .encState
  | 0x30 => some .encOutN
  | 0x34 => some .encOut0
  | 0x38 => some .encOut1
  | 0x3C => some .decState
  | 0x40 => some .decOut
  | 0x44 => some .trnState
  | 0x48 => some .code
  | 0x4C => some .codeStr0
  | 0x50 => some .codeStr1
  | 0x54 => some .codeStr2
  | _ => none

/-- The access column allows the direction: RO allows reads, WO allows writes, RW allows both (20_memory.md R51). -/
def RegAccess.allows : RegAccess → Dir → Bool
  | .ro, .read | .wo, .write | .rw, .read | .rw, .write => true
  | .ro, .write | .wo, .read => false

/-- The register at an offset, if the access column of that register allows the direction (20_memory.md R51). -/
def mapAllows (off : Nat) (dir : Dir) : Bool :=
  match Reg.atOffset off with
  | some r => r.access.allows dir
  | none => false

/-- An access is permitted when all four conditions of 20_memory.md R51 hold. The rule's sentence is followed where
the operators of its pseudocode could be read otherwise (assumption log 10). -/
def permitted (off n : Nat) (dir : Dir) : Bool :=
  n == 4 && off % 4 == 0 && decide (off < Config.regSpace) && mapAllows off dir

/-- The access is permitted (20_memory.md R51). -/
def Access.permitted : Access → Bool
  | .read off n => Machine.permitted off n .read
  | .write off n _ => Machine.permitted off n .write

end Sys2Proof.Machine
end

