-- ==== Sys2Proof/Syntax.lean ====
section
/-! DEFINITION. The ten commands of 30_encoding.md R73, one constructor per row of spec/opcode_table.json. -/

namespace Sys2Proof

/-- A command: what one legal word written to CMD asks of one unit (30_encoding.md R72 and R73). -/
inductive Instr where
  /-- ENC_INIT (41_base32_encoder.md R103). -/
  | encInit
  /-- ENC_PUSH with its data byte `b = ARG` (R104). -/
  | encPush (b : Byte)
  /-- ENC_FINAL with its flag `pad = ARG[0]` (R105). -/
  | encFinal (pad : Bool)
  /-- DEC_INIT (42_base32_decoder.md R121). -/
  | decInit
  /-- DEC_PUSH with its character code `c = ARG` (R122). -/
  | decPush (c : Byte)
  /-- DEC_FINAL (R123). -/
  | decFinal
  /-- TRN_CLEAR (43_hotp_truncator.md R142). -/
  | trnClear
  /-- TRN_PUSH with its digest byte `d = ARG` (R143). -/
  | trnPush (d : Byte)
  /-- TRN_RUN (R144). -/
  | trnRun
  /-- CTR_RUN (44_totp_counter_mapper.md R171). -/
  | ctrRun
deriving DecidableEq, Repr

end Sys2Proof
end

