-- ==== Sys2Proof/WellFormed.lean ====
section
/-! DEFINITION. When a command and an assembly statement are well formed (30_encoding.md R72, R77 and R78). -/

namespace Sys2Proof

/-- A command's operand fits the ARG field: an unsigned 8-bit value, of which ENC_FINAL uses bit 0 only
(30_encoding.md R72). The operand types of `Instr` already say so, hence every command is well formed
(`Sys2Proof.Laws.instr_wellFormed`). -/
def Instr.wellFormed : Instr → Bool
  | .encPush b => decide (b.toNat ≤ 255)
  | .decPush c => decide (c.toNat ≤ 255)
  | .trnPush d => decide (d.toNat ≤ 255)
  | .encFinal pad => decide (pad.toNat ≤ 1)
  | .encInit | .decInit | .decFinal | .trnClear | .trnRun | .ctrRun => true

/-- The ten mnemonics of the assembler (30_encoding.md R73 and R77). -/
inductive Mnemonic where
  | encInit | encPush | encFinal | decInit | decPush | decFinal | trnClear | trnPush | trnRun | ctrRun
deriving DecidableEq, Repr

/-- The operand an assembly statement writes after a mnemonic (30_encoding.md R77). -/
inductive AsmOperand where
  | none
  | num (x : Nat)
  | pad
  | nopad
deriving DecidableEq, Repr

/-- The two register pairs the pseudo-instruction `wr64` names (30_encoding.md R78). -/
inductive RegPair where
  | epoch | counter
deriving DecidableEq, Repr

/-- One assembly statement: a command, a bus access or a pseudo-instruction (30_encoding.md R77 and R78). A character
literal stands as its code and a hexadecimal string as its bytes; numbers are unbounded, so that an operand out of
range can be written down and refused (assumption log 17). -/
inductive Stmt where
  | cmd (m : Mnemonic) (x : AsmOperand)
  | wr (r : Machine.Reg) (v : Nat)
  | rd (r : Machine.Reg)
  | wr64 (p : RegPair) (v : Nat)
  | cfg (digits alg : Nat)
  | encBytes (xs : List Nat)
  | decChars (cs : List Nat)
  | trnDigest (ds : List Nat)
deriving DecidableEq, Repr

/-- The operand a mnemonic takes (30_encoding.md R77): 0 to 255 for a push, `pad` or `nopad` for ENC_FINAL, none for
the others. -/
def Mnemonic.takes : Mnemonic → AsmOperand → Bool
  | .encPush, .num x | .decPush, .num x | .trnPush, .num x => decide (x ≤ 255)
  | .encFinal, .pad | .encFinal, .nopad => true
  | .encInit, .none | .decInit, .none | .decFinal, .none | .trnClear, .none | .trnRun, .none | .ctrRun, .none => true
  | _, _ => false

/-- An assembly statement that is no assembly error (30_encoding.md R77 and R78). -/
def Stmt.wellFormed : Stmt → Bool
  | .cmd m x => m.takes x
  | .wr _ v => decide (v < 2 ^ 32)
  | .rd _ => true
  | .wr64 _ v => decide (v < 2 ^ 64)
  | .cfg digits alg => decide (digits ≤ 15) && decide (alg ≤ 3)
  | .encBytes xs | .decChars xs | .trnDigest xs => xs.all fun x => decide (x ≤ 255)

end Sys2Proof
end

