-- ==== Sys2Proof/Decode.lean ====
section
/-! DEFINITION. The command word: its fields, its total decoder, the opcode map and the encoder (30_encoding.md R70 to
R76). -/

namespace Sys2Proof

/-- `OPC = w[7:0]` (30_encoding.md R70). -/
def opcField (w : Word) : Byte := w.extractLsb' 0 8

/-- `ARG = w[15:8]` (30_encoding.md R70). -/
def argField (w : Word) : Byte := w.extractLsb' 8 8

/-- `RSV = w[31:16]` (30_encoding.md R70). -/
def rsvField (w : Word) : BitVec 16 := w.extractLsb' 16 16

/-- Why a word is an illegal command: the four cases of 30_encoding.md R75. Only the name is the decoder's; every
illegal word has the one effect of 40_host_access.md R96 (assumption log 16). -/
inductive IllegalWord where
  /-- An RSV bit is set. -/
  | reservedBits
  /-- OPC is not in the table. -/
  | unknownOpc (opc : Byte)
  /-- A non-zero ARG on a command that takes no operand. -/
  | argNotZero (opc : Byte)
  /-- `ARG[7:1]` non-zero on ENC_FINAL. -/
  | finalArg
deriving DecidableEq, Repr

/-- What a word written to CMD decodes to (30_encoding.md R76). -/
inductive Decoded where
  | command (i : Instr)
  | illegal (why : IllegalWord)
deriving DecidableEq, Repr

/-- A command without operand: its word is legal only with ARG = 0 (30_encoding.md R76). -/
def decodeNoArg (i : Instr) (opc arg : Byte) : Decoded :=
  if arg = 0 then .command i else .illegal (.argNotZero opc)

/-- ENC_FINAL: `ARG[7:1]` must be 0 and `ARG[0]` is PAD (30_encoding.md R76). -/
def decodeFinal (arg : Byte) : Decoded :=
  if arg.extractLsb' 1 7 = 0 then .command (.encFinal (arg.getLsbD 0)) else .illegal .finalArg

/-- The case distinction on OPC (30_encoding.md R76). -/
def decodeOpc (opc arg : Byte) : Decoded :=
  match opc with
  | 0x02#8 => .command (.encPush arg)
  | 0x12#8 => .command (.decPush arg)
  | 0x22#8 => .command (.trnPush arg)
  | 0x03#8 => decodeFinal arg
  | 0x01#8 => decodeNoArg .encInit opc arg
  | 0x11#8 => decodeNoArg .decInit opc arg
  | 0x13#8 => decodeNoArg .decFinal opc arg
  | 0x21#8 => decodeNoArg .trnClear opc arg
  | 0x23#8 => decodeNoArg .trnRun opc arg
  | 0x31#8 => decodeNoArg .ctrRun opc arg
  | _ => .illegal (.unknownOpc opc)

/-- Decoding is a total function of the 32-bit word (30_encoding.md R76). -/
def decode (w : Word) : Decoded :=
  if rsvField w = 0 then decodeOpc (opcField w) (argField w) else .illegal .reservedBits

/-- The opcode of a command (30_encoding.md R73). -/
def Instr.opcode : Instr → Byte
  | .encInit => 0x01
  | .encPush _ => 0x02
  | .encFinal _ => 0x03
  | .decInit => 0x11
  | .decPush _ => 0x12
  | .decFinal => 0x13
  | .trnClear => 0x21
  | .trnPush _ => 0x22
  | .trnRun => 0x23
  | .ctrRun => 0x31

/-- The ARG field of a command's word (30_encoding.md R72). -/
def Instr.argument : Instr → Byte
  | .encPush b => b
  | .decPush c => c
  | .trnPush d => d
  | .encFinal pad => if pad then 1 else 0
  | .encInit | .decInit | .decFinal | .trnClear | .trnRun | .ctrRun => 0

/-- The word of the two fields, RSV zero (30_encoding.md R70). -/
def commandWord (opc arg : Byte) : Word := (0#16 ++ arg) ++ opc

/-- The word of a command (30_encoding.md R73 and R77). -/
def encode (i : Instr) : Word := commandWord i.opcode i.argument

/-- One row of the opcode map: a word `w` is that command when `(w & mask) = pattern` (30_encoding.md R73, whose
column `match` is `pattern` here). -/
structure OpRow where
  mnemonic : String
  pattern : Word
  mask : Word
deriving DecidableEq, Repr

/-- The ten rows of 30_encoding.md R73. -/
def opcodeTable : List OpRow :=
  [⟨"ENC_INIT", 0x00000001, 0xFFFFFFFF⟩, ⟨"ENC_PUSH", 0x00000002, 0xFFFF00FF⟩, ⟨"ENC_FINAL", 0x00000003, 0xFFFFFEFF⟩,
   ⟨"DEC_INIT", 0x00000011, 0xFFFFFFFF⟩, ⟨"DEC_PUSH", 0x00000012, 0xFFFF00FF⟩, ⟨"DEC_FINAL", 0x00000013, 0xFFFFFFFF⟩,
   ⟨"TRN_CLEAR", 0x00000021, 0xFFFFFFFF⟩, ⟨"TRN_PUSH", 0x00000022, 0xFFFF00FF⟩, ⟨"TRN_RUN", 0x00000023, 0xFFFFFFFF⟩,
   ⟨"CTR_RUN", 0x00000031, 0xFFFFFFFF⟩]

/-- The word lies in the row (30_encoding.md R73). -/
def OpRow.covers (row : OpRow) (w : Word) : Bool := w &&& row.mask == row.pattern

/-- The mnemonic of a command's row (30_encoding.md R73). -/
def Instr.mnemonic : Instr → String
  | .encInit => "ENC_INIT"
  | .encPush _ => "ENC_PUSH"
  | .encFinal _ => "ENC_FINAL"
  | .decInit => "DEC_INIT"
  | .decPush _ => "DEC_PUSH"
  | .decFinal => "DEC_FINAL"
  | .trnClear => "TRN_CLEAR"
  | .trnPush _ => "TRN_PUSH"
  | .trnRun => "TRN_RUN"
  | .ctrRun => "CTR_RUN"

/-- The four units of the block; a command's OPC names its unit in the high nibble (30_encoding.md R73). -/
def Instr.unitNibble (i : Instr) : BitVec 4 := i.opcode.extractLsb' 4 4

/-- The command a number of `nbits` bits stands for, its bits counted as spec/opcode_table.json counts them, the bits
above taken as 0; none where the decoder refuses it, or where the number does not fit the one 32-bit word every
command has (30_encoding.md R71). -/
def decodeTableWord (nbits w : Nat) : Option Instr :=
  let v := w % 2 ^ nbits
  if v < 2 ^ 32 then
    match decode (BitVec.ofNat 32 v) with
    | .command i => some i
    | .illegal _ => none
  else none

end Sys2Proof
end

