-- ==== Sys2Proof/Machine/State.lean ====
section
/-! DEFINITION. The state of the block as plain data, and its reset value (10_state.md, 70_reset_and_hazards.md R230).
A register is held as the fields that can hold a value; its other bits read 0 by construction (assumption log 7). -/

namespace Sys2Proof.Machine

/-- The status codes a command can report (60_exceptions.md R201). Codes 6 to 15 are never produced, so the type has
no name for them (assumption log 8). -/
inductive StatusCode where
  | ok
  | decodeError
  | unsupportedAlgorithm
  | invalidOptions
  | digestLength
  | illegalCommand
deriving DecidableEq, Repr

/-- The state of base32_encoder (10_state.md R31 and R33). -/
structure EncUnit where
  /-- ENC.acc: the pending input bits, in its low `nbits` bits; never readable (R31, R41). -/
  acc : BitVec 12
  /-- ENC.nbits, ENC_STATE[3:0]: how many bits are pending (R31, R32). -/
  nbits : BitVec 4
  /-- ENC.sym, ENC_STATE[6:4]: symbols produced since the last ENC_INIT or ENC_FINAL, mod 8 (R31, R32). -/
  sym : BitVec 3
  /-- ENC_OUT_N[3:0]: how many characters the last encoder command produced (R33). -/
  outN : BitVec 4
  /-- ENC_OUT0: those characters, 0 to 3 (R33). -/
  out0 : Word
  /-- ENC_OUT1: those characters, 4 to 7 (R33). -/
  out1 : Word
deriving DecidableEq, Repr

/-- The state of base32_decoder (10_state.md R34 and R36). -/
structure DecUnit where
  /-- DEC.acc: the pending bits, in its low `nbits` bits; never readable (R34, R41). -/
  acc : BitVec 12
  /-- DEC.nbits, DEC_STATE[3:0] (R34, R35). -/
  nbits : BitVec 4
  /-- DEC.pad, DEC_STATE[4]: a `=` has been accepted (R34, R35). -/
  pad : Bool
  /-- DEC.err, DEC_STATE[5]: a DecodeError has occurred in the current decode (R34, R35). -/
  err : Bool
  /-- DEC_OUT[7:0]: the byte the last decoder command produced (R36). -/
  outByte : Byte
  /-- DEC_OUT[8]: that command produced a byte (R36). -/
  outValid : Bool
deriving DecidableEq, Repr

/-- The state of hotp_truncator (10_state.md R37 to R40). -/
structure TrnUnit where
  /-- DBUF[0..63]: the digest buffer; never readable (R37, R41). -/
  dbuf : Vector Byte 64
  /-- TRN.dcount, TRN_STATE[6:0]: digest bytes pushed since the last TRN_CLEAR or TRN_RUN (R37, R38). -/
  dcount : BitVec 7
  /-- TRN.ovf, TRN_STATE[7]: a TRN_PUSH found the buffer full (R37, R38). -/
  ovf : Bool
  /-- TRN_STATE[8], CODE_VALID (R38). -/
  codeValid : Bool
  /-- CODE[29:0] (R39). -/
  code : BitVec 30
  /-- CODE_STR0: code characters 0 to 3 (R40). -/
  str0 : Word
  /-- CODE_STR1: code characters 4 to 7 (R40). -/
  str1 : Word
  /-- CODE_STR2: code character 8 (R40). -/
  str2 : Word
deriving DecidableEq, Repr

/-- The whole state: every piece 10_state.md gives the block, the level of its reset input
(70_reset_and_hazards.md R230), and the two fields by which the model holds the host's side of a run: the inputs the
host has still to see answered, and the values its reads returned (assumption log 1, 2 and 4). -/
structure State where
  /-- STATUS[3:0], ERR: the status code of the most recent command (R24). -/
  status : StatusCode
  /-- CFG[3:0], DIGITS (R25). -/
  cfgDigits : BitVec 4
  /-- CFG[5:4], ALG (R25, R26). -/
  cfgAlg : BitVec 2
  /-- STEP (R27). -/
  stepSeconds : Word
  /-- EPOCH_LO (R28). -/
  epochLo : Word
  /-- EPOCH_HI (R28). -/
  epochHi : Word
  /-- COUNTER_LO (R29). -/
  counterLo : Word
  /-- COUNTER_HI (R29). -/
  counterHi : Word
  /-- The encoder's state. -/
  enc : EncUnit
  /-- The decoder's state. -/
  dec : DecUnit
  /-- The truncator's state. -/
  trn : TrnUnit
  /-- The reset input is asserted (70_reset_and_hazards.md R230). -/
  resetAsserted : Bool
  /-- The host's inputs still to be taken, the next one first. DESIGN CHOICE (log 1). -/
  pending : List HostInput
  /-- The values the host's reads returned, oldest first. DESIGN CHOICE (log 2). -/
  reads : List Word
deriving DecidableEq, Repr

/-- The reasons the machine stops with a fault. -/
inductive Fault where
  /-- Raised by the step on a host access that is not permitted: `BusError(off)` of 40_host_access.md R92, with the
  operands R92 lists, the offset and the direction. Nothing changes. SAFE: the spec says nothing past it. -/
  | busError (off : Nat) (dir : Dir)
deriving DecidableEq, Repr

/-- The reasons the machine has no meaning for what it is asked. -/
inductive Refusal where
  /-- An instruction whose meaning is not modelled; raised by no arm of the finished model. SAFE. -/
  | notModelled (mnemonic : String)
  /-- A host access made while reset is asserted: 70_reset_and_hazards.md R232 gives it no defined result and calls it
  no step of the model. Raised by the step. SAFE (assumption log 5). -/
  | accessDuringReset
deriving DecidableEq, Repr

/-- What a step and a meaning answer. -/
abbrev Result := Host.Outcome State Fault Refusal

/-- The encoder after reset (70_reset_and_hazards.md R230, 10_state.md R21 and R31). -/
def EncUnit.reset : EncUnit where
  acc := 0
  nbits := 0
  sym := 0
  outN := 0
  out0 := 0
  out1 := 0

/-- The decoder after reset (70_reset_and_hazards.md R230, 10_state.md R21 and R34). -/
def DecUnit.reset : DecUnit where
  acc := 0
  nbits := 0
  pad := false
  err := false
  outByte := 0
  outValid := false

/-- The truncator after reset (70_reset_and_hazards.md R230, 10_state.md R21 and R37). -/
def TrnUnit.reset : TrnUnit where
  dbuf := Vector.replicate 64 0
  dcount := 0
  ovf := false
  codeValid := false
  code := 0
  str0 := 0
  str1 := 0
  str2 := 0

/-- The machine right after reset: the reset column of 10_state.md R21 and the internal state at 0
(70_reset_and_hazards.md R230); DIGITS 6, SHA-1 and a step of 30 seconds are the source's defaults (R231). -/
def State.reset : State where
  status := .ok
  cfgDigits := 6
  cfgAlg := 0
  stepSeconds := 30
  epochLo := 0
  epochHi := 0
  counterLo := 0
  counterHi := 0
  enc := EncUnit.reset
  dec := DecUnit.reset
  trn := TrnUnit.reset
  resetAsserted := false
  pending := []
  reads := []

end Sys2Proof.Machine
end

