-- ==== Sys2Proof/Machine/Operands.lean ====
section
/-! DEFINITION. The values the commands compute with: base32 symbols, stream-register lanes, 5-bit and 8-bit groups,
digest lengths, the truncation window, decimal digits and the counter message. -/

namespace Sys2Proof.Machine

/-! ### Base32 characters -/

/-- `SYM(i)`: the ASCII code of alphabet symbol `i` (41_base32_encoder.md R100). -/
def symbolCode (i : BitVec 5) : Byte :=
  if i.toNat ≤ 25 then BitVec.ofNat 8 (0x41 + i.toNat) else BitVec.ofNat 8 (0x32 + (i.toNat - 26))

/-- `PADC`, the ASCII code of `=` (41_base32_encoder.md R100). -/
def padCode : Byte := 0x3D

/-- `upper(c)`: the lower-case ASCII letters to upper case, every other code unchanged (42_base32_decoder.md R120). -/
def upperCode (c : Byte) : Byte := if 0x61 ≤ c ∧ c ≤ 0x7A then c - 0x20 else c

/-- `VAL(u)`: the alphabet index of an upper-cased code, none when it is no alphabet symbol (42_base32_decoder.md
R120). -/
def symbolValue (u : Byte) : Option (BitVec 5) :=
  if 0x41 ≤ u ∧ u ≤ 0x5A then some (BitVec.ofNat 5 (u.toNat - 0x41))
  else if 0x32 ≤ u ∧ u ≤ 0x37 then some (BitVec.ofNat 5 (u.toNat - 0x32 + 26))
  else none

/-! ### Stream registers -/

/-- Element `k` of a byte sequence, 0x00 past its end (00_scope.md R14). -/
def streamByte (xs : List Byte) (k : Nat) : Byte := xs.getD k 0

/-- `{l3, l2, l1, l0}`: four lanes as one register, lane 0 lowest (00_scope.md R14). -/
def packLanes (l0 l1 l2 l3 : Byte) : Word := ((l3 ++ l2) ++ l1) ++ l0

/-- Word `j` of the stream register that shows a byte sequence (00_scope.md R14). -/
def streamWord (xs : List Byte) (j : Nat) : Word :=
  packLanes (streamByte xs (4 * j)) (streamByte xs (4 * j + 1)) (streamByte xs (4 * j + 2)) (streamByte xs (4 * j + 3))

/-- Lane `j` of a register: bits `[8j+7 : 8j]` (00_scope.md R14). -/
def laneOf (w : Word) (j : Nat) : Byte := w.extractLsb' (8 * j) 8

/-! ### The encoder's groups -/

/-- The loop of ENC_PUSH (41_base32_encoder.md R104): while at least 5 bits are pending, the top 5 become a symbol and
leave the accumulator. The answer is the symbols in order, the accumulator and the count left. Every turn takes 5 bits,
so `fuel = n` turns are enough. -/
def drainSymbols : Nat → Nat → Nat → List Byte × Nat × Nat
  | 0, acc, n => ([], acc, n)
  | fuel + 1, acc, n =>
    if n < 5 then ([], acc, n)
    else
      let rest := drainSymbols fuel (acc &&& ((1 <<< (n - 5)) - 1)) (n - 5)
      (symbolCode (BitVec.ofNat 5 ((acc >>> (n - 5)) &&& 0x1F)) :: rest.1, rest.2)

/-- The symbol of the last partial group, its low-order bits filled with zero; none when no bit is pending
(41_base32_encoder.md R105). -/
def flushSymbol (acc n : Nat) : List Byte :=
  if 0 < n then [symbolCode (BitVec.ofNat 5 ((acc <<< (5 - n)) &&& 0x1F))] else []

/-- The `=` characters that bring a count of symbols, mod 8, to the next multiple of 8 (41_base32_encoder.md R105). -/
def padChars (pad : Bool) (symMod8 : Nat) : List Byte :=
  if pad ∧ symMod8 ≠ 0 then List.replicate (8 - symMod8) padCode else []

/-! ### The decoder's byte -/

/-- What DEC_PUSH does with the accumulator after a symbol (42_base32_decoder.md R122): with 8 bits or more pending,
the top 8 become a byte and leave the accumulator. The answer is the byte if any, the accumulator and the count
left. -/
def takeByte (acc n : Nat) : Option Byte × Nat × Nat :=
  if 8 ≤ n then (some (BitVec.ofNat 8 ((acc >>> (n - 8)) &&& 0xFF)), acc &&& ((1 <<< (n - 8)) - 1), n - 8)
  else (none, acc, n)

/-! ### The truncator's values -/

/-- `DLEN(ALG)`: the digest length in bytes, none for ALG 3 (43_hotp_truncator.md R145, 10_state.md R26). -/
def algDigestLength (alg : BitVec 2) : Option Nat :=
  match alg with
  | 0#2 => some 20
  | 1#2 => some 32
  | 2#2 => some 64
  | _ => none

/-- `DBUF[i]` (10_state.md R37). No index a command forms is past the buffer (43_hotp_truncator.md R153). -/
def digestByte (buf : Vector Byte 64) (i : Nat) : Byte := buf[i]?.getD 0

/-- `TRN.offset`: the low 4 bits of the digest's last byte (43_hotp_truncator.md R147). -/
def truncOffset (buf : Vector Byte 64) (len : Nat) : BitVec 4 := (digestByte buf (len - 1)).setWidth 4

/-- `TRN.p` for the window at `o`: four bytes, big-endian, the top bit of the first one cleared: 7 + 8 + 8 + 8 bits
(43_hotp_truncator.md R144 and R148). -/
def truncValue (buf : Vector Byte 64) (o : Nat) : BitVec 31 :=
  (((digestByte buf o &&& 0x7F).setWidth 7 ++ digestByte buf (o + 1)) ++ digestByte buf (o + 2)) ++ digestByte buf (o + 3)

/-- Decimal digit `k`, 0 the most significant, of the `dg`-digit rendering of a code, as an ASCII code
(43_hotp_truncator.md R149). -/
def decimalDigit (code dg k : Nat) : Byte := BitVec.ofNat 8 (0x30 + code / 10 ^ (dg - 1 - k) % 10)

/-- The `dg` characters of a code, left-padded with zeros (43_hotp_truncator.md R149). -/
def codeChars (code dg : Nat) : List Byte := (List.range dg).map (decimalDigit code dg)

/-! ### The counter's values -/

/-- `EPOCH = {EPOCH_HI, EPOCH_LO}` (10_state.md R28). -/
def State.epoch (s : State) : BitVec 64 := s.epochHi ++ s.epochLo

/-- `COUNTER = {COUNTER_HI, COUNTER_LO}` (10_state.md R29). -/
def State.counter (s : State) : BitVec 64 := s.counterHi ++ s.counterLo

/-- The 8 message bytes of a counter, `msg[k] = COUNTER[63 - 8k : 56 - 8k]` (44_totp_counter_mapper.md R175). -/
def msgBytes (counter : BitVec 64) : List Byte := (List.range 8).map fun k => counter.extractLsb' (56 - 8 * k) 8

end Sys2Proof.Machine
end

