-- ==== Sys2Proof/Machine/Flags.lean ====
section
/-! DEFINITION. The status codes as numbers, the packed status and state registers, and the choice of the error code a
command reports (10_state.md R24 to R42, 60_exceptions.md R201 and R208). -/

namespace Sys2Proof.Machine

/-- The number of a status code (60_exceptions.md R201). -/
def StatusCode.number : StatusCode → BitVec 4
  | .ok => 0
  | .decodeError => 1
  | .unsupportedAlgorithm => 2
  | .invalidOptions => 3
  | .digestLength => 4
  | .illegalCommand => 5

/-- STATUS: ERR in bits 3:0, the rest 0 (10_state.md R24). -/
def statusWord (s : State) : Word := 0#28 ++ s.status.number

/-- CFG: DIGITS in bits 3:0, ALG in bits 5:4, the rest 0 (10_state.md R25). -/
def cfgWord (s : State) : Word := (0#26 ++ s.cfgAlg) ++ s.cfgDigits

/-- ENC_STATE: NBITS in bits 3:0, SYMMOD8 in bits 6:4, the rest 0 (10_state.md R32). -/
def encStateWord (e : EncUnit) : Word := (0#25 ++ e.sym) ++ e.nbits

/-- ENC_OUT_N: N in bits 3:0, the rest 0 (10_state.md R33). -/
def encOutNWord (e : EncUnit) : Word := 0#28 ++ e.outN

/-- DEC_STATE: NBITS in bits 3:0, PAD in bit 4, ERR in bit 5, the rest 0 (10_state.md R35). -/
def decStateWord (d : DecUnit) : Word := ((0#26 ++ BitVec.ofBool d.err) ++ BitVec.ofBool d.pad) ++ d.nbits

/-- DEC_OUT: BYTE in bits 7:0, VALID in bit 8, the rest 0 (10_state.md R36). -/
def decOutWord (d : DecUnit) : Word := (0#23 ++ BitVec.ofBool d.outValid) ++ d.outByte

/-- TRN_STATE: DCOUNT in bits 6:0, OVF in bit 7, CODE_VALID in bit 8, the rest 0 (10_state.md R38). -/
def trnStateWord (t : TrnUnit) : Word := ((0#23 ++ BitVec.ofBool t.codeValid) ++ BitVec.ofBool t.ovf) ++ t.dcount

/-- CODE: VALUE in bits 29:0, the rest 0 (10_state.md R39). -/
def codeWord (t : TrnUnit) : Word := 0#2 ++ t.code

/-- DIGITS is in its range, 6 to 9 inclusive (00_scope.md R7, 43_hotp_truncator.md R144). -/
def digitsInRange (digits : BitVec 4) : Bool :=
  decide (Config.digitsMin ≤ digits.toNat) && decide (digits.toNat ≤ Config.digitsMax)

/-- The code TRN_RUN reports: the first cause in the order of 43_hotp_truncator.md R146 (60_exceptions.md R208). -/
def trnRunCode (s : State) : StatusCode :=
  match algDigestLength s.cfgAlg with
  | none => .unsupportedAlgorithm
  | some len =>
    if digitsInRange s.cfgDigits then
      if s.trn.ovf ∨ s.trn.dcount.toNat ≠ len then .digestLength else .ok
    else .invalidOptions

/-- The code DEC_FINAL reports (42_base32_decoder.md R123). -/
def decFinalCode (d : DecUnit) : StatusCode := if d.err then .decodeError else .ok

end Sys2Proof.Machine
end

