-- ==== Sys2Proof/Machine/Ops.lean ====
section
/-! DEFINITION. The shared operations: ending a command with a status code, the bus error, register reads and writes,
the output registers, wiping, and the reset input. -/

namespace Sys2Proof.Machine

/-! ### Ending a command, and the bus error -/

/-- `raise Status(code)`, and the end of a command that succeeds: STATUS.ERR takes the code, nothing else is saved or
changed, and the machine goes on (60_exceptions.md R204, 40_host_access.md R95). This is the block's one form of
taking an exception; there is no return from it (60_exceptions.md R205). -/
def raiseStatus (code : StatusCode) (s : State) : Result := .next { s with status := code }

/-- `illegal()`: STATUS.ERR takes ILLEGAL_COMMAND and nothing else changes (40_host_access.md R96). -/
def illegalCommand (s : State) : Result := raiseStatus .illegalCommand s

/-- `raise BusError(off)`: the access is answered by a bus error, the model's fault (40_host_access.md R92). -/
def raiseBusError (off : Nat) (dir : Dir) : Result := .fault (.busError off dir)

/-! ### Register reads and writes -/

/-- The value of ID, the ASCII codes of `TOTP` (10_state.md R22). -/
def idValue : Word := 0x544F5450

/-- `readReg`: the value a register shows, reserved bits 0; none for CMD, which cannot be read (40_host_access.md R91,
10_state.md R23). MSG0 and MSG1 are computed from COUNTER (44_totp_counter_mapper.md R175). -/
def regValue (r : Reg) (s : State) : Option Word :=
  match r with
  | .id => some idValue
  | .cmd => none
  | .status => some (statusWord s)
  | .cfg => some (cfgWord s)
  | .step => some s.stepSeconds
  | .epochLo => some s.epochLo
  | .epochHi => some s.epochHi
  | .counterLo => some s.counterLo
  | .counterHi => some s.counterHi
  | .msg0 => some (streamWord (msgBytes s.counter) 0)
  | .msg1 => some (streamWord (msgBytes s.counter) 1)
  | .encState => some (encStateWord s.enc)
  | .encOutN => some (encOutNWord s.enc)
  | .encOut0 => some s.enc.out0
  | .encOut1 => some s.enc.out1
  | .decState => some (decStateWord s.dec)
  | .decOut => some (decOutWord s.dec)
  | .trnState => some (trnStateWord s.trn)
  | .code => some (codeWord s.trn)
  | .codeStr0 => some s.trn.str0
  | .codeStr1 => some s.trn.str1
  | .codeStr2 => some s.trn.str2

/-- `writeReg`: a write to an RW register stores the value; CFG keeps bits 5:0 only (40_host_access.md R93). None for
a register that is not RW: a write to CMD runs a command instead (R94), a write to an RO register is a bus error. -/
def writeReg (r : Reg) (v : Word) (s : State) : Option State :=
  match r with
  | .cfg => some { s with cfgDigits := v.extractLsb' 0 4, cfgAlg := v.extractLsb' 4 2 }
  | .step => some { s with stepSeconds := v }
  | .epochLo => some { s with epochLo := v }
  | .epochHi => some { s with epochHi := v }
  | .counterLo => some { s with counterLo := v }
  | .counterHi => some { s with counterHi := v }
  | .id | .cmd | .status | .msg0 | .msg1 | .encState | .encOutN | .encOut0 | .encOut1 | .decState | .decOut | .trnState
  | .code | .codeStr0 | .codeStr1 | .codeStr2 => none

/-! ### The encoder's shared operations -/

/-- `setOut(out)`: the characters of the command, at most 8, into ENC_OUT_N, ENC_OUT0 and ENC_OUT1
(41_base32_encoder.md R101). -/
def EncUnit.setOut (out : List Byte) (e : EncUnit) : EncUnit :=
  { e with outN := BitVec.ofNat 4 out.length, out0 := streamWord out 0, out1 := streamWord out 1 }

/-- The encoder with no pending bit and no symbol counted (41_base32_encoder.md R103 and R105). -/
def EncUnit.clearStream (e : EncUnit) : EncUnit := { e with acc := 0, nbits := 0, sym := 0 }

/-! ### The decoder's shared operations -/

/-- `DEC_OUT <- 0` (42_base32_decoder.md R121 to R123). -/
def DecUnit.clearOut (d : DecUnit) : DecUnit := { d with outByte := 0, outValid := false }

/-- The decoder with no pending bit, no `=` seen, no error and no byte shown (42_base32_decoder.md R121 and R123). -/
def DecUnit.clearStream (d : DecUnit) : DecUnit :=
  { d.clearOut with acc := 0, nbits := 0, pad := false, err := false }

/-- A failed DEC_PUSH that was not yet in error: the error becomes sticky and the pending bits are cleared
(42_base32_decoder.md R122). -/
def DecUnit.failStream (d : DecUnit) : DecUnit := { d.clearOut with err := true, acc := 0, nbits := 0 }

/-- A symbol taken into the accumulator, and the byte it completes, if any (42_base32_decoder.md R122). -/
def DecUnit.takeSymbol (v : BitVec 5) (d : DecUnit) : DecUnit :=
  let r := takeByte ((d.acc.toNat <<< 5) ||| v.toNat) (d.nbits.toNat + 5)
  { d with
    acc := BitVec.ofNat 12 r.2.1
    nbits := BitVec.ofNat 4 r.2.2
    outByte := r.1.getD 0
    outValid := r.1.isSome }

/-! ### The truncator's shared operations -/

/-- The digest buffer emptied (43_hotp_truncator.md R142 and R151). -/
def TrnUnit.clearDigest (t : TrnUnit) : TrnUnit :=
  { t with dbuf := Vector.replicate 64 0, dcount := 0, ovf := false }

/-- The last code wiped (43_hotp_truncator.md R142 and R152). -/
def TrnUnit.clearCode (t : TrnUnit) : TrnUnit :=
  { t with code := 0, str0 := 0, str1 := 0, str2 := 0, codeValid := false }

/-- A code of `dg` digits shown: CODE, CODE_STR and CODE_VALID (43_hotp_truncator.md R144 and R149). -/
def TrnUnit.setCode (code dg : Nat) (t : TrnUnit) : TrnUnit :=
  { t with
    code := BitVec.ofNat 30 code
    str0 := streamWord (codeChars code dg) 0
    str1 := streamWord (codeChars code dg) 1
    str2 := streamWord (codeChars code dg) 2
    codeValid := true }

/-! ### The reset input -/

/-- The reset input takes a level (70_reset_and_hazards.md R230): while it is asserted, and when it is released, every
piece of the block's state takes its reset value. A level that was and stays not asserted changes nothing. The host's
side of the run is no state of the block and stays (assumption log 4). -/
def driveReset (asserted : Bool) (s : State) : State :=
  if asserted || s.resetAsserted then
    { State.reset with resetAsserted := asserted, pending := s.pending, reads := s.reads }
  else s

end Sys2Proof.Machine
end

