-- ==== Sys2Proof/Machine/Counter.lean ====
section
/-! DEFINITION. The command of totp_counter_mapper: CTR_RUN (44_totp_counter_mapper.md). -/

namespace Sys2Proof.Machine

/-- CTR_RUN: `COUNTER <- floor(EPOCH / STEP)`, both halves at once; a step of 0 is refused with INVALID_OPTIONS and
leaves COUNTER (44_totp_counter_mapper.md R171 and R172). -/
def execCtrRun (s : State) : Result :=
  if s.stepSeconds = 0 then raiseStatus .invalidOptions s
  else
    let q := s.epoch / s.stepSeconds.setWidth 64
    raiseStatus .ok { s with counterHi := q.extractLsb' 32 32, counterLo := q.extractLsb' 0 32 }

end Sys2Proof.Machine
end

