-- ==== Sys2Proof/Machine/Decoder.lean ====
section
/-! DEFINITION. The commands of base32_decoder: DEC_INIT, DEC_PUSH, DEC_FINAL (42_base32_decoder.md). -/

namespace Sys2Proof.Machine

/-- DEC_INIT: start a new decode; a sticky error is cleared without a report (42_base32_decoder.md R121). -/
def execDecInit (s : State) : Result :=
  raiseStatus .ok { s with dec := s.dec.clearStream }

/-- DEC_PUSH of a code that is not `=`, with no error pending (42_base32_decoder.md R122): a code outside the alphabet
and any symbol after a `=` fail (R127); a symbol is taken. -/
def decPushSymbol (v : Option (BitVec 5)) (s : State) : Result :=
  match v with
  | none => raiseStatus .decodeError { s with dec := s.dec.failStream }
  | some x =>
    if s.dec.pad then raiseStatus .decodeError { s with dec := s.dec.failStream }
    else raiseStatus .ok { s with dec := s.dec.takeSymbol x }

/-- DEC_PUSH `c`: take one input character (42_base32_decoder.md R122). The sticky error is looked at first
(60_exceptions.md R208). -/
def execDecPush (c : Byte) (s : State) : Result :=
  if s.dec.err then raiseStatus .decodeError { s with dec := s.dec.clearOut }
  else if upperCode c = padCode then raiseStatus .ok { s with dec := { s.dec.clearOut with pad := true } }
  else decPushSymbol (symbolValue (upperCode c)) s

/-- DEC_FINAL: discard the leftover bits, report the verdict, end the decode (42_base32_decoder.md R123). -/
def execDecFinal (s : State) : Result :=
  raiseStatus (decFinalCode s.dec) { s with dec := s.dec.clearStream }

end Sys2Proof.Machine
end

