-- ==== Sys2Proof/Machine/Encoder.lean ====
section
/-! DEFINITION. The commands of base32_encoder: ENC_INIT, ENC_PUSH, ENC_FINAL (41_base32_encoder.md). -/

namespace Sys2Proof.Machine

/-- ENC_INIT: start a new encode; pending bits are dropped with no symbol (41_base32_encoder.md R103). -/
def execEncInit (s : State) : Result :=
  raiseStatus .ok { s with enc := s.enc.clearStream.setOut [] }

/-- The encoder after one more byte: its 8 bits appended below the pending ones, every complete 5-bit group emitted
(41_base32_encoder.md R104). -/
def EncUnit.pushByte (b : Byte) (e : EncUnit) : EncUnit :=
  let n := e.nbits.toNat + 8
  let r := drainSymbols n ((e.acc.toNat <<< 8) ||| b.toNat) n
  EncUnit.setOut r.1
    { e with
      acc := BitVec.ofNat 12 r.2.1
      nbits := BitVec.ofNat 4 r.2.2
      sym := BitVec.ofNat 3 ((e.sym.toNat + r.1.length) % 8) }

/-- The encoder after the end of an encode: the last partial group flushed, the symbols padded to a multiple of 8 if
asked, the stream cleared (41_base32_encoder.md R105). -/
def EncUnit.finish (pad : Bool) (e : EncUnit) : EncUnit :=
  let last := flushSymbol e.acc.toNat e.nbits.toNat
  (e.setOut (last ++ padChars pad ((e.sym.toNat + last.length) % 8))).clearStream

/-- ENC_PUSH `b`: add one input byte and emit every complete 5-bit group (41_base32_encoder.md R104). -/
def execEncPush (b : Byte) (s : State) : Result :=
  raiseStatus .ok { s with enc := s.enc.pushByte b }

/-- ENC_FINAL `pad`: flush the last partial group, optionally pad, and end the encode (41_base32_encoder.md R105). -/
def execEncFinal (pad : Bool) (s : State) : Result :=
  raiseStatus .ok { s with enc := s.enc.finish pad }

end Sys2Proof.Machine
end

