-- ==== Sys2Proof/Machine/Truncator.lean ====
section
/-! DEFINITION. The commands of hotp_truncator: TRN_CLEAR, TRN_PUSH, TRN_RUN (43_hotp_truncator.md). -/

namespace Sys2Proof.Machine

/-- TRN_CLEAR: empty the digest buffer and wipe the last code (43_hotp_truncator.md R142). -/
def execTrnClear (s : State) : Result :=
  raiseStatus .ok { s with trn := s.trn.clearDigest.clearCode }

/-- TRN_PUSH `d`: append one digest byte; a full buffer drops it and remembers the overflow (43_hotp_truncator.md
R143). -/
def execTrnPush (d : Byte) (s : State) : Result :=
  if s.trn.dcount.toNat < Config.dbufSize then
    raiseStatus .ok
      { s with trn := { s.trn with dbuf := s.trn.dbuf.setIfInBounds s.trn.dcount.toNat d, dcount := s.trn.dcount + 1 } }
  else raiseStatus .digestLength { s with trn := { s.trn with ovf := true } }

/-- The decimal code TRN_RUN computes from a digest of `len` bytes (43_hotp_truncator.md R147 to R149). -/
def hotpCode (buf : Vector Byte 64) (len digits : Nat) : Nat :=
  (truncValue buf (truncOffset buf len).toNat).toNat % 10 ^ digits

/-- TRN_RUN: truncate the buffered digest and reduce it to a decimal code; the digest is consumed whether it succeeds or
fails, and a failure wipes the code (43_hotp_truncator.md R144, R151 and R152). -/
def execTrnRun (s : State) : Result :=
  match trnRunCode s, algDigestLength s.cfgAlg with
  | .ok, some len =>
    let code := hotpCode s.trn.dbuf len s.cfgDigits.toNat
    raiseStatus .ok { s with trn := (s.trn.setCode code s.cfgDigits.toNat).clearDigest }
  | code, _ => raiseStatus code { s with trn := s.trn.clearCode.clearDigest }

end Sys2Proof.Machine
end

