-- ==== Sys2Proof/Machine/Dispatch.lean ====
section
/-! DEFINITION. One command, one meaning (40_host_access.md R94: `body(c)`). -/

namespace Sys2Proof.Machine

def exec (i : Instr) (s : State) : Host.Outcome State Fault Refusal :=
  match i with
  -- base32_encoder
  | .encInit => Sys2Proof.Machine.execEncInit s
  | .encPush b => Sys2Proof.Machine.execEncPush b s
  | .encFinal pad => Sys2Proof.Machine.execEncFinal pad s
  -- base32_decoder
  | .decInit => Sys2Proof.Machine.execDecInit s
  | .decPush c => Sys2Proof.Machine.execDecPush c s
  | .decFinal => Sys2Proof.Machine.execDecFinal s
  -- hotp_truncator
  | .trnClear => Sys2Proof.Machine.execTrnClear s
  | .trnPush d => Sys2Proof.Machine.execTrnPush d s
  | .trnRun => Sys2Proof.Machine.execTrnRun s
  -- totp_counter_mapper
  | .ctrRun => Sys2Proof.Machine.execCtrRun s

end Sys2Proof.Machine
end

