-- ==== Sys2Proof/Machine/HostAccess.lean ====
section
/-! DEFINITION. The block's answer to one host access (40_host_access.md R90 to R94), and to one input. -/

namespace Sys2Proof.Machine

/-- `runCommand(w)` (40_host_access.md R94). -/
def runCommand (w : Word) (s : State) : Result :=
  match decode w with
  | .command i => exec i s
  | .illegal _ => illegalCommand s

/-- `MemRead(off, n)`: a permitted read returns the register's value and changes nothing of the block; the value joins
those the host has read (40_host_access.md R90 and R91, 20_memory.md R54). -/
def answerRead (off n : Nat) (s : State) : Result :=
  if permitted off n .read then
    match (Reg.atOffset off).bind fun r => regValue r s with
    | some v => .next { s with reads := s.reads ++ [v] }
    | none => raiseBusError off .read
  else raiseBusError off .read

/-- `MemWrite(off, n, v)`: a permitted write to CMD runs a command, to an RW register stores the value
(40_host_access.md R90, R93 and R94). -/
def answerWrite (off n : Nat) (v : Word) (s : State) : Result :=
  if permitted off n .write then
    match Reg.atOffset off with
    | some .cmd => runCommand v s
    | some r =>
      match writeReg r v s with
      | some t => .next t
      | none => raiseBusError off .write
    | none => raiseBusError off .write
  else raiseBusError off .write

/-- `step(access)` of 40_host_access.md R90. -/
def answerAccess (a : Access) (s : State) : Result :=
  match a with
  | .read off n => answerRead off n s
  | .write off n v => answerWrite off n v s

/-- One input of the block: a host access, which has no meaning while reset is asserted (70_reset_and_hazards.md R232),
or a level of the reset input (R230). -/
def takeInput (x : HostInput) (s : State) : Result :=
  match x with
  | .access a => if s.resetAsserted then .refused .accessDuringReset else answerAccess a s
  | .resetLine asserted => .next (driveReset asserted s)

/-- With no input there is nothing to answer, and "the block does nothing between accesses" (40_host_access.md R90;
assumption log 3). -/
def idle (s : State) : Result := .next s

/-- The write of a word to CMD (40_host_access.md R94: `MemWrite(0x04, 4, w)`). -/
def cmdWrite (w : Word) : HostInput := .access (.write 0x04 4 w)

/-- The state whose next input is the write of a word to CMD, with reset not asserted (assumption log 15). -/
def placeCommand (w : Word) (s : State) : State :=
  { s with pending := cmdWrite w :: s.pending, resetAsserted := false }

end Sys2Proof.Machine
end

