-- ==== Sys2Proof/Machine/Step.lean ====
section
/-! DEFINITION. The step: the block takes the next input of the host (40_host_access.md R90, 20_memory.md R60). -/

namespace Sys2Proof.Machine

/-- One step: the next input, in the order the bus delivers them (20_memory.md R60), is taken out of the list and
answered; with none, the block does nothing. -/
def step (s : State) : Host.Outcome State Fault Refusal :=
  match s.pending with
  | [] => idle s
  | x :: rest => takeInput x { s with pending := rest }

/-- The state whose very next step runs the command of the `nbits`-bit word `w`: the block fetches nothing
(10_state.md R20), it is given a command by a write to CMD, so that write is put first (assumption log 15). -/
def State.withFetchWord (s : State) (nbits w : Nat) : State :=
  placeCommand (BitVec.ofNat 32 (w % 2 ^ nbits)) s

end Sys2Proof.Machine
end

