-- ==== Sys2Proof/Machine/Assembler.lean ====
section
/-! DEFINITION. What an assembly statement stands for: the host accesses it expands to, in order (30_encoding.md R77 and
R78). -/

namespace Sys2Proof.Machine

/-- The command a mnemonic and its operand name (30_encoding.md R77). -/
def asmCommand : Mnemonic → AsmOperand → Option Instr
  | .encInit, .none => some .encInit
  | .encPush, .num x => some (.encPush (BitVec.ofNat 8 x))
  | .encFinal, .pad => some (.encFinal true)
  | .encFinal, .nopad => some (.encFinal false)
  | .decInit, .none => some .decInit
  | .decPush, .num x => some (.decPush (BitVec.ofNat 8 x))
  | .decFinal, .none => some .decFinal
  | .trnClear, .none => some .trnClear
  | .trnPush, .num x => some (.trnPush (BitVec.ofNat 8 x))
  | .trnRun, .none => some .trnRun
  | .ctrRun, .none => some .ctrRun
  | _, _ => none

/-- `MemWrite(0x04, 4, w)` with the word of a command (30_encoding.md R77). -/
def asmRun (i : Instr) : Access := .write 0x04 4 (encode i)

/-- `MemWrite(off(REG), 4, v)` (30_encoding.md R77). -/
def asmWrite (r : Reg) (v : Nat) : Access := .write r.offset 4 (BitVec.ofNat 32 v)

/-- `MemRead(off(REG), 4)` (30_encoding.md R77). -/
def asmRead (r : Reg) : Access := .read r.offset 4

/-- The registers of a pair, the low half first (30_encoding.md R78). -/
def pairRegs : RegPair → Reg × Reg
  | .epoch => (.epochLo, .epochHi)
  | .counter => (.counterLo, .counterHi)

/-- The accesses of a well-formed statement (30_encoding.md R77 and R78). With each byte of `enc_bytes` the host reads
the three encoder output registers, with each character of `dec_chars` it reads DEC_OUT. -/
def expandStmt : Stmt → List Access
  | .cmd m x => (asmCommand m x).toList.map asmRun
  | .wr r v => [asmWrite r v]
  | .rd r => [asmRead r]
  | .wr64 p v => [asmWrite (pairRegs p).1 (v % 2 ^ 32), asmWrite (pairRegs p).2 (v / 2 ^ 32)]
  | .cfg digits alg => [asmWrite .cfg ((alg <<< 4) ||| digits)]
  | .encBytes xs =>
    xs.flatMap fun x => [asmRun (.encPush (BitVec.ofNat 8 x)), asmRead .encOutN, asmRead .encOut0, asmRead .encOut1]
  | .decChars cs => cs.flatMap fun c => [asmRun (.decPush (BitVec.ofNat 8 c)), asmRead .decOut]
  | .trnDigest ds => ds.map fun d => asmRun (.trnPush (BitVec.ofNat 8 d))

/-- The accesses of a statement; none for an assembly error, which "is not encoded" (30_encoding.md R77). -/
def assemble (st : Stmt) : Option (List Access) := if st.wellFormed then some (expandStmt st) else none

end Sys2Proof.Machine
end

