-- ==== Sys2Proof/Source.lean ====
section
/-! DEFINITION. The source's pure functions, as the spec quotes them (§4.1 to §4.3 in 41_base32_encoder.md to
44_totp_counter_mapper.md): the reference the units are measured against. Nothing of the machine calls them. -/

namespace Sys2Proof.Source

/-- ALPHA, as ASCII codes (00_scope.md R12 and R13). -/
def alphabet : List Byte :=
  ['A', 'B', 'C', 'D', 'E', 'F', 'G', 'H', 'I', 'J', 'K', 'L', 'M', 'N', 'O', 'P', 'Q', 'R', 'S', 'T', 'U', 'V', 'W',
    'X', 'Y', 'Z', '2', '3', '4', '5', '6', '7'].map fun c => BitVec.ofNat 8 c.toNat

/-- The padding character `=` (00_scope.md R12 and R13). -/
def padChar : Byte := BitVec.ofNat 8 '='.toNat

/-- The character at an index of ALPHA (00_scope.md R12). -/
def symbol (i : Nat) : Byte := alphabet.getD i 0

/-- "Case-normalizes the input (uppercase)", ASCII letters only (42_base32_decoder.md R120 and R125). -/
def upper (c : Byte) : Byte := if 97 ≤ c.toNat ∧ c.toNat ≤ 122 then c - 32 else c

/-- The lower-case form of an ASCII letter (42_base32_decoder.md R131, `toLowerCase`). -/
def lower (c : Byte) : Byte := if 65 ≤ c.toNat ∧ c.toNat ≤ 90 then c + 32 else c

/-- "for each remaining character looks up its 5-bit value in the alphabet" (§4.1). -/
def charValue (c : Byte) : Option Nat := alphabet.idxOf? (upper c)

/-- The `n` low bits of a number, most significant first (41_base32_encoder.md R102, 42_base32_decoder.md R124). -/
def bitsOf (n v : Nat) : List Bool := (List.range n).map fun k => v.testBit (n - 1 - k)

/-- The number a list of bits spells, most significant first. -/
def bitsValue (bs : List Bool) : Nat := bs.foldl (fun a b => 2 * a + b.toNat) 0

/-- The 5-bit groups of a bit stream; "if 1–4 bits remain, left-shift them to fill a 5-bit group (padding the
low-order bits with zero)" (§4.1). -/
def symbolGroups : List Bool → List (List Bool)
  | a :: b :: c :: d :: e :: rest => [a, b, c, d, e] :: symbolGroups rest
  | [] => []
  | rest => [rest ++ List.replicate (5 - rest.length) false]

/-- The 8-bit groups of a bit stream; "leftover bits (<8) at the end are … discarded" (§4.1). -/
def byteGroups : List Bool → List (List Bool)
  | a :: b :: c :: d :: e :: f :: g :: h :: rest => [a, b, c, d, e, f, g, h] :: byteGroups rest
  | _ => []

/-- The symbols of a byte sequence, without padding (§4.1). -/
def encodeText (bytes : List Byte) : List Byte :=
  (symbolGroups (bytes.flatMap fun b => bitsOf 8 b.toNat)).map fun g => symbol (bitsValue g)

/-- The padding of a text: `=` "to the next multiple of 8 characters" (§4.1). -/
def padding (length : Nat) : List Byte := List.replicate ((8 - length % 8) % 8) padChar

/-- `encode(bytes, padding)` (§4.1). -/
def encode (bytes : List Byte) (pad : Bool) : List Byte :=
  if pad then encodeText bytes ++ padding (encodeText bytes).length else encodeText bytes

/-- The text without its maximal trailing run of `=` (42_base32_decoder.md R127 and R129). -/
def stripPadding (text : List Byte) : List Byte := (text.reverse.dropWhile (· == padChar)).reverse

/-- The bytes of a list of 5-bit values (§4.1). -/
def bytesOf (values : List Nat) : List Byte :=
  (byteGroups (values.flatMap (bitsOf 5))).map fun g => BitVec.ofNat 8 (bitsValue g)

/-- `decode(string)`: none is DecodeError (§4.1, with `=` as 90_conflicts.md C4 settles it). -/
def decode (text : List Byte) : Option (List Byte) := ((stripPadding text).mapM charValue).map bytesOf

/-- The number a byte sequence spells, big-endian (§4.2 step 3). -/
def bigEndian (bytes : List Byte) : Nat := bytes.foldl (fun a b => 256 * a + b.toNat) 0

/-- "Let `offset = digest[last byte] & 0x0F`" (§4.2 step 3). -/
def truncationOffset (digest : List Byte) : Nat := (digest.getLastD 0).toNat % 16

/-- The 31-bit integer `p` of dynamic truncation (§4.2 step 3): the 4-byte slice at the offset, big-endian, its
most significant bit cleared. -/
def truncate (digest : List Byte) : Nat :=
  bigEndian ((digest.drop (truncationOffset digest)).take 4) % 2 ^ 31

/-- A number as decimal, "left-zero-padded to exactly `digits` characters" (§4.2 step 4). -/
def decimal : Nat → Nat → List Byte
  | 0, _ => []
  | digits + 1, v => decimal digits (v / 10) ++ [BitVec.ofNat 8 ('0'.toNat + v % 10)]

/-- The GeneratedCode of a digest (§4.2 steps 3 and 4). -/
def generatedCode (digest : List Byte) (digits : Nat) : List Byte := decimal digits (truncate digest % 10 ^ digits)

/-- `deriveCounter(epochSeconds, stepSeconds)` for a positive step (§4.3). -/
def deriveCounter (epochSeconds stepSeconds : Nat) : Nat := epochSeconds / stepSeconds

/-- A number as `n` bytes, big-endian, unsigned. -/
def bytesBigEndian : Nat → Nat → List Byte
  | 0, _ => []
  | n + 1, v => bytesBigEndian n (v / 256) ++ [BitVec.ofNat 8 v]

/-- "Serialize `counter` as 8 bytes, big-endian, unsigned" (§4.2 step 1). -/
def message (counter : Nat) : List Byte := bytesBigEndian 8 counter

end Sys2Proof.Source
end

