-- ==== Sys2Proof/Safety.lean ====
section
/-! DEFINITION. The terms the statements about the machine use: units, lanes, sequences of inputs and what they show, a
safe run, and the machine invariant. -/

namespace Sys2Proof.Machine

/-! ### Commands by unit -/

/-- The four units of the block (00_scope.md R1). -/
inductive UnitName where
  | encoder | decoder | truncator | counterMapper
deriving DecidableEq, Repr

/-- The unit of a command (10_state.md R43, 30_encoding.md R73). -/
def unitOf : Instr → UnitName
  | .encInit | .encPush _ | .encFinal _ => .encoder
  | .decInit | .decPush _ | .decFinal => .decoder
  | .trnClear | .trnPush _ | .trnRun => .truncator
  | .ctrRun => .counterMapper

/-- The command an input runs, if it is a permitted write of a legal word to CMD (40_host_access.md R94). -/
def commandOf : HostInput → Option Instr
  | .access (.write off n w) =>
    if off = 0x04 ∧ n = 4 then
      match decode w with
      | .command i => some i
      | .illegal _ => none
    else none
  | _ => none

/-- The command of one unit an input runs. -/
def unitCommandOf (u : UnitName) (x : HostInput) : Option Instr := (commandOf x).filter fun i => unitOf i = u

/-- The write of a command's word to CMD. -/
def runInput (i : Instr) : HostInput := cmdWrite (encode i)

/-- The write of a value to a register. -/
def writeInput (r : Reg) (v : Word) : HostInput := .access (.write r.offset 4 v)

/-- The read of a register. -/
def readInput (r : Reg) : HostInput := .access (.read r.offset 4)

/-- An input that is a permitted access (20_memory.md R51). -/
def permittedInput : HostInput → Bool
  | .access a => a.permitted
  | .resetLine _ => false

/-- The input writes the register CFG. -/
def writesCfg : HostInput → Bool
  | .access (.write off _ _) => off == Reg.cfg.offset
  | _ => false

/-! ### What a unit shows -/

/-- Lane `k` of the encoder's stream register, 0 to 7 (10_state.md R33, 00_scope.md R14). -/
def encLane (e : EncUnit) (k : Nat) : Byte := laneOf (if k < 4 then e.out0 else e.out1) (k % 4)

/-- The characters the last encoder command produced: ENC_OUT_N of them (10_state.md R33). -/
def encChars (e : EncUnit) : List Byte := (List.range e.outN.toNat).map (encLane e)

/-- The byte the last decoder command produced, if DEC_OUT.VALID (10_state.md R36). -/
def decBytes (d : DecUnit) : List Byte := if d.outValid then [d.outByte] else []

/-- Lane `k` of the code's stream register, 0 to 11 (10_state.md R40, 00_scope.md R14). -/
def codeLane (t : TrnUnit) (k : Nat) : Byte :=
  laneOf (if k < 4 then t.str0 else if k < 8 then t.str1 else t.str2) (k % 4)

/-- The message bytes a host reads in MSG0 and MSG1 (10_state.md R30). -/
def msgLane (s : State) (k : Nat) : Byte :=
  laneOf (((if k < 4 then regValue .msg0 s else regValue .msg1 s)).getD 0) (k % 4)

/-! ### Sequences of inputs -/

/-- The inputs of a list taken in order, up to the first that is no next state. -/
def takeAll : List HostInput → State → Result
  | [], s => .next s
  | x :: xs, s =>
    match takeInput x s with
    | .next t => takeAll xs t
    | .fault f => .fault f
    | .refused r => .refused r

/-- The bytes a unit shows over a list of inputs, those after each command of that unit joined in order
(41_base32_encoder.md R108, 42_base32_decoder.md R129), and the last state; none if an input is not answered. -/
def gather (u : UnitName) (shown : State → List Byte) : List HostInput → State → Option (List Byte × State)
  | [], s => some ([], s)
  | x :: xs, s =>
    match takeInput x s with
    | .next t =>
      (gather u shown xs t).map fun r => ((if (unitCommandOf u x).isSome then shown t else []) ++ r.1, r.2)
    | .fault _ => none
    | .refused _ => none

/-- The characters an encode shows, and the last state. -/
def gatherEnc (xs : List HostInput) (s : State) : Option (List Byte × State) :=
  gather .encoder (fun t => encChars t.enc) xs s

/-- The bytes a decode shows, and the last state. -/
def gatherDec (xs : List HostInput) (s : State) : Option (List Byte × State) :=
  gather .decoder (fun t => decBytes t.dec) xs s

/-- A run is safe when every input is answered: no bus error and no access during reset. -/
def SafeRun (xs : List HostInput) (s : State) : Prop := ∃ t, takeAll xs s = .next t

/-! ### The machine invariant -/

/-- Between commands fewer than 5 bits are pending in the encoder, and ENC.acc holds nothing else
(41_base32_encoder.md R106). -/
def EncUnit.Pending (e : EncUnit) : Prop := e.nbits.toNat ≤ 4 ∧ e.acc.toNat < 2 ^ e.nbits.toNat

/-- Between commands fewer than 8 bits are pending in the decoder, and DEC.acc holds nothing else
(42_base32_decoder.md R126). -/
def DecUnit.Pending (d : DecUnit) : Prop := d.nbits.toNat ≤ 7 ∧ d.acc.toNat < 2 ^ d.nbits.toNat

/-- The encoder's invariant. -/
structure EncUnit.Inv (e : EncUnit) : Prop where
  /-- 41_base32_encoder.md R106. -/
  pending : e.Pending
  /-- Bytes in, symbols and pending bits out: 8 bits a byte, 5 a symbol (41_base32_encoder.md R107). -/
  bits_conserved : 8 ∣ 5 * e.sym.toNat + e.nbits.toNat
  /-- 10_state.md R33. -/
  outN_le : e.outN.toNat ≤ 8
  /-- 10_state.md R33: 0x00 past the N-th character. -/
  lane_past_end : ∀ k, e.outN.toNat ≤ k → k < 8 → encLane e k = 0
  /-- 41_base32_encoder.md R109. -/
  lane_in_alphabet : ∀ k, k < e.outN.toNat → encLane e k ∈ Source.alphabet ∨ encLane e k = Source.padChar

/-- The decoder's invariant. -/
structure DecUnit.Inv (d : DecUnit) : Prop where
  /-- 42_base32_decoder.md R126. -/
  pending : d.Pending
  /-- 42_base32_decoder.md R122 and R128: an error clears the pending bits, and no byte is shown after it. -/
  error_empty : d.err = true → d.nbits = 0 ∧ d.acc = 0 ∧ d.outValid = false
  /-- 10_state.md R36: when VALID is 0, BYTE is 0. -/
  byte_valid : d.outValid = false → d.outByte = 0

/-- CODE and CODE_STR show one code of 6 to 9 digits (10_state.md R39 and R40). -/
def TrnUnit.ShowsCode (t : TrnUnit) : Prop :=
  ∃ dg : Nat, 6 ≤ dg ∧ dg ≤ 9 ∧ t.code.toNat < 10 ^ dg ∧
    ∀ k, k < 12 → codeLane t k = (Source.decimal dg t.code.toNat).getD k 0

/-- CODE and CODE_STR are wiped (43_hotp_truncator.md R152). -/
def TrnUnit.ShowsNothing (t : TrnUnit) : Prop := t.code = 0 ∧ t.str0 = 0 ∧ t.str1 = 0 ∧ t.str2 = 0

/-- The truncator's invariant. -/
structure TrnUnit.Inv (t : TrnUnit) : Prop where
  /-- 10_state.md R37. -/
  dcount_le : t.dcount.toNat ≤ 64
  /-- 10_state.md R37: `DBUF[i]` for `i >= TRN.dcount` is 0. -/
  dbuf_past_end : ∀ i, t.dcount.toNat ≤ i → digestByte t.dbuf i = 0
  /-- 43_hotp_truncator.md R143: only a full buffer overflows. -/
  ovf_full : t.ovf = true → t.dcount.toNat = 64
  /-- 10_state.md R38 to R40. -/
  code_valid : t.codeValid = true → t.ShowsCode
  /-- 43_hotp_truncator.md R142 and R152. -/
  code_invalid : t.codeValid = false → t.ShowsNothing

/-- Every piece of the block's state is at its reset value; the level of the reset input and the host's side of the run
are no part of it (70_reset_and_hazards.md R230). -/
def State.AtReset (s : State) : Prop :=
  s = { State.reset with resetAsserted := s.resetAsserted, pending := s.pending, reads := s.reads }

/-- The machine invariant. -/
structure State.Inv (s : State) : Prop where
  enc : s.enc.Inv
  dec : s.dec.Inv
  trn : s.trn.Inv
  /-- 70_reset_and_hazards.md R230: while reset is asserted all state has its reset value. -/
  reset : s.resetAsserted = true → s.AtReset

end Sys2Proof.Machine
end

