-- ==== Sys2Proof/Certificates/Slice0/Obligations.lean ====
section
/-! DEFINITION. The statements for the provers, from the numbered rules of spec/. Every statement is about every state
unless it says otherwise; a premise that names an invariant (`Pending`, `Inv`) rules out states no run reaches, and a
statement of its own says that every step keeps it. -/

open Sys2Proof Sys2Proof.Machine

/-! ### Encoding -/

/-- Words written out from 30_encoding.md R70 and R73, and from 95_test_vectors.md, with the command each stands for,
and the illegal words of 40_host_access.md R96. -/
def Obligations.WrittenWordsDecodeToTheirCommands : Prop :=
  decode 0x00000001 = .command .encInit ∧ decode 0x0000FF02 = .command (.encPush 0xFF) ∧
  decode 0x00000003 = .command (.encFinal false) ∧ decode 0x00000103 = .command (.encFinal true) ∧
  decode 0x00000011 = .command .decInit ∧ decode 0x00003D12 = .command (.decPush 0x3D) ∧
  decode 0x00000013 = .command .decFinal ∧ decode 0x00000021 = .command .trnClear ∧
  decode 0x0000CC22 = .command (.trnPush 0xCC) ∧ decode 0x00000023 = .command .trnRun ∧
  decode 0x00000031 = .command .ctrRun ∧ decode 0x00000000 = .illegal (.unknownOpc 0) ∧
  decode 0x00010002 = .illegal .reservedBits ∧ decode 0x00000203 = .illegal .finalArg ∧
  decode 0x00000121 = .illegal (.argNotZero 0x21)

/-- Decoding a command's word gives the command back, with every operand at every value (30_encoding.md R70 to R76). -/
def Obligations.DecodeOfEncodeIsTheCommand : Prop :=
  ∀ i : Instr, decode (encode i) = .command i ∧ decodeTableWord 32 (encode i).toNat = some i

/-- A word that decodes to a command is that command's one word (30_encoding.md R75 and R76). -/
def Obligations.EncodeOfDecodedWordIsTheWord : Prop :=
  ∀ (w : Word) (i : Instr), decode w = .command i → encode i = w

/-- 30_encoding.md R73: "A word `w` is that command when `(w & mask) = match`", for its ten rows written out; no word is
in two rows; the high nibble of OPC names the unit. -/
def Obligations.CommandsAreTheRowsOfTheOpcodeMap : Prop :=
  let rows : List (String × Word × Word) :=
    [("ENC_INIT", 0x00000001, 0xFFFFFFFF), ("ENC_PUSH", 0x00000002, 0xFFFF00FF), ("ENC_FINAL", 0x00000003, 0xFFFFFEFF),
     ("DEC_INIT", 0x00000011, 0xFFFFFFFF), ("DEC_PUSH", 0x00000012, 0xFFFF00FF), ("DEC_FINAL", 0x00000013, 0xFFFFFFFF),
     ("TRN_CLEAR", 0x00000021, 0xFFFFFFFF), ("TRN_PUSH", 0x00000022, 0xFFFF00FF), ("TRN_RUN", 0x00000023, 0xFFFFFFFF),
     ("CTR_RUN", 0x00000031, 0xFFFFFFFF)]
  (∀ w : Word, ∀ row ∈ rows, w &&& row.2.2 = row.2.1 ↔ ∃ i, decode w = .command i ∧ i.mnemonic = row.1) ∧
  (∀ (w : Word) (i : Instr), decode w = .command i → i.mnemonic ∈ rows.map (·.1)) ∧
  rows.Pairwise (fun a b => ∀ w : Word, ¬(w &&& a.2.2 = a.2.1 ∧ w &&& b.2.2 = b.2.1)) ∧
  (∀ i : Instr, i.unitNibble =
    match unitOf i with
    | .encoder => 0#4
    | .decoder => 1#4
    | .truncator => 2#4
    | .counterMapper => 3#4)

/-- 30_encoding.md R75: exactly the four cases are illegal, and an illegal command sets STATUS.ERR to ILLEGAL_COMMAND
and changes nothing else. -/
def Obligations.IllegalWordsAreTheFourCases : Prop :=
  ∀ w : Word,
    let opc := w.toNat % 256
    let arg := w.toNat / 256 % 256
    let legal := w.toNat / 65536 = 0 ∧
      (opc ∈ [0x02, 0x12, 0x22] ∨ (opc = 0x03 ∧ arg ≤ 1) ∨ (opc ∈ [0x01, 0x11, 0x13, 0x21, 0x23, 0x31] ∧ arg = 0))
    ((∃ why, decode w = .illegal why) ↔ ¬legal) ∧
    (¬legal → ∀ s : State, runCommand w s = .next { s with status := .illegalCommand })

/-! ### The step and the register map -/

/-- The step answers the next input: a host access by its answer, in the state without that input, so that the write of
a legal word to CMD runs the meaning of the command, and so does a word placed for the next step (40_host_access.md R90
and R94). That the inputs are a list in State, and what `withFetchWord` does, are the model's choices (log 1 and 15). -/
def Obligations.StepRunsTheDecodedCommand : Prop :=
  (∀ (s : State) (a : Access) (rest : List HostInput), s.resetAsserted = false → s.pending = .access a :: rest →
    step s = answerAccess a { s with pending := rest }) ∧
  (∀ (s : State) (w : Word) (rest : List HostInput) (i : Instr), s.resetAsserted = false →
    s.pending = .access (.write 0x04 4 w) :: rest → decode w = .command i →
    step s = exec i { s with pending := rest }) ∧
  (∀ (s : State) (w : Word) (i : Instr), decode w = .command i →
    step (s.withFetchWord 32 w.toNat) = exec i { s with resetAsserted := false })

/-- 40_host_access.md R96: an illegal word written to CMD sets STATUS.ERR to 5 and changes nothing else; the rule's four
words are illegal; and its example: after ENC_PUSH 0x66 and the word 0xFF, STATUS is 5 and ENC_STATE is 0x13. -/
def Obligations.IllegalCommandChangesOnlyStatus : Prop :=
  (∀ (s : State) (w : Word) (why : IllegalWord), decode w = .illegal why →
    answerAccess (.write 0x04 4 w) s = .next { s with status := .illegalCommand }) ∧
  (∀ w ∈ [0x00000000#32, 0x00010002#32, 0x00000203#32, 0x00000121#32], ∃ why, decode w = .illegal why) ∧
  StatusCode.illegalCommand.number = 5 ∧
  (∃ t, takeAll [cmdWrite 0x00006602, cmdWrite 0x000000FF] State.reset = .next t ∧
    regValue .status t = some 0x00000005 ∧ regValue .encState t = some 0x00000013)

/-- 20_memory.md R51: an access is answered exactly when its four conditions hold (with the access column of
10_state.md R21 written out), and any other access is a bus error. -/
def Obligations.AccessesTheMapDoesNotAllowAreBusErrors : Prop :=
  ∀ (s : State) (off n : Nat) (v : Word),
    (if n = 4 ∧ off % 4 = 0 ∧ off < 0x58 ∧ off ≠ 0x04 then ∃ t, answerAccess (.read off n) s = .next t
      else answerAccess (.read off n) s = .fault (.busError off .read)) ∧
    (if n = 4 ∧ off % 4 = 0 ∧ off < 0x58 ∧ off ∈ [0x04, 0x0C, 0x10, 0x14, 0x18, 0x1C, 0x20]
      then ∃ t, answerAccess (.write off n v) s = .next t
      else answerAccess (.write off n v) s = .fault (.busError off .write))

/-- 40_host_access.md R91: a permitted read answers the register's value (it joins the values the host has read, log 2)
and changes nothing of the block; after reset a read of 0x0C answers 6. What each register's value is,
`RegistersShowTheirFields` and `MessageIsTheCounterBigEndian` say. -/
def Obligations.ReadAnswersTheRegisterAndChangesNothing : Prop :=
  (∀ (s : State) (r : Reg), r ≠ .cmd →
    ∃ v, regValue r s = some v ∧ answerAccess (.read r.offset 4) s = .next { s with reads := s.reads ++ [v] }) ∧
  (∃ t, answerAccess (.read 0x0C 4) State.reset = .next t ∧ t.reads = [0x00000006])

/-- 40_host_access.md R93: a write to each of the six RW registers stores the value, of CFG bits 5:0 only, and changes
nothing else, STATUS included; the example stores CFG = 0x18. -/
def Obligations.RegisterWritesStoreTheirValue : Prop :=
  (∀ (s : State) (v : Word),
    (∃ t, answerAccess (.write 0x0C 4 v) s = .next t ∧ t = { s with cfgDigits := t.cfgDigits, cfgAlg := t.cfgAlg } ∧
      regValue .cfg t = some (v &&& 0x3F) ∧ t.cfgDigits.toNat = v.toNat % 16 ∧ t.cfgAlg.toNat = v.toNat / 16 % 4) ∧
    answerAccess (.write 0x10 4 v) s = .next { s with stepSeconds := v } ∧
    answerAccess (.write 0x14 4 v) s = .next { s with epochLo := v } ∧
    answerAccess (.write 0x18 4 v) s = .next { s with epochHi := v } ∧
    answerAccess (.write 0x1C 4 v) s = .next { s with counterLo := v } ∧
    answerAccess (.write 0x20 4 v) s = .next { s with counterHi := v }) ∧
  (∃ t, answerAccess (.write 0x0C 4 0xFFFFFF18) State.reset = .next t ∧ regValue .cfg t = some 0x18)

/-- The fields of the status, option and state registers, as numbers, every bit outside a field 0 (10_state.md R24, R25,
R32, R33, R35, R36, R38 and R39), and the registers that are one field. -/
def Obligations.RegistersShowTheirFields : Prop :=
  ∀ s : State,
    regValue .id s = some 0x544F5450 ∧ regValue .cmd s = none ∧
    regValue .status s = some (BitVec.ofNat 32 s.status.number.toNat) ∧
    regValue .cfg s = some (BitVec.ofNat 32 (s.cfgDigits.toNat + 16 * s.cfgAlg.toNat)) ∧
    regValue .step s = some s.stepSeconds ∧
    regValue .epochLo s = some s.epochLo ∧ regValue .epochHi s = some s.epochHi ∧
    regValue .counterLo s = some s.counterLo ∧ regValue .counterHi s = some s.counterHi ∧
    regValue .encState s = some (BitVec.ofNat 32 (s.enc.nbits.toNat + 16 * s.enc.sym.toNat)) ∧
    regValue .encOutN s = some (BitVec.ofNat 32 s.enc.outN.toNat) ∧
    regValue .encOut0 s = some s.enc.out0 ∧ regValue .encOut1 s = some s.enc.out1 ∧
    regValue .decState s =
      some (BitVec.ofNat 32 (s.dec.nbits.toNat + 16 * s.dec.pad.toNat + 32 * s.dec.err.toNat)) ∧
    regValue .decOut s = some (BitVec.ofNat 32 (s.dec.outByte.toNat + 256 * s.dec.outValid.toNat)) ∧
    regValue .trnState s =
      some (BitVec.ofNat 32 (s.trn.dcount.toNat + 128 * s.trn.ovf.toNat + 256 * s.trn.codeValid.toNat)) ∧
    regValue .code s = some (BitVec.ofNat 32 s.trn.code.toNat) ∧
    regValue .codeStr0 s = some s.trn.str0 ∧ regValue .codeStr1 s = some s.trn.str1 ∧
    regValue .codeStr2 s = some s.trn.str2

/-- 00_scope.md R14: element `k` of a sequence is lane `k mod 4` of word `k / 4`; past the end it reads 0. It is the
convention of the encoder's output, of the code string and of the message bytes. -/
def Obligations.StreamRegisterLanesHoldTheSequence : Prop :=
  (∀ (xs : List Byte) (k : Nat),
    (streamWord xs (k / 4)).toNat / 2 ^ (8 * (k % 4)) % 256 = (xs.getD k 0).toNat) ∧
  (∀ (out : List Byte) (e : EncUnit), (e.setOut out).out0 = streamWord out 0 ∧ (e.setOut out).out1 = streamWord out 1) ∧
  (∀ (code dg : Nat) (t : TrnUnit) (k : Nat), k < 12 →
    codeLane (t.setCode code dg) k = if k < dg then BitVec.ofNat 8 (0x30 + code / 10 ^ (dg - 1 - k) % 10) else 0) ∧
  (∀ (s : State) (k : Nat), k < 8 → msgLane s k = s.counter.extractLsb' (56 - 8 * k) 8)

/-- 10_state.md R41: no register shows ENC.acc, DEC.acc or DBUF: states that differ in them only read alike. -/
def Obligations.SecretStateIsNotReadable : Prop :=
  ∀ (r : Reg) (s : State) (a d : BitVec 12) (buf : Vector Byte 64),
    regValue r { s with enc := { s.enc with acc := a }, dec := { s.dec with acc := d }, trn := { s.trn with dbuf := buf } } =
      regValue r s

/-- 10_state.md R24: STATUS shows the code of the last command, one of 0 to 5, in bits 3:0 and 0 above; every command
writes it, an illegal one too; an access that is no CMD write leaves it. -/
def Obligations.OnlyCommandsWriteStatus : Prop :=
  (∀ s : State, ∃ v, regValue .status s = some v ∧ v.toNat = s.status.number.toNat ∧ v.toNat ≤ 5) ∧
  (∀ (a : Access) (s s' : State), answerAccess a s = .next s' →
    s'.status = s.status ∨ ∃ w, a = .write 0x04 4 w) ∧
  (∀ (w : Word) (s : State), ∃ s', answerAccess (.write 0x04 4 w) s = .next s' ∧
    ∀ c : StatusCode, answerAccess (.write 0x04 4 w) { s with status := c } = .next s')

/-- 60_exceptions.md R202: every command ends in a next state with a code of its row, and every code of a row is
reported by some command of that row in some state; an illegal word reports 5. -/
def Obligations.EveryCommandEndsWithACodeOfItsRow : Prop :=
  let codes : Instr → List Nat := fun i =>
    match i with
    | .encInit | .encPush _ | .encFinal _ | .decInit | .trnClear => [0]
    | .decPush _ | .decFinal => [0, 1]
    | .trnPush _ => [0, 4]
    | .trnRun => [0, 2, 3, 4]
    | .ctrRun => [0, 3]
  (∀ (i : Instr) (s : State), ∃ t, exec i s = .next t ∧ t.status.number.toNat ∈ codes i) ∧
  (∀ i : Instr, ∀ c ∈ codes i, ∃ (j : Instr) (s t : State),
    j.opcode = i.opcode ∧ exec j s = .next t ∧ t.status.number.toNat = c) ∧
  (∀ (w : Word) (why : IllegalWord) (s : State), decode w = .illegal why →
    ∃ t, runCommand w s = .next t ∧ t.status.number.toNat = 5)

/-- 10_state.md R43, over whole accesses: a unit's state, and an RW register, changes only by a command of its unit or by
a host write of that register; no command changes CFG, STEP or EPOCH. -/
def Obligations.StateChangesOnlyByItsOwner : Prop :=
  ∀ (a : Access) (s s' : State), answerAccess a s = .next s' →
    (s'.enc ≠ s.enc → ∃ i, commandOf (.access a) = some i ∧ unitOf i = .encoder) ∧
    (s'.dec ≠ s.dec → ∃ i, commandOf (.access a) = some i ∧ unitOf i = .decoder) ∧
    (s'.trn ≠ s.trn → ∃ i, commandOf (.access a) = some i ∧ unitOf i = .truncator) ∧
    (s'.counterLo ≠ s.counterLo → commandOf (.access a) = some .ctrRun ∨ ∃ v, a = .write 0x1C 4 v) ∧
    (s'.counterHi ≠ s.counterHi → commandOf (.access a) = some .ctrRun ∨ ∃ v, a = .write 0x20 4 v) ∧
    ((s'.cfgDigits ≠ s.cfgDigits ∨ s'.cfgAlg ≠ s.cfgAlg) → ∃ v, a = .write 0x0C 4 v) ∧
    (s'.stepSeconds ≠ s.stepSeconds → ∃ v, a = .write 0x10 4 v) ∧
    (s'.epochLo ≠ s.epochLo → ∃ v, a = .write 0x14 4 v) ∧
    (s'.epochHi ≠ s.epochHi → ∃ v, a = .write 0x18 4 v) ∧
    s'.resetAsserted = s.resetAsserted ∧ s'.pending = s.pending

/-- 40_host_access.md R97: a command writes its unit's state and STATUS.ERR only; what it makes of them depends on that
state and the registers its rule names only; and two commands of different units give the same state in either order,
but for STATUS.ERR, which shows the last one. -/
def Obligations.CommandsOfDifferentUnitsDoNotInteract : Prop :=
  (∀ (i : Instr) (s s' : State), exec i s = .next s' →
    match unitOf i with
    | .encoder => s' = { s with status := s'.status, enc := s'.enc }
    | .decoder => s' = { s with status := s'.status, dec := s'.dec }
    | .truncator => s' = { s with status := s'.status, trn := s'.trn }
    | .counterMapper => s' = { s with status := s'.status, counterLo := s'.counterLo, counterHi := s'.counterHi }) ∧
  (∀ (i : Instr) (s u s' u' : State), exec i s = .next s' → exec i u = .next u' →
    match unitOf i with
    | .encoder => s.enc = u.enc → s'.enc = u'.enc ∧ s'.status = u'.status
    | .decoder => s.dec = u.dec → s'.dec = u'.dec ∧ s'.status = u'.status
    | .truncator => s.trn = u.trn → regValue .cfg s = regValue .cfg u → s'.trn = u'.trn ∧ s'.status = u'.status
    | .counterMapper => s.counter = u.counter → s.stepSeconds = u.stepSeconds → s.epoch = u.epoch →
        s'.counter = u'.counter ∧ s'.status = u'.status) ∧
  (∀ (i j : Instr) (s : State), unitOf i ≠ unitOf j →
    ∃ a b a' b', exec i s = .next a ∧ exec j a = .next b ∧ exec j s = .next a' ∧ exec i a' = .next b' ∧
      b' = { b with status := b'.status } ∧ b.status = a'.status ∧ b'.status = a.status)

/-- The block answers the inputs one at a time in the order they arrive (20_memory.md R60): as many steps as there are
inputs take them all, from any state; with none left a step changes nothing (40_host_access.md R90; log 1 and 3). -/
def Obligations.StepsTakeTheInputsInOrder : Prop :=
  (∀ (xs rest : List HostInput) (s : State),
    core.run xs.length { s with pending := xs ++ rest } = takeAll xs { s with pending := rest }) ∧
  (∀ s : State, s.pending = [] → step s = .next s)

/-- A step faults on an access that is not permitted and on nothing else, and is refused for an access during reset and
for nothing else (60_exceptions.md R200, 40_host_access.md R92 and R95, 70_reset_and_hazards.md R232; log 5). -/
def Obligations.StepsStopOnlyOnBusErrorsAndDuringReset : Prop :=
  ∀ s : State,
    (∀ f, step s = .fault f ↔ s.resetAsserted = false ∧ ∃ a rest, s.pending = .access a :: rest ∧ a.permitted = false ∧
      f = match a with
        | .read off _ => .busError off .read
        | .write off _ _ => .busError off .write) ∧
    (∀ r, step s = .refused r ↔ s.resetAsserted = true ∧ r = .accessDuringReset ∧ ∃ a rest, s.pending = .access a :: rest)

/-! ### base32_encoder -/

/-- 41_base32_encoder.md R103: ENC_INIT leaves the encoder as after reset, STATUS.ERR 0 and all else unchanged. -/
def Obligations.EncInitStartsANewEncode : Prop :=
  ∀ s : State, exec .encInit s = .next { s with status := .ok, enc := ⟨0, 0, 0, 0, 0, 0⟩ } ∧
    State.reset.enc = ⟨0, 0, 0, 0, 0, 0⟩

/-- 41_base32_encoder.md R104: with `x` the pending bits followed by the byte's, and `n` their count, ENC_PUSH shows
the `n / 5` symbols of `x` from the top, keeps the `n mod 5` bits left, counts the symbols mod 8, ends with 0 and
changes nothing else; 1 symbol when 0 or 1 bits were pending, 2 otherwise; and the rule's example. -/
def Obligations.EncPushEmitsEveryCompleteGroup : Prop :=
  (∀ (s : State) (b : Byte), s.enc.Pending →
    let x := s.enc.acc.toNat * 256 + b.toNat
    let n := s.enc.nbits.toNat + 8
    ∃ t, exec (.encPush b) s = .next t ∧ t = { s with status := .ok, enc := t.enc } ∧
      t.enc.acc.toNat = x % 2 ^ (n % 5) ∧ t.enc.nbits.toNat = n % 5 ∧
      t.enc.sym.toNat = (s.enc.sym.toNat + n / 5) % 8 ∧ t.enc.outN.toNat = n / 5 ∧
      (∀ k, k < 8 → encLane t.enc k = if k < n / 5 then Source.symbol (x / 2 ^ (n - 5 * (k + 1)) % 32) else 0) ∧
      (s.enc.nbits.toNat ≤ 1 → t.enc.outN = 1) ∧ (2 ≤ s.enc.nbits.toNat → t.enc.outN = 2)) ∧
  (∃ t, exec (.encPush 0x66) State.reset = .next t ∧ regValue .encOutN t = some 1 ∧
    regValue .encOut0 t = some 0x0000004D ∧ regValue .encState t = some 0x00000013)

/-- 41_base32_encoder.md R105: ENC_FINAL shows the symbol of the pending bits, if any, filled with zeros, then, with
`pad`, the `=` that bring the count of symbols to a multiple of 8; it clears the stream, ends with 0 and changes
nothing else. Nothing pushed, nothing shown; at most 7 characters where the symbols and pending bits are those of whole
bytes; and the rule's examples. -/
def Obligations.EncFinalFlushesAndPads : Prop :=
  (∀ (s : State) (pad : Bool), s.enc.Pending →
    let last := if s.enc.nbits.toNat = 0 then 0 else 1
    let sym := (s.enc.sym.toNat + last) % 8
    let eqs := if pad = true ∧ sym ≠ 0 then 8 - sym else 0
    ∃ t, exec (.encFinal pad) s = .next t ∧ t = { s with status := .ok, enc := t.enc } ∧
      t.enc.acc = 0 ∧ t.enc.nbits = 0 ∧ t.enc.sym = 0 ∧ t.enc.outN.toNat = last + eqs ∧
      (∀ k, k < 8 → encLane t.enc k =
        if k < last then Source.symbol (s.enc.acc.toNat * 2 ^ (5 - s.enc.nbits.toNat) % 32)
        else if k < last + eqs then Source.padChar else 0) ∧
      (s.enc.nbits = 0 → s.enc.sym = 0 → t.enc.outN = 0) ∧
      (8 ∣ 5 * s.enc.sym.toNat + s.enc.nbits.toNat → t.enc.outN.toNat ≤ 7)) ∧
  (∃ t, takeAll [cmdWrite 0x6602, cmdWrite 0x6F02, cmdWrite 0x6F02, cmdWrite 0x0103] State.reset = .next t ∧
    regValue .encOutN t = some 4 ∧ regValue .encOut0 t = some 0x3D3D3D36) ∧
  (∃ t, takeAll [cmdWrite 0x6602, cmdWrite 0x6F02, cmdWrite 0x6F02, cmdWrite 0x0003] State.reset = .next t ∧
    regValue .encOutN t = some 1 ∧ regValue .encOut0 t = some 0x00000036)

/-- 41_base32_encoder.md R106: between commands fewer than 5 bits are pending and ENC.acc holds nothing else: after
reset, and after every step from such a state; reset, ENC_INIT and ENC_FINAL set both to 0, and an illegal command or another
unit's command does not touch them. -/
def Obligations.EncoderPendingBitsStayBelowFive : Prop :=
  (∀ s s' : State, s.enc.Pending → step s = .next s' → s'.enc.Pending) ∧
  (State.reset.enc.acc = 0 ∧ State.reset.enc.nbits = 0) ∧
  (∀ s s' : State, (exec .encInit s = .next s' ∨ ∃ pad, exec (.encFinal pad) s = .next s') →
    s'.enc.acc = 0 ∧ s'.enc.nbits = 0) ∧
  (∀ (w : Word) (s s' : State), runCommand w s = .next s' → (∀ i, decode w = .command i → unitOf i ≠ .encoder) →
    s'.enc.acc = s.enc.acc ∧ s'.enc.nbits = s.enc.nbits)

/-- 41_base32_encoder.md R107: after `m` bytes of an encode (from a cleared stream, as reset, ENC_INIT and ENC_FINAL leave
it) `floor(8m / 5)` symbols have been shown and `8m mod 5` bits are pending; and the length of what ENC_FINAL then
shows, by `m mod 5`, with the totals. -/
def Obligations.EncoderCountsFollowTheByteCount : Prop :=
  ∀ (s : State) (bytes : List Byte) (pad : Bool), s.resetAsserted = false →
    s.enc.acc = 0 → s.enc.nbits = 0 → s.enc.sym = 0 →
    ∃ out t, gatherEnc (bytes.map fun b => runInput (.encPush b)) s = some (out, t) ∧
      out.length = 8 * bytes.length / 5 ∧ t.enc.sym.toNat = 8 * bytes.length / 5 % 8 ∧
      t.enc.nbits.toNat = 8 * bytes.length % 5 ∧
      ∃ u, exec (.encFinal pad) t = .next u ∧
        u.enc.outN.toNat =
          (match bytes.length % 5, pad with
          | 0, _ => 0
          | _, false => 1
          | 1, true => 7
          | 2, true => 5
          | 3, true => 4
          | _, true => 2) ∧
        out.length + u.enc.outN.toNat = if pad then 8 * ((bytes.length + 4) / 5) else (8 * bytes.length + 4) / 5

/-- 41_base32_encoder.md R108: ENC_INIT, an ENC_PUSH per byte and ENC_FINAL, with any other accesses but no other
encoder command between, show exactly the source's `encode(bytes, padding)`. -/
def Obligations.EncodeSequenceComputesTheSourceEncode : Prop :=
  ∀ (s : State) (xs : List HostInput) (bytes : List Byte) (pad : Bool), s.resetAsserted = false →
    (∀ x ∈ xs, permittedInput x = true) →
    xs.filterMap (unitCommandOf .encoder) = .encInit :: bytes.map Instr.encPush ++ [.encFinal pad] →
    ∃ t, gatherEnc xs s = some (Source.encode bytes pad, t)

/-- 41_base32_encoder.md R109: every character an encoder command shows is an alphabet symbol or `=`; a `=` is shown by
ENC_FINAL with `pad` only, after the last symbol. -/
def Obligations.EncoderShowsOnlyTheAlphabetAndTrailingPadding : Prop :=
  ∀ (i : Instr) (s : State), unitOf i = .encoder →
    ∃ t, exec i s = .next t ∧
      ∀ k, k < t.enc.outN.toNat →
        (encLane t.enc k ∈ Source.alphabet ∧ encLane t.enc k ≠ Source.padChar) ∨
        (i = .encFinal true ∧ ∀ j, k ≤ j → j < t.enc.outN.toNat → encLane t.enc j = Source.padChar)

/-! ### base32_decoder -/

/-- 42_base32_decoder.md R120: `upper` of every character code and `VAL` of every code, by ranges. -/
def Obligations.CharacterValuesFoldOnlyAsciiLetters : Prop :=
  ∀ c : Byte,
    (upperCode c).toNat = (if 0x61 ≤ c.toNat ∧ c.toNat ≤ 0x7A then c.toNat - 0x20 else c.toNat) ∧
    (symbolValue c).map (·.toNat) =
      (if 0x41 ≤ c.toNat ∧ c.toNat ≤ 0x5A then some (c.toNat - 0x41)
      else if 0x32 ≤ c.toNat ∧ c.toNat ≤ 0x37 then some (c.toNat - 0x32 + 26)
      else none)

/-- 42_base32_decoder.md R121: DEC_INIT leaves the decoder as after reset, STATUS.ERR 0 and all else unchanged. -/
def Obligations.DecInitStartsANewDecode : Prop :=
  ∀ s : State, exec .decInit s = .next { s with status := .ok, dec := ⟨0, 0, false, false, 0, false⟩ } ∧
    State.reset.dec = ⟨0, 0, false, false, 0, false⟩

/-- 42_base32_decoder.md R122: DEC_PUSH in its five cases, each with the whole next state: a sticky error; `=`; a code
outside the alphabet; a symbol after `=`; a symbol taken, which shows the top byte of the pending bits when 8 are
there; and the rule's example. -/
def Obligations.DecPushTakesOneCharacter : Prop :=
  (∀ (s : State) (c : Byte), s.dec.Pending →
    let shown := { s.dec with outByte := 0, outValid := false }
    (s.dec.err = true → exec (.decPush c) s = .next { s with status := .decodeError, dec := shown }) ∧
    (s.dec.err = false → c = Source.padChar →
      exec (.decPush c) s = .next { s with status := .ok, dec := { shown with pad := true } }) ∧
    (s.dec.err = false → c ≠ Source.padChar → (Source.charValue c = none ∨ s.dec.pad = true) →
      exec (.decPush c) s =
        .next { s with status := .decodeError, dec := { shown with err := true, acc := 0, nbits := 0 } }) ∧
    (∀ v, s.dec.err = false → Source.charValue c = some v → s.dec.pad = false →
      let x := s.dec.acc.toNat * 32 + v
      let n := s.dec.nbits.toNat + 5
      exec (.decPush c) s =
        .next { s with
          status := .ok
          dec := if 8 ≤ n then
              { s.dec with
                acc := BitVec.ofNat 12 (x % 2 ^ (n - 8)), nbits := BitVec.ofNat 4 (n - 8)
                outByte := BitVec.ofNat 8 (x / 2 ^ (n - 8)), outValid := true }
            else { shown with acc := BitVec.ofNat 12 x, nbits := BitVec.ofNat 4 n } })) ∧
  (∃ t u, exec (.decPush 0x4D) State.reset = .next t ∧ exec (.decPush 0x5A) t = .next u ∧
    regValue .decOut t = some 0 ∧ regValue .decState t = some 0x05 ∧
    regValue .decOut u = some 0x00000166 ∧ regValue .decState u = some 0x02)

/-- 42_base32_decoder.md R123: DEC_FINAL reports DECODE_ERROR exactly when DEC.err was set, clears the decoder and
changes nothing else. -/
def Obligations.DecFinalReportsTheVerdict : Prop :=
  ∀ s : State,
    exec .decFinal s =
      .next { s with
        status := if s.dec.err = true then .decodeError else .ok
        dec := ⟨0, 0, false, false, 0, false⟩ }

/-- 42_base32_decoder.md R126: between commands fewer than 8 bits are pending and DEC.acc holds nothing else: after
reset, and after every step from such a state; reset, DEC_INIT and DEC_FINAL set both to 0, and so does a failing DEC_PUSH: it
clears them, and one that fails on a sticky error finds them cleared (the premise is part of the machine invariant). -/
def Obligations.DecoderPendingBitsStayBelowEight : Prop :=
  (∀ s s' : State, s.dec.Pending → step s = .next s' → s'.dec.Pending) ∧
  (State.reset.dec.acc = 0 ∧ State.reset.dec.nbits = 0) ∧
  (∀ s s' : State, (exec .decInit s = .next s' ∨ exec .decFinal s = .next s' ∨
      ∃ c, exec (.decPush c) s = .next s' ∧ s'.status = .decodeError ∧
        (s.dec.err = true → s.dec.acc = 0 ∧ s.dec.nbits = 0)) →
    s'.dec.acc = 0 ∧ s'.dec.nbits = 0)

/-- 42_base32_decoder.md R128: once a decode has failed it stays failed over any accesses that hold no DEC_INIT and no
DEC_FINAL: every DEC_PUSH fails again with no other effect than DEC_OUT <- 0, and DEC_FINAL reports DECODE_ERROR. -/
def Obligations.DecodeErrorIsStickyUntilInitOrFinal : Prop :=
  ∀ (s : State) (xs : List HostInput), s.resetAsserted = false → s.dec.err = true →
    (∀ x ∈ xs, permittedInput x = true ∧ commandOf x ≠ some .decInit ∧ commandOf x ≠ some .decFinal) →
    ∃ t, takeAll xs s = .next t ∧
      t.dec = { s.dec with outByte := t.dec.outByte, outValid := t.dec.outValid } ∧
      (∀ c, exec (.decPush c) t = .next { t with status := .decodeError, dec := { t.dec with outByte := 0, outValid := false } }) ∧
      ∃ u, exec .decFinal t = .next u ∧ u.status = .decodeError

/-- 42_base32_decoder.md R129: DEC_INIT, a DEC_PUSH per character and DEC_FINAL, with any other accesses but no other
decoder command between, end with DECODE_ERROR exactly when some character of the text without its trailing `=` run is
outside the alphabet; otherwise with OK and the bytes of the source's `decode`, `floor(5 * length / 8)` of them. -/
def Obligations.DecodeSequenceComputesTheSourceDecode : Prop :=
  ∀ (s : State) (xs : List HostInput) (text : List Byte), s.resetAsserted = false →
    (∀ x ∈ xs, permittedInput x = true) →
    xs.filterMap (unitCommandOf .decoder) = .decInit :: text.map Instr.decPush →
    ∃ out t, gatherDec (xs ++ [runInput .decFinal]) s = some (out, t) ∧
      (t.status = .decodeError ↔ ∃ c ∈ Source.stripPadding text, Source.charValue c = none) ∧
      (t.status ≠ .decodeError → t.status = .ok ∧ Source.decode text = some out ∧
        out.length = 5 * (Source.stripPadding text).length / 8)

/-- 42_base32_decoder.md R131: decoding what an encode showed, as it is or in lower case, gives the bytes back with
STATUS.ERR 0, for every byte sequence and either padding choice. -/
def Obligations.DecodingTheEncodersOutputGivesTheBytesBack : Prop :=
  ∀ (s : State) (bytes : List Byte) (pad toLower : Bool), s.resetAsserted = false →
    ∃ text t,
      gatherEnc (runInput .encInit :: (bytes.map fun b => runInput (.encPush b)) ++ [runInput (.encFinal pad)]) s =
        some (text, t) ∧
      ∃ u, gatherDec (runInput .decInit ::
          ((if toLower then text.map Source.lower else text).map fun c => runInput (.decPush c)) ++ [runInput .decFinal]) t =
        some (bytes, u) ∧ u.status = .ok

/-! ### hotp_truncator -/

/-- 43_hotp_truncator.md R142: TRN_CLEAR leaves the truncator as after reset (all 64 bytes of DBUF 0), STATUS.ERR 0
and all else unchanged. -/
def Obligations.TrnClearWipesTheTruncator : Prop :=
  ∀ s : State, exec .trnClear s = .next { s with status := .ok, trn := TrnUnit.reset } ∧
    (∀ i, digestByte TrnUnit.reset.dbuf i = 0) ∧
    TrnUnit.reset = { TrnUnit.reset with
      dcount := 0, ovf := false, codeValid := false, code := 0, str0 := 0, str1 := 0, str2 := 0 }

/-- 43_hotp_truncator.md R143: TRN_PUSH below 64 bytes stores the byte at the count and counts it; at 64 it drops the
byte, sets OVF and reports DIGEST_LENGTH; nothing else changes, the code included; and the rule's example. -/
def Obligations.TrnPushAppendsOneDigestByte : Prop :=
  (∀ (s : State) (d : Byte),
    (s.trn.dcount.toNat < 64 →
      ∃ t, exec (.trnPush d) s = .next t ∧
        t = { s with status := .ok, trn := { s.trn with dbuf := t.trn.dbuf, dcount := t.trn.dcount } } ∧
        t.trn.dcount.toNat = s.trn.dcount.toNat + 1 ∧
        ∀ i, digestByte t.trn.dbuf i = if i = s.trn.dcount.toNat then d else digestByte s.trn.dbuf i) ∧
    (64 ≤ s.trn.dcount.toNat →
      exec (.trnPush d) s = .next { s with status := .digestLength, trn := { s.trn with ovf := true } })) ∧
  (∃ t, exec (.trnPush 0xCC) State.reset = .next t ∧ digestByte t.trn.dbuf 0 = 0xCC ∧
    regValue .trnState t = some 0x01 ∧ regValue .status t = some 0)

/-- 43_hotp_truncator.md R145, R147, R148 and R149: with the options in range and one digest of the algorithm's length
buffered, TRN_RUN takes the offset from the last byte's low 4 bits, `p` from the four bytes there, and shows
`p mod 10^digits` in CODE and, digit by digit, in CODE_STR. -/
def Obligations.TrnRunTruncatesAndReduces : Prop :=
  ∀ (s : State) (len : Nat),
    (s.cfgAlg.toNat, len) ∈ [(0, 20), (1, 32), (2, 64)] → 6 ≤ s.cfgDigits.toNat → s.cfgDigits.toNat ≤ 9 →
    s.trn.ovf = false → s.trn.dcount.toNat = len →
    let o := (digestByte s.trn.dbuf (len - 1)).toNat % 16
    let p := (digestByte s.trn.dbuf o).toNat % 128 * 2 ^ 24 + (digestByte s.trn.dbuf (o + 1)).toNat * 2 ^ 16 +
      (digestByte s.trn.dbuf (o + 2)).toNat * 2 ^ 8 + (digestByte s.trn.dbuf (o + 3)).toNat
    let dg := s.cfgDigits.toNat
    o ≤ 15 ∧ p ≤ 2147483647 ∧ ∃ t, exec .trnRun s = .next t ∧ t = { s with status := .ok, trn := t.trn } ∧
      t.trn.code.toNat = p % 10 ^ dg ∧
      (∀ k, k < 12 → (codeLane t.trn k).toNat =
        if k < dg then 0x30 + p % 10 ^ dg / 10 ^ (dg - 1 - k) % 10 else 0) ∧
      t.trn.codeValid = true ∧ t.trn.ovf = false ∧ t.trn.dcount = 0 ∧ ∀ i, digestByte t.trn.dbuf i = 0

/-- 43_hotp_truncator.md R146 and R152: the option checks of TRN_RUN in their order, and a failed TRN_RUN, which leaves
the truncator as after reset: no code, no CODE_VALID, no digest. -/
def Obligations.TrnRunReportsTheFirstCause : Prop :=
  ∀ s : State,
    let fails := fun code => exec .trnRun s = .next { s with status := code, trn := TrnUnit.reset }
    let digitsOk := 6 ≤ s.cfgDigits.toNat ∧ s.cfgDigits.toNat ≤ 9
    let oneDigest := s.trn.ovf = false ∧ (s.cfgAlg.toNat, s.trn.dcount.toNat) ∈ [(0, 20), (1, 32), (2, 64)]
    (s.cfgAlg = 3 → fails .unsupportedAlgorithm) ∧
    (s.cfgAlg ≠ 3 → ¬digitsOk → fails .invalidOptions) ∧
    (s.cfgAlg ≠ 3 → digitsOk → ¬oneDigest → fails .digestLength)

/-- 43_hotp_truncator.md R151: every TRN_RUN, failed or not, empties the digest buffer, and one more with no push
between, the options being valid, fails with DIGEST_LENGTH. -/
def Obligations.TrnRunConsumesTheDigest : Prop :=
  ∀ s : State, ∃ t, exec .trnRun s = .next t ∧ t.trn.dcount = 0 ∧ t.trn.ovf = false ∧
    (∀ i, digestByte t.trn.dbuf i = 0) ∧
    (s.cfgAlg ≠ 3 → 6 ≤ s.cfgDigits.toNat → s.cfgDigits.toNat ≤ 9 →
      ∃ u, exec .trnRun t = .next u ∧ u.status = .digestLength ∧ u.trn.codeValid = false)

/-- 43_hotp_truncator.md R150: CFG written, then TRN_CLEAR, a TRN_PUSH per digest byte and TRN_RUN, with any other
accesses but no other truncator command and no other write of CFG between, end with STATUS.ERR 0, CODE_VALID, CODE
`p mod 10^digits` and CODE_STR the source's GeneratedCode. -/
def Obligations.DigestSequenceComputesTheSourceCode : Prop :=
  ∀ (s : State) (xs : List HostInput) (digest : List Byte) (digits alg : Nat), s.resetAsserted = false →
    6 ≤ digits → digits ≤ 9 → (alg, digest.length) ∈ [(0, 20), (1, 32), (2, 64)] →
    (∀ x ∈ xs, permittedInput x = true ∧ writesCfg x = false) →
    xs.filterMap (unitCommandOf .truncator) = .trnClear :: digest.map Instr.trnPush →
    ∃ t, takeAll (writeInput .cfg (BitVec.ofNat 32 (alg * 16 + digits)) :: xs ++ [runInput .trnRun]) s = .next t ∧
      t.status = .ok ∧ t.trn.codeValid = true ∧
      t.trn.code.toNat = Source.truncate digest % 10 ^ digits ∧
      ∀ k, k < 12 → codeLane t.trn k = (Source.generatedCode digest digits).getD k 0

/-- 43_hotp_truncator.md R153: the window lies inside the digest before its last byte, so what is past the digest in the
buffer has no effect. -/
def Obligations.TruncationWindowLiesInsideTheDigest : Prop :=
  ∀ (alg : BitVec 2) (len : Nat), algDigestLength alg = some len →
    (∀ buf : Vector Byte 64, (truncOffset buf len).toNat + 3 < len - 1) ∧
    (∀ (buf buf' : Vector Byte 64) (digits : Nat), (∀ i, i < len → digestByte buf i = digestByte buf' i) →
      hotpCode buf len digits = hotpCode buf' len digits)

/-- 43_hotp_truncator.md R154: a code TRN_RUN shows is below `10^digits <= 10^9 < 2^30`; with 9 digits every code from 0
to 999999999 occurs; other digit counts than 6 to 9 are rejected with INVALID_OPTIONS (for a supported algorithm). -/
def Obligations.CodesFillTheirRange : Prop :=
  (∀ s t : State, exec .trnRun s = .next t → t.trn.codeValid = true →
    t.trn.code.toNat < 10 ^ s.cfgDigits.toNat ∧ 10 ^ s.cfgDigits.toNat ≤ 10 ^ 9) ∧
  (∀ c : Nat, c < 10 ^ 9 → ∃ s t : State, s.cfgDigits = 9 ∧ exec .trnRun s = .next t ∧ t.status = .ok ∧
    t.trn.code.toNat = c) ∧
  (∀ s : State, s.cfgAlg ≠ 3 → (s.cfgDigits.toNat < 6 ∨ 9 < s.cfgDigits.toNat) →
    ∃ t, exec .trnRun s = .next t ∧ t.status = .invalidOptions)

/-! ### totp_counter_mapper -/

/-- 44_totp_counter_mapper.md R171 and R172: with a step above 0 COUNTER becomes `floor(EPOCH / STEP)`, both halves at
once, STATUS.ERR 0; a step of 0 reports INVALID_OPTIONS and leaves COUNTER; nothing else changes. -/
def Obligations.CtrRunDividesTheEpoch : Prop :=
  ∀ s : State,
    (s.stepSeconds ≠ 0 →
      ∃ t, exec .ctrRun s = .next t ∧
        t = { s with status := .ok, counterLo := t.counterLo, counterHi := t.counterHi } ∧
        t.counterHi.toNat * 2 ^ 32 + t.counterLo.toNat =
          (s.epochHi.toNat * 2 ^ 32 + s.epochLo.toNat) / s.stepSeconds.toNat) ∧
    (s.stepSeconds = 0 → exec .ctrRun s = .next { s with status := .invalidOptions })

/-- 44_totp_counter_mapper.md R175: message byte `k` is `COUNTER[63 - 8k : 56 - 8k]`, in lane `k` of MSG0 and MSG1, for
every state, so MSG0 is COUNTER_HI and MSG1 COUNTER_LO with their bytes swapped; and the rule's example. -/
def Obligations.MessageIsTheCounterBigEndian : Prop :=
  (∀ (s : State) (k : Nat), k < 8 →
    (msgLane s k).toNat = (s.counterHi.toNat * 2 ^ 32 + s.counterLo.toNat) / 2 ^ (56 - 8 * k) % 256 ∧
    msgLane s k = if k < 4 then laneOf s.counterHi (3 - k) else laneOf s.counterLo (7 - k)) ∧
  (regValue .msg0 { State.reset with counterLo := 1 } = some 0x00000000 ∧
    regValue .msg1 { State.reset with counterLo := 1 } = some 0x01000000)

/-- 44_totp_counter_mapper.md R177: EPOCH and STEP written and CTR_RUN run, COUNTER is the source's
`deriveCounter(epochSeconds, stepSeconds)`, STATUS.ERR is 0, and MSG0 and MSG1 hold its 8-byte message. -/
def Obligations.CounterSequenceComputesTheSourceCounter : Prop :=
  ∀ (s : State) (epoch stepSize : Nat), s.resetAsserted = false → epoch < 2 ^ 64 → 1 ≤ stepSize → stepSize < 2 ^ 32 →
    ∃ t, takeAll [writeInput .epochLo (BitVec.ofNat 32 epoch), writeInput .epochHi (BitVec.ofNat 32 (epoch / 2 ^ 32)),
        writeInput .step (BitVec.ofNat 32 stepSize), runInput .ctrRun] s = .next t ∧
      t.counter.toNat = Source.deriveCounter epoch stepSize ∧ t.status = .ok ∧
      (List.range 8).map (msgLane t) = Source.message (Source.deriveCounter epoch stepSize)

/-! ### Reset, invariants and secrets -/

/-- The reset column of 10_state.md R21 and the internal state at 0 (70_reset_and_hazards.md R230), of the model's initial
state, read register by register at the offsets of the map. -/
def Obligations.InitialStateHasTheResetColumn : Prop :=
  (∀ p ∈ ([(0x00, 0x544F5450), (0x08, 0), (0x0C, 0x00000006), (0x10, 0x0000001E), (0x14, 0), (0x18, 0), (0x1C, 0), (0x20, 0),
      (0x24, 0), (0x28, 0), (0x2C, 0), (0x30, 0), (0x34, 0), (0x38, 0), (0x3C, 0), (0x40, 0), (0x44, 0), (0x48, 0), (0x4C, 0),
      (0x50, 0), (0x54, 0)] : List (Nat × Word)),
    ∃ t, answerAccess (.read p.1 4) State.reset = .next t ∧ t.reads = [p.2]) ∧
  State.reset.enc.acc = 0 ∧ State.reset.dec.acc = 0 ∧ ∀ i, digestByte State.reset.trn.dbuf i = 0

/-- Asserting the reset input, and releasing it, brings every piece of the block's state to its reset value, from any
state, and leaves the host's side of the run; a level that was and stays not asserted changes nothing. That reset is an
input of the step is the model's reading of 70_reset_and_hazards.md section 1 (log 4). -/
def Obligations.ResetInputRestoresTheResetState : Prop :=
  ∀ (s : State) (rest : List HostInput) (asserted : Bool), s.pending = .resetLine asserted :: rest →
    (asserted = true ∨ s.resetAsserted = true →
      step s = .next { State.reset with resetAsserted := asserted, pending := rest, reads := s.reads }) ∧
    (asserted = false → s.resetAsserted = false → step s = .next { s with pending := rest })

/-- 70_reset_and_hazards.md R233: the three INIT and CLEAR commands and the writes of CFG, STEP, EPOCH and COUNTER, in
any order, bring every piece of the block's state to its reset value, from any state with reset not asserted. -/
def Obligations.InitCommandsAndWritesRestoreTheResetState : Prop :=
  ∀ (s : State) (xs : List HostInput), s.resetAsserted = false →
    xs.Perm [runInput .encInit, runInput .decInit, runInput .trnClear, writeInput .cfg 6, writeInput .step 30,
      writeInput .epochLo 0, writeInput .epochHi 0, writeInput .counterLo 0, writeInput .counterHi 0] →
    takeAll xs s = .next { State.reset with pending := s.pending, reads := s.reads }

/-- The machine invariant of Safety.lean (10_state.md R33, R36 to R40, 41_base32_encoder.md R106, R107 and R109,
42_base32_decoder.md R126, 70_reset_and_hazards.md R230) is kept by every step. -/
def Obligations.EveryStepKeepsTheMachineInvariant : Prop :=
  ∀ s s' : State, s.Inv → step s = .next s' → s'.Inv

/-- The machine invariant of Safety.lean holds after reset. -/
def Obligations.ResetStateMeetsTheMachineInvariant : Prop := State.reset.Inv

/-- 70_reset_and_hazards.md R246: ENC_FINAL, DEC_FINAL, ENC_INIT, DEC_INIT and a failing DEC_PUSH wipe the accumulator
they own, TRN_RUN and TRN_CLEAR the digest buffer; and after ENC_INIT and TRN_CLEAR nothing is left of what the encoder
and the truncator held: two states that differed only there are equal. -/
def Obligations.SecretsAreWiped : Prop :=
  (∀ (i : Instr) (s t : State), exec i s = .next t →
    (i ∈ [.encInit, .encFinal false, .encFinal true] → t.enc.acc = 0) ∧
    (i ∈ [.decInit, .decFinal] → t.dec.acc = 0) ∧
    (∀ c, i = .decPush c → s.dec.err = false → t.status = .decodeError → t.dec.acc = 0) ∧
    (i ∈ [.trnRun, .trnClear] → ∀ k, digestByte t.trn.dbuf k = 0)) ∧
  (∀ (s : State) (e : EncUnit) (d : TrnUnit), s.resetAsserted = false →
    takeAll [runInput .encInit, runInput .trnClear] { s with enc := e, trn := d } =
      takeAll [runInput .encInit, runInput .trnClear] s)

/-- The readable counts carry no data bit (60_exceptions.md R218): ENC_STATE, DEC_STATE and TRN_STATE after a push do not
depend on the byte pushed, on the accumulator or on the buffer, but on what they read before only; DEC_STATE depends
also on the kind of the character pushed (`=`, a symbol of the alphabet, or any other code), not on which of its kind it
is. -/
def Obligations.ReadableCountsDoNotDependOnData : Prop :=
  ∀ (s u s' u' : State) (b b' : Byte),
    (s.enc.nbits = u.enc.nbits → s.enc.sym = u.enc.sym → exec (.encPush b) s = .next s' → exec (.encPush b') u = .next u' →
      regValue .encState s' = regValue .encState u' ∧ regValue .encOutN s' = regValue .encOutN u') ∧
    (regValue .decState s = regValue .decState u → (b = Source.padChar ↔ b' = Source.padChar) →
      (Source.charValue b = none ↔ Source.charValue b' = none) →
      exec (.decPush b) s = .next s' → exec (.decPush b') u = .next u' →
      regValue .decState s' = regValue .decState u') ∧
    (regValue .trnState s = regValue .trnState u → exec (.trnPush b) s = .next s' → exec (.trnPush b') u = .next u' →
      regValue .trnState s' = regValue .trnState u')

/-! ### The assembler -/

/-- 30_encoding.md R77 and R78: what each statement and pseudo-instruction is encoded as, and the assembly errors. -/
def Obligations.StatementsAssembleToTheirAccesses : Prop :=
  (∀ x : Nat, x ≤ 255 →
    assemble (.cmd .encPush (.num x)) = some [.write 0x04 4 (BitVec.ofNat 32 ((x <<< 8) ||| 0x02))] ∧
    assemble (.cmd .decPush (.num x)) = some [.write 0x04 4 (BitVec.ofNat 32 ((x <<< 8) ||| 0x12))] ∧
    assemble (.cmd .trnPush (.num x)) = some [.write 0x04 4 (BitVec.ofNat 32 ((x <<< 8) ||| 0x22))]) ∧
  (∀ x : Nat, 255 < x →
    assemble (.cmd .encPush (.num x)) = none ∧ assemble (.cmd .decPush (.num x)) = none ∧
    assemble (.cmd .trnPush (.num x)) = none) ∧
  assemble (.cmd .encFinal .pad) = some [.write 0x04 4 0x00000103] ∧
  assemble (.cmd .encFinal .nopad) = some [.write 0x04 4 0x00000003] ∧
  (∀ m : Mnemonic, m ≠ .encFinal → assemble (.cmd m .pad) = none ∧ assemble (.cmd m .nopad) = none) ∧
  assemble (.cmd .encInit .none) = some [.write 0x04 4 0x00000001] ∧
  assemble (.cmd .decInit .none) = some [.write 0x04 4 0x00000011] ∧
  assemble (.cmd .decFinal .none) = some [.write 0x04 4 0x00000013] ∧
  assemble (.cmd .trnClear .none) = some [.write 0x04 4 0x00000021] ∧
  assemble (.cmd .trnRun .none) = some [.write 0x04 4 0x00000023] ∧
  assemble (.cmd .ctrRun .none) = some [.write 0x04 4 0x00000031] ∧
  (∀ (r : Reg) (v : Nat), v < 2 ^ 32 → assemble (.wr r v) = some [.write r.offset 4 (BitVec.ofNat 32 v)]) ∧
  (∀ r : Reg, assemble (.rd r) = some [.read r.offset 4]) ∧
  (∀ v : Nat, v < 2 ^ 64 →
    assemble (.wr64 .epoch v) =
      some [.write 0x14 4 (BitVec.ofNat 32 v), .write 0x18 4 (BitVec.ofNat 32 (v / 2 ^ 32))] ∧
    assemble (.wr64 .counter v) =
      some [.write 0x1C 4 (BitVec.ofNat 32 v), .write 0x20 4 (BitVec.ofNat 32 (v / 2 ^ 32))]) ∧
  (∀ d a : Nat, d ≤ 15 → a ≤ 3 → assemble (.cfg d a) = some [.write 0x0C 4 (BitVec.ofNat 32 (a * 16 + d))]) ∧
  (∀ xs : List Byte,
    assemble (.encBytes (xs.map (·.toNat))) = some (xs.flatMap fun x =>
      [.write 0x04 4 (encode (.encPush x)), .read 0x30 4, .read 0x34 4, .read 0x38 4]) ∧
    assemble (.decChars (xs.map (·.toNat))) = some (xs.flatMap fun x =>
      [.write 0x04 4 (encode (.decPush x)), .read 0x40 4]) ∧
    assemble (.trnDigest (xs.map (·.toNat))) = some (xs.map fun x => .write 0x04 4 (encode (.trnPush x))))
end

