-- ==== Sys2Proof/Laws/Words.lean ====
section
/-! SUPPORT. Concatenations, lanes and stream registers as numbers (00_scope.md R9 and R14). -/

namespace Sys2Proof.Laws

open Sys2Proof.Machine

theorem append_toNat {m n : Nat} (x : BitVec m) (y : BitVec n) : (x ++ y).toNat = x.toNat * 2 ^ n + y.toNat := by
  rw [BitVec.toNat_append, ← Nat.shiftLeft_add_eq_or_of_lt y.isLt, Nat.shiftLeft_eq]

theorem ofBool_toNat (b : Bool) : (BitVec.ofBool b).toNat = b.toNat := by cases b <;> rfl

theorem extract_toNat {m : Nat} (x : BitVec m) (lo len : Nat) :
    (x.extractLsb' lo len).toNat = x.toNat / 2 ^ lo % 2 ^ len := by
  rw [BitVec.extractLsb'_toNat, Nat.shiftRight_eq_div_pow]

theorem and_mask (x n : Nat) : x &&& ((1 <<< n) - 1) = x % 2 ^ n := by
  rw [Nat.one_shiftLeft, Nat.and_two_pow_sub_one_eq_mod]

theorem shift_or {x n y : Nat} (h : y < 2 ^ n) : (x <<< n) ||| y = x * 2 ^ n + y := by
  rw [← Nat.shiftLeft_add_eq_or_of_lt h, Nat.shiftLeft_eq]

theorem packLanes_toNat (l0 l1 l2 l3 : Byte) :
    (packLanes l0 l1 l2 l3).toNat = l0.toNat + 256 * l1.toNat + 65536 * l2.toNat + 16777216 * l3.toNat := by
  simp only [packLanes, append_toNat]
  omega

theorem laneOf_toNat (w : Word) (j : Nat) : (laneOf w j).toNat = w.toNat / 2 ^ (8 * j) % 256 := extract_toNat w (8 * j) 8

theorem laneOf_packLanes (l0 l1 l2 l3 : Byte) (j : Nat) (h : j < 4) :
    laneOf (packLanes l0 l1 l2 l3) j = [l0, l1, l2, l3].getD j 0 := by
  apply BitVec.eq_of_toNat_eq
  rw [laneOf_toNat, packLanes_toNat]
  match j, h with
  | 0, _ => simp; omega
  | 1, _ => simp; omega
  | 2, _ => simp; omega
  | 3, _ => simp; omega

/-- A word is its four lanes. -/
theorem packLanes_laneOf (w : Word) : packLanes (laneOf w 0) (laneOf w 1) (laneOf w 2) (laneOf w 3) = w := by
  apply BitVec.eq_of_toNat_eq
  simp only [packLanes_toNat, laneOf_toNat]
  omega

/-- Two words with equal lanes are equal. -/
theorem word_ext_lanes {v w : Word} (h : ∀ j, j < 4 → laneOf v j = laneOf w j) : v = w := by
  rw [← packLanes_laneOf v, ← packLanes_laneOf w, h 0 (by omega), h 1 (by omega), h 2 (by omega), h 3 (by omega)]

/-- Lane `j` of word `i` of a stream register is element `4 i + j` of the sequence (00_scope.md R14). -/
theorem laneOf_streamWord (xs : List Byte) (i j : Nat) (h : j < 4) :
    laneOf (streamWord xs i) j = xs.getD (4 * i + j) 0 := by
  rw [streamWord, laneOf_packLanes _ _ _ _ _ h]
  match j, h with
  | 0, _ => rfl
  | 1, _ => rfl
  | 2, _ => rfl
  | 3, _ => rfl

theorem streamWord_nil (i : Nat) : streamWord [] i = 0 :=
  word_ext_lanes fun j h => by
    rw [laneOf_streamWord _ _ _ h]
    apply BitVec.eq_of_toNat_eq
    simp [laneOf_toNat]

/-- Lane `k` of the encoder's output registers after `setOut` (41_base32_encoder.md R101). -/
theorem encLane_setOut (out : List Byte) (e : EncUnit) (k : Nat) (h : k < 8) :
    encLane (e.setOut out) k = out.getD k 0 := by
  unfold encLane EncUnit.setOut
  split
  · rw [laneOf_streamWord _ _ _ (by omega)]; congr 1; omega
  · rw [laneOf_streamWord _ _ _ (by omega)]; congr 1; omega

theorem encLane_clearStream (e : EncUnit) (k : Nat) : encLane e.clearStream k = encLane e k := rfl

/-- Lane `k` of the code's registers after a code is shown (43_hotp_truncator.md R149). -/
theorem codeLane_setCode (code dg : Nat) (t : TrnUnit) (k : Nat) (h : k < 12) :
    codeLane (t.setCode code dg) k = (codeChars code dg).getD k 0 := by
  unfold codeLane TrnUnit.setCode
  split
  · rw [laneOf_streamWord _ _ _ (by omega)]; congr 1; omega
  · split
    · rw [laneOf_streamWord _ _ _ (by omega)]; congr 1; omega
    · rw [laneOf_streamWord _ _ _ (by omega)]; congr 1; omega

theorem codeLane_clearDigest (t : TrnUnit) (k : Nat) : codeLane t.clearDigest k = codeLane t k := rfl

end Sys2Proof.Laws
end

