-- ==== Sys2Proof/Laws/Groups.lean ====
section
/-! SUPPORT. The symbols and bytes the base32 units compute, in closed form (41_base32_encoder.md R100 to R105,
42_base32_decoder.md R120 and R122). -/

namespace Sys2Proof.Laws

open Sys2Proof.Machine

theorem symbolCode_eq_alphabet (i : Nat) (h : i < 32) : symbolCode (BitVec.ofNat 5 i) = Source.symbol i := by
  have : ∀ i : Fin 32, symbolCode (BitVec.ofNat 5 i.val) = Source.symbol i.val := by decide
  exact this ⟨i, h⟩

theorem symbolCode_mem_alphabet : ∀ i : BitVec 5, symbolCode i ∈ Source.alphabet ∧ symbolCode i ≠ Source.padChar := by decide

theorem padCode_eq_padChar : padCode = Source.padChar := by decide

theorem upperCode_eq_upper (c : Byte) : upperCode c = Source.upper c := by
  have : ∀ c : Byte, upperCode c = Source.upper c := by decide
  exact this c

/-- The decoder's value of a character is its index in the alphabet, after case normalisation. -/
theorem symbolValue_eq_charValue (c : Byte) :
    symbolValue (upperCode c) = (Source.charValue c).map (BitVec.ofNat 5) := by
  have : ∀ c : Byte, symbolValue (upperCode c) = (Source.charValue c).map (BitVec.ofNat 5) := by decide
  exact this c

theorem charValue_lt {c : Byte} {v : Nat} (h : Source.charValue c = some v) : v < 32 := by
  have : ∀ c : Byte, ∀ v ∈ Source.charValue c, v < 32 := by decide
  exact this c v h

theorem charValue_padChar : Source.charValue Source.padChar = none := by decide

theorem upperCode_eq_padCode_iff (c : Byte) : upperCode c = padCode ↔ c = Source.padChar := by
  have : ∀ c : Byte, upperCode c = padCode ↔ c = Source.padChar := by decide
  exact this c

theorem charValue_symbol (i : Nat) (h : i < 32) : Source.charValue (Source.symbol i) = some i := by
  have : ∀ i : Fin 32, Source.charValue (Source.symbol i.val) = some i.val := by decide
  exact this ⟨i, h⟩

theorem charValue_lower (c : Byte) : Source.charValue (Source.lower c) = Source.charValue c := by
  have : ∀ c : Byte, Source.charValue (Source.lower c) = Source.charValue c := by decide
  exact this c

theorem lower_eq_padChar_iff (c : Byte) : Source.lower c = Source.padChar ↔ c = Source.padChar := by
  have : ∀ c : Byte, Source.lower c = Source.padChar ↔ c = Source.padChar := by decide
  exact this c

/-- The loop of ENC_PUSH: `n / 5` symbols from the top of the pending bits, the low `n mod 5` bits left
(41_base32_encoder.md R104). -/
theorem drainSymbols_eq : ∀ (fuel acc n : Nat), n ≤ fuel → acc < 2 ^ n →
    drainSymbols fuel acc n =
      ((List.range (n / 5)).map fun k => Source.symbol (acc / 2 ^ (n - 5 * (k + 1)) % 32), acc % 2 ^ (n % 5), n % 5) := by
  intro fuel
  induction fuel with
  | zero =>
    intro acc n h h2
    obtain rfl : n = 0 := by omega
    simp [drainSymbols, Nat.mod_one] at *
    omega
  | succ f ih =>
    intro acc n h h2
    unfold drainSymbols
    split
    · have h5 : n / 5 = 0 := by omega
      have h6 : n % 5 = n := by omega
      simp [h5, h6, Nat.mod_eq_of_lt h2]
    · obtain ⟨m, rfl⟩ : ∃ m, n = m + 5 := ⟨n - 5, by omega⟩
      have e1 : (m + 5) / 5 = m / 5 + 1 := by omega
      have e2 : (m + 5) % 5 = m % 5 := by omega
      have hd : 2 ^ (m % 5) ∣ 2 ^ m := pow_dvd_pow 2 (Nat.mod_le m 5)
      have htop : acc >>> m &&& 0x1F = acc / 2 ^ m % 32 := by
        rw [Nat.shiftRight_eq_div_pow]
        exact Nat.and_two_pow_sub_one_eq_mod _ 5
      simp only [Nat.add_sub_cancel, e1, e2]
      rw [and_mask, ih _ _ (by omega) (Nat.mod_lt _ (by positivity)), htop,
        symbolCode_eq_alphabet _ (Nat.mod_lt _ (by omega)), Nat.mod_mod_of_dvd _ hd, List.range_succ_eq_map]
      refine Prod.ext ?_ rfl
      simp only [List.map_cons, List.map_map]
      congr 1
      · apply List.map_congr_left
        intro k hk
        have hk := List.mem_range.mp hk
        simp only [Function.comp]
        obtain ⟨j, rfl⟩ : ∃ j, m = j + 5 * (k + 1) := ⟨m - 5 * (k + 1), by omega⟩
        have e3 : j + 5 * (k + 1) - 5 * (k + 1) = j := by omega
        have e4 : j + 5 * (k + 1) + 5 - 5 * (k.succ + 1) = j := by omega
        rw [e3, e4, pow_add, Nat.mod_mul_right_div_self, Nat.mod_mod_of_dvd]
        exact pow_dvd_pow 2 (show 5 ≤ 5 * (k + 1) by omega)

/-- The symbols of the loop are alphabet symbols, whatever the accumulator (41_base32_encoder.md R109). -/
theorem drainSymbols_mem : ∀ (fuel acc n : Nat), ∀ x ∈ (drainSymbols fuel acc n).1,
    x ∈ Source.alphabet ∧ x ≠ Source.padChar := by
  intro fuel
  induction fuel with
  | zero => intro acc n x hx; simp [drainSymbols] at hx
  | succ f ih =>
    intro acc n x hx
    unfold drainSymbols at hx
    split at hx
    · simp at hx
    · rcases List.mem_cons.mp hx with rfl | h
      · exact symbolCode_mem_alphabet _
      · exact ih _ _ x h

/-- How many symbols the loop gives and how many bits it leaves does not depend on the accumulator. -/
theorem drainSymbols_counts : ∀ (fuel acc n : Nat), n ≤ fuel →
    (drainSymbols fuel acc n).1.length = n / 5 ∧ (drainSymbols fuel acc n).2.2 = n % 5 := by
  intro fuel
  induction fuel with
  | zero => intro acc n h; obtain rfl : n = 0 := by omega
            simp [drainSymbols]
  | succ f ih =>
    intro acc n h
    unfold drainSymbols
    split
    · simp; omega
    · have := ih (acc &&& ((1 <<< (n - 5)) - 1)) (n - 5) (by omega)
      simp only [List.length_cons, this]
      omega

/-- The symbol of the last partial group, below 5 pending bits (41_base32_encoder.md R105). -/
theorem flushSymbol_eq (acc n : Nat) :
    flushSymbol acc n = if n = 0 then [] else [Source.symbol (acc * 2 ^ (5 - n) % 32)] := by
  unfold flushSymbol
  have e : (acc <<< (5 - n)) &&& 0x1F = acc * 2 ^ (5 - n) % 32 := by
    rw [Nat.shiftLeft_eq]
    exact Nat.and_two_pow_sub_one_eq_mod _ 5
  rcases Nat.eq_zero_or_pos n with h | h
  · simp [h]
  · rw [e, symbolCode_eq_alphabet _ (Nat.mod_lt _ (by omega))]
    simp [h, Nat.ne_of_gt h]

/-- The byte DEC_PUSH takes (42_base32_decoder.md R122). -/
theorem takeByte_eq (acc n : Nat) :
    takeByte acc n = if 8 ≤ n then (some (BitVec.ofNat 8 (acc / 2 ^ (n - 8))), acc % 2 ^ (n - 8), n - 8) else (none, acc, n) := by
  unfold takeByte
  split
  · rw [and_mask, Nat.shiftRight_eq_div_pow]
    refine Prod.ext ?_ rfl
    apply congrArg some
    apply BitVec.eq_of_toNat_eq
    rw [BitVec.toNat_ofNat, show (0xFF : Nat) = 2 ^ 8 - 1 from rfl, Nat.and_two_pow_sub_one_eq_mod]
    simp
  · rfl

end Sys2Proof.Laws
end

