-- ==== Sys2Proof/Laws/State.lean ====
section
/-! SUPPORT. What each named update does to each field of the state, true by definition. -/

namespace Sys2Proof.Laws

open Sys2Proof.Machine

/-! ### EncUnit.setOut -/

@[simp] theorem setOut_acc (out : List Byte) (e : EncUnit) : (e.setOut out).acc = e.acc := rfl
@[simp] theorem setOut_nbits (out : List Byte) (e : EncUnit) : (e.setOut out).nbits = e.nbits := rfl
@[simp] theorem setOut_sym (out : List Byte) (e : EncUnit) : (e.setOut out).sym = e.sym := rfl
@[simp] theorem setOut_outN (out : List Byte) (e : EncUnit) : (e.setOut out).outN = BitVec.ofNat 4 out.length := rfl
@[simp] theorem setOut_out0 (out : List Byte) (e : EncUnit) : (e.setOut out).out0 = streamWord out 0 := rfl
@[simp] theorem setOut_out1 (out : List Byte) (e : EncUnit) : (e.setOut out).out1 = streamWord out 1 := rfl

/-! ### EncUnit.encClearStream -/

@[simp] theorem encClearStream_acc (e : EncUnit) : (e.clearStream).acc = 0 := rfl
@[simp] theorem encClearStream_nbits (e : EncUnit) : (e.clearStream).nbits = 0 := rfl
@[simp] theorem encClearStream_sym (e : EncUnit) : (e.clearStream).sym = 0 := rfl
@[simp] theorem encClearStream_outN (e : EncUnit) : (e.clearStream).outN = e.outN := rfl
@[simp] theorem encClearStream_out0 (e : EncUnit) : (e.clearStream).out0 = e.out0 := rfl
@[simp] theorem encClearStream_out1 (e : EncUnit) : (e.clearStream).out1 = e.out1 := rfl

/-! ### DecUnit.clearOut -/

@[simp] theorem clearOut_acc (d : DecUnit) : (d.clearOut).acc = d.acc := rfl
@[simp] theorem clearOut_nbits (d : DecUnit) : (d.clearOut).nbits = d.nbits := rfl
@[simp] theorem clearOut_pad (d : DecUnit) : (d.clearOut).pad = d.pad := rfl
@[simp] theorem clearOut_err (d : DecUnit) : (d.clearOut).err = d.err := rfl
@[simp] theorem clearOut_outByte (d : DecUnit) : (d.clearOut).outByte = 0 := rfl
@[simp] theorem clearOut_outValid (d : DecUnit) : (d.clearOut).outValid = false := rfl

/-! ### DecUnit.decClearStream -/

@[simp] theorem decClearStream_acc (d : DecUnit) : (d.clearStream).acc = 0 := rfl
@[simp] theorem decClearStream_nbits (d : DecUnit) : (d.clearStream).nbits = 0 := rfl
@[simp] theorem decClearStream_pad (d : DecUnit) : (d.clearStream).pad = false := rfl
@[simp] theorem decClearStream_err (d : DecUnit) : (d.clearStream).err = false := rfl
@[simp] theorem decClearStream_outByte (d : DecUnit) : (d.clearStream).outByte = 0 := rfl
@[simp] theorem decClearStream_outValid (d : DecUnit) : (d.clearStream).outValid = false := rfl

/-! ### DecUnit.failStream -/

@[simp] theorem failStream_acc (d : DecUnit) : (d.failStream).acc = 0 := rfl
@[simp] theorem failStream_nbits (d : DecUnit) : (d.failStream).nbits = 0 := rfl
@[simp] theorem failStream_pad (d : DecUnit) : (d.failStream).pad = d.pad := rfl
@[simp] theorem failStream_err (d : DecUnit) : (d.failStream).err = true := rfl
@[simp] theorem failStream_outByte (d : DecUnit) : (d.failStream).outByte = 0 := rfl
@[simp] theorem failStream_outValid (d : DecUnit) : (d.failStream).outValid = false := rfl

/-! ### DecUnit.takeSymbol -/

@[simp] theorem takeSymbol_pad (v : BitVec 5) (d : DecUnit) : (d.takeSymbol v).pad = d.pad := rfl
@[simp] theorem takeSymbol_err (v : BitVec 5) (d : DecUnit) : (d.takeSymbol v).err = d.err := rfl

/-! ### TrnUnit.clearDigest -/

@[simp] theorem clearDigest_dbuf (t : TrnUnit) : (t.clearDigest).dbuf = Vector.replicate 64 0 := rfl
@[simp] theorem clearDigest_dcount (t : TrnUnit) : (t.clearDigest).dcount = 0 := rfl
@[simp] theorem clearDigest_ovf (t : TrnUnit) : (t.clearDigest).ovf = false := rfl
@[simp] theorem clearDigest_codeValid (t : TrnUnit) : (t.clearDigest).codeValid = t.codeValid := rfl
@[simp] theorem clearDigest_code (t : TrnUnit) : (t.clearDigest).code = t.code := rfl
@[simp] theorem clearDigest_str0 (t : TrnUnit) : (t.clearDigest).str0 = t.str0 := rfl
@[simp] theorem clearDigest_str1 (t : TrnUnit) : (t.clearDigest).str1 = t.str1 := rfl
@[simp] theorem clearDigest_str2 (t : TrnUnit) : (t.clearDigest).str2 = t.str2 := rfl

/-! ### TrnUnit.clearCode -/

@[simp] theorem clearCode_dbuf (t : TrnUnit) : (t.clearCode).dbuf = t.dbuf := rfl
@[simp] theorem clearCode_dcount (t : TrnUnit) : (t.clearCode).dcount = t.dcount := rfl
@[simp] theorem clearCode_ovf (t : TrnUnit) : (t.clearCode).ovf = t.ovf := rfl
@[simp] theorem clearCode_codeValid (t : TrnUnit) : (t.clearCode).codeValid = false := rfl
@[simp] theorem clearCode_code (t : TrnUnit) : (t.clearCode).code = 0 := rfl
@[simp] theorem clearCode_str0 (t : TrnUnit) : (t.clearCode).str0 = 0 := rfl
@[simp] theorem clearCode_str1 (t : TrnUnit) : (t.clearCode).str1 = 0 := rfl
@[simp] theorem clearCode_str2 (t : TrnUnit) : (t.clearCode).str2 = 0 := rfl

/-! ### TrnUnit.setCode -/

@[simp] theorem setCode_dbuf (c dg : Nat) (t : TrnUnit) : (t.setCode c dg).dbuf = t.dbuf := rfl
@[simp] theorem setCode_dcount (c dg : Nat) (t : TrnUnit) : (t.setCode c dg).dcount = t.dcount := rfl
@[simp] theorem setCode_ovf (c dg : Nat) (t : TrnUnit) : (t.setCode c dg).ovf = t.ovf := rfl
@[simp] theorem setCode_codeValid (c dg : Nat) (t : TrnUnit) : (t.setCode c dg).codeValid = true := rfl
@[simp] theorem setCode_code (c dg : Nat) (t : TrnUnit) : (t.setCode c dg).code = BitVec.ofNat 30 c := rfl
@[simp] theorem setCode_str0 (c dg : Nat) (t : TrnUnit) : (t.setCode c dg).str0 = streamWord (codeChars c dg) 0 := rfl
@[simp] theorem setCode_str1 (c dg : Nat) (t : TrnUnit) : (t.setCode c dg).str1 = streamWord (codeChars c dg) 1 := rfl
@[simp] theorem setCode_str2 (c dg : Nat) (t : TrnUnit) : (t.setCode c dg).str2 = streamWord (codeChars c dg) 2 := rfl

/-! ### State.placeCommand -/

@[simp] theorem placeCommand_status (w : Word) (s : State) : (placeCommand w s).status = s.status := rfl
@[simp] theorem placeCommand_cfgDigits (w : Word) (s : State) : (placeCommand w s).cfgDigits = s.cfgDigits := rfl
@[simp] theorem placeCommand_cfgAlg (w : Word) (s : State) : (placeCommand w s).cfgAlg = s.cfgAlg := rfl
@[simp] theorem placeCommand_stepSeconds (w : Word) (s : State) : (placeCommand w s).stepSeconds = s.stepSeconds := rfl
@[simp] theorem placeCommand_epochLo (w : Word) (s : State) : (placeCommand w s).epochLo = s.epochLo := rfl
@[simp] theorem placeCommand_epochHi (w : Word) (s : State) : (placeCommand w s).epochHi = s.epochHi := rfl
@[simp] theorem placeCommand_counterLo (w : Word) (s : State) : (placeCommand w s).counterLo = s.counterLo := rfl
@[simp] theorem placeCommand_counterHi (w : Word) (s : State) : (placeCommand w s).counterHi = s.counterHi := rfl
@[simp] theorem placeCommand_enc (w : Word) (s : State) : (placeCommand w s).enc = s.enc := rfl
@[simp] theorem placeCommand_dec (w : Word) (s : State) : (placeCommand w s).dec = s.dec := rfl
@[simp] theorem placeCommand_trn (w : Word) (s : State) : (placeCommand w s).trn = s.trn := rfl
@[simp] theorem placeCommand_resetAsserted (w : Word) (s : State) : (placeCommand w s).resetAsserted = false := rfl
@[simp] theorem placeCommand_pending (w : Word) (s : State) : (placeCommand w s).pending = cmdWrite w :: s.pending := rfl
@[simp] theorem placeCommand_reads (w : Word) (s : State) : (placeCommand w s).reads = s.reads := rfl

/-! ### The whole units after a clear -/

/-- ENC_INIT's update is the encoder's reset value (41_base32_encoder.md R103). -/
theorem clearStream_setOut_nil (e : EncUnit) : e.clearStream.setOut [] = EncUnit.reset := rfl

/-- DEC_INIT's and DEC_FINAL's update is the decoder's reset value (42_base32_decoder.md R121 and R123). -/
theorem decClearStream_eq_reset (d : DecUnit) : d.clearStream = DecUnit.reset := rfl

/-- TRN_CLEAR's update is the truncator's reset value (43_hotp_truncator.md R142). -/
theorem clearDigest_clearCode (t : TrnUnit) : t.clearDigest.clearCode = TrnUnit.reset := rfl

/-- A failed TRN_RUN's update is the truncator's reset value (43_hotp_truncator.md R151 and R152). -/
theorem clearCode_clearDigest (t : TrnUnit) : t.clearCode.clearDigest = TrnUnit.reset := rfl

end Sys2Proof.Laws
end

