-- ==== Sys2Proof/Laws/Exec.lean ====
section
/-! SUPPORT. What each command can do, once: a command ends in a next state that differs from the old one in its unit's
state and in STATUS.ERR only, and depends on nothing else but the registers its rule names (10_state.md R43,
40_host_access.md R95 and R97). -/

namespace Sys2Proof.Laws

open Sys2Proof.Machine

theorem raiseStatus_eq (c : StatusCode) (s : State) : raiseStatus c s = .next { s with status := c } := rfl

theorem illegalCommand_eq (s : State) : illegalCommand s = .next { s with status := .illegalCommand } := rfl

/-- An encoder command maps the encoder's state and reports OK. -/
theorem exec_encoder (i : Instr) (h : unitOf i = .encoder) :
    ∃ f : EncUnit → EncUnit, ∀ s, exec i s = .next { s with enc := f s.enc, status := .ok } := by
  cases i with
  | encInit => exact ⟨fun e => e.clearStream.setOut [], fun s => rfl⟩
  | encPush b => exact ⟨fun e => e.pushByte b, fun s => rfl⟩
  | encFinal pad => exact ⟨fun e => e.finish pad, fun s => rfl⟩
  | _ => simp [unitOf] at h

/-- A decoder command maps the decoder's state to a new one and a code. -/
theorem exec_decoder (i : Instr) (h : unitOf i = .decoder) :
    ∃ f : DecUnit → DecUnit × StatusCode, ∀ s,
      exec i s = .next { s with dec := (f s.dec).1, status := (f s.dec).2 } := by
  cases i with
  | decInit => exact ⟨fun d => (d.clearStream, .ok), fun s => rfl⟩
  | decFinal => exact ⟨fun d => (d.clearStream, decFinalCode d), fun s => rfl⟩
  | decPush c =>
    refine ⟨fun d =>
      if d.err then (d.clearOut, .decodeError)
      else if upperCode c = padCode then ({ d.clearOut with pad := true }, .ok)
      else match symbolValue (upperCode c) with
        | none => (d.failStream, .decodeError)
        | some x => if d.pad then (d.failStream, .decodeError) else (d.takeSymbol x, .ok), fun s => ?_⟩
    simp only [exec, execDecPush, decPushSymbol, raiseStatus]
    cases symbolValue (upperCode c) with
    | none => split <;> [rfl; split <;> rfl]
    | some x => by_cases hp : s.dec.pad = true <;> simp only [hp] <;> split <;> [rfl; split <;> rfl; rfl; split <;> rfl]
  | _ => simp [unitOf] at h

/-- TRN_RUN by its code: a code shown, or the truncator as after reset (43_hotp_truncator.md R144). -/
theorem exec_trnRun (s : State) :
    (∃ len, algDigestLength s.cfgAlg = some len ∧ digitsInRange s.cfgDigits = true ∧ s.trn.ovf = false ∧
      s.trn.dcount.toNat = len ∧ trnRunCode s = .ok ∧
      exec .trnRun s =
        .next { s with
          trn := (s.trn.setCode (hotpCode s.trn.dbuf len s.cfgDigits.toNat) s.cfgDigits.toNat).clearDigest
          status := .ok }) ∨
    (trnRunCode s ≠ .ok ∧ exec .trnRun s = .next { s with trn := TrnUnit.reset, status := trnRunCode s }) := by
  cases hl : algDigestLength s.cfgAlg with
  | none =>
    right
    have hc : trnRunCode s = .unsupportedAlgorithm := by simp [trnRunCode, hl]
    refine ⟨by simp [hc], ?_⟩
    simp only [exec, execTrnRun, hc, hl, raiseStatus, clearCode_clearDigest]
  | some len =>
    cases hd : digitsInRange s.cfgDigits with
    | false =>
      right
      have hc : trnRunCode s = .invalidOptions := by simp [trnRunCode, hl, hd]
      refine ⟨by simp [hc], ?_⟩
      simp only [exec, execTrnRun, hc, hl, raiseStatus, clearCode_clearDigest]
    | true =>
      by_cases hb : s.trn.ovf = true ∨ s.trn.dcount.toNat ≠ len
      · right
        have hc : trnRunCode s = .digestLength := by simp only [trnRunCode, hl, hd]; simp [hb]
        refine ⟨by simp [hc], ?_⟩
        simp only [exec, execTrnRun, hc, hl, raiseStatus, clearCode_clearDigest]
      · left
        have hc : trnRunCode s = .ok := by simp only [trnRunCode, hl, hd]; simp [hb]
        push Not at hb
        refine ⟨len, rfl, rfl, by simpa using hb.1, hb.2, hc, ?_⟩
        simp only [exec, execTrnRun, hc, hl, raiseStatus]

/-- A truncator command maps the truncator's state, by CFG, to a new one and a code. -/
theorem exec_truncator (i : Instr) (h : unitOf i = .truncator) :
    ∃ f : BitVec 4 → BitVec 2 → TrnUnit → TrnUnit × StatusCode, ∀ s,
      exec i s =
        .next { s with trn := (f s.cfgDigits s.cfgAlg s.trn).1, status := (f s.cfgDigits s.cfgAlg s.trn).2 } := by
  cases i with
  | trnClear => exact ⟨fun _ _ t => (t.clearDigest.clearCode, .ok), fun s => rfl⟩
  | trnPush d =>
    refine ⟨fun _ _ t =>
      if t.dcount.toNat < Config.dbufSize then
        ({ t with dbuf := t.dbuf.setIfInBounds t.dcount.toNat d, dcount := t.dcount + 1 }, .ok)
      else ({ t with ovf := true }, .digestLength), fun s => ?_⟩
    simp only [exec, execTrnPush, raiseStatus]
    split <;> rfl
  | trnRun =>
    let code : BitVec 4 → BitVec 2 → TrnUnit → StatusCode := fun dg alg t =>
      trnRunCode { State.reset with cfgDigits := dg, cfgAlg := alg, trn := t }
    refine ⟨fun dg alg t =>
      (if code dg alg t = .ok then
        (t.setCode (hotpCode t.dbuf ((algDigestLength alg).getD 0) dg.toNat) dg.toNat).clearDigest else TrnUnit.reset,
        code dg alg t), fun s => ?_⟩
    have hcode : code s.cfgDigits s.cfgAlg s.trn = trnRunCode s := rfl
    simp only [hcode]
    rcases exec_trnRun s with ⟨len, hl, -, -, -, hc, he⟩ | ⟨hc, he⟩
    · simp only [he, hc, hl, if_true, Option.getD_some]
    · simp only [he, hc, if_false]
  | _ => simp [unitOf] at h

/-- CTR_RUN maps STEP, EPOCH and COUNTER to the new halves of COUNTER and a code. -/
theorem exec_counterMapper (i : Instr) (h : unitOf i = .counterMapper) :
    ∃ f : Word → BitVec 64 → Word → Word → Word × Word × StatusCode, ∀ s,
      exec i s = .next { s with
        counterLo := (f s.stepSeconds s.epoch s.counterLo s.counterHi).1
        counterHi := (f s.stepSeconds s.epoch s.counterLo s.counterHi).2.1
        status := (f s.stepSeconds s.epoch s.counterLo s.counterHi).2.2 } := by
  cases i with
  | ctrRun =>
    refine ⟨fun st e lo hi =>
      if st = 0 then (lo, hi, .invalidOptions)
      else ((e / st.setWidth 64).extractLsb' 0 32, (e / st.setWidth 64).extractLsb' 32 32, .ok), fun s => ?_⟩
    simp only [exec, execCtrRun, raiseStatus]
    split <;> rfl
  | _ => simp [unitOf] at h

/-- Every command ends in a next state (40_host_access.md R95): the old one with other unit state and another code. -/
theorem exec_next (i : Instr) (s : State) :
    ∃ (c : StatusCode) (e : EncUnit) (d : DecUnit) (t : TrnUnit) (lo hi : Word),
      exec i s = .next { s with status := c, enc := e, dec := d, trn := t, counterLo := lo, counterHi := hi } ∧
      (unitOf i ≠ .encoder → e = s.enc) ∧ (unitOf i ≠ .decoder → d = s.dec) ∧ (unitOf i ≠ .truncator → t = s.trn) ∧
      (unitOf i ≠ .counterMapper → lo = s.counterLo ∧ hi = s.counterHi) := by
  cases hu : unitOf i with
  | encoder =>
    obtain ⟨f, hf⟩ := exec_encoder i hu
    exact ⟨_, f s.enc, s.dec, s.trn, s.counterLo, s.counterHi, hf s, by simp, by simp, by simp, by simp⟩
  | decoder =>
    obtain ⟨f, hf⟩ := exec_decoder i hu
    exact ⟨_, s.enc, (f s.dec).1, s.trn, s.counterLo, s.counterHi, hf s, by simp, by simp, by simp, by simp⟩
  | truncator =>
    obtain ⟨f, hf⟩ := exec_truncator i hu
    exact ⟨_, s.enc, s.dec, _, s.counterLo, s.counterHi, hf s, by simp, by simp, by simp, by simp⟩
  | counterMapper =>
    obtain ⟨f, hf⟩ := exec_counterMapper i hu
    exact ⟨_, s.enc, s.dec, s.trn, _, _, hf s, by simp, by simp, by simp, by simp⟩

end Sys2Proof.Laws
end

