-- ==== Sys2Proof/Laws/Step.lean ====
section
/-! SUPPORT. What an access, an input and a step can do, once (40_host_access.md R90 to R97). -/

namespace Sys2Proof.Laws

open Sys2Proof.Machine

/-- Every register is at its offset (10_state.md R21). -/
theorem atOffset_offset (r : Reg) : Reg.atOffset r.offset = some r := by cases r <;> rfl

/-- The map has a register at an offset exactly for the aligned offsets below 0x58 (20_memory.md R58). -/
theorem atOffset_eq_some {off : Nat} {r : Reg} (h : Reg.atOffset off = some r) : off = r.offset := by
  unfold Reg.atOffset at h
  split at h <;> simp at h <;> subst h <;> rfl

theorem permitted_eq_true {off n : Nat} {dir : Dir} (h : permitted off n dir = true) :
    n = 4 ∧ ∃ r : Reg, off = r.offset ∧ r.access.allows dir = true := by
  simp only [permitted, Bool.and_eq_true, beq_iff_eq, decide_eq_true_eq, mapAllows] at h
  obtain ⟨⟨⟨h4, -⟩, -⟩, hm⟩ := h
  split at hm
  · exact ⟨h4, _, atOffset_eq_some ‹_›, hm⟩
  · simp at hm

theorem permitted_offset (r : Reg) (dir : Dir) : permitted r.offset 4 dir = r.access.allows dir := by
  cases r <;> cases dir <;> rfl

/-- A permitted read answers the register's value (40_host_access.md R91). -/
theorem answerRead_offset (r : Reg) (s : State) (h : r ≠ .cmd) :
    ∃ v, regValue r s = some v ∧ answerRead r.offset 4 s = .next { s with reads := s.reads ++ [v] } := by
  cases r <;> first | exact absurd rfl h | exact ⟨_, rfl, rfl⟩

theorem answerRead_not_permitted {off n : Nat} (h : permitted off n .read = false) (s : State) :
    answerRead off n s = .fault (.busError off .read) := by simp [answerRead, h, raiseBusError]

theorem answerWrite_not_permitted {off n : Nat} (h : permitted off n .write = false) (v : Word) (s : State) :
    answerWrite off n v s = .fault (.busError off .write) := by simp [answerWrite, h, raiseBusError]

/-- A write to CMD runs a command (40_host_access.md R94). -/
theorem answerWrite_cmd (w : Word) (s : State) : answerWrite 0x04 4 w s = runCommand w s := rfl

/-- A write to an RW register stores the value (40_host_access.md R93). -/
theorem answerWrite_rw (r : Reg) (v : Word) (s : State) (h : r.access = .rw) :
    ∃ t, writeReg r v s = some t ∧ answerWrite r.offset 4 v s = .next t := by
  cases r <;> first | (simp [Reg.access] at h; done) | exact ⟨_, rfl, rfl⟩

theorem runCommand_command {w : Word} {i : Instr} (h : decode w = .command i) (s : State) : runCommand w s = exec i s := by
  simp [runCommand, h]

theorem runCommand_illegal {w : Word} {why : IllegalWord} (h : decode w = .illegal why) (s : State) :
    runCommand w s = .next { s with status := .illegalCommand } := by
  simp [runCommand, h, illegalCommand, raiseStatus]

/-- A register write changes only the host's option and value registers. -/
theorem writeReg_frame {r : Reg} {v : Word} {s t : State} (h : writeReg r v s = some t) :
    t = { s with
      cfgDigits := t.cfgDigits, cfgAlg := t.cfgAlg, stepSeconds := t.stepSeconds, epochLo := t.epochLo
      epochHi := t.epochHi, counterLo := t.counterLo, counterHi := t.counterHi } ∧
    (r ≠ .cfg → t.cfgDigits = s.cfgDigits ∧ t.cfgAlg = s.cfgAlg) ∧ (r ≠ .step → t.stepSeconds = s.stepSeconds) ∧
    (r ≠ .epochLo → t.epochLo = s.epochLo) ∧ (r ≠ .epochHi → t.epochHi = s.epochHi) ∧
    (r ≠ .counterLo → t.counterLo = s.counterLo) ∧ (r ≠ .counterHi → t.counterHi = s.counterHi) := by
  cases r <;> simp [writeReg] at h <;> subst h <;> simp

/-- The command of a CMD write (40_host_access.md R94). -/
theorem commandOf_cmdWrite {w : Word} {i : Instr} (h : decode w = .command i) : commandOf (cmdWrite w) = some i := by
  simp [commandOf, cmdWrite, h]

/-- An input that runs a command is a write of its word to CMD. -/
theorem commandOf_eq_some {x : HostInput} {i : Instr} (h : commandOf x = some i) :
    ∃ w, x = cmdWrite w ∧ decode w = .command i := by
  unfold commandOf at h
  split at h
  · split at h
    · rename_i h4
      obtain ⟨rfl, rfl⟩ := h4
      split at h
      · exact ⟨_, rfl, by simp_all⟩
      · simp at h
    · simp at h
  · simp at h

/-- A command's input with reset not asserted is the command's meaning. -/
theorem takeInput_command {x : HostInput} {i : Instr} (h : commandOf x = some i) (s : State)
    (hr : s.resetAsserted = false) : takeInput x s = exec i s := by
  obtain ⟨w, rfl, hw⟩ := commandOf_eq_some h
  simp [takeInput, cmdWrite, hr, answerAccess, answerWrite_cmd, runCommand_command hw]

/-- What a permitted access that runs no command can do: it answers a read, stores into one RW register, or reports an
illegal word. -/
theorem takeInput_no_command {x : HostInput} (hp : permittedInput x = true) (hc : commandOf x = none) (s : State)
    (hr : s.resetAsserted = false) :
    (∃ r v, x = readInput r ∧ regValue r s = some v ∧ takeInput x s = .next { s with reads := s.reads ++ [v] }) ∨
    (∃ r v t, x = writeInput r v ∧ r.access = .rw ∧ writeReg r v s = some t ∧ takeInput x s = .next t) ∨
    (∃ w, x = cmdWrite w ∧ takeInput x s = .next { s with status := .illegalCommand }) := by
  cases x with
  | resetLine b => simp [permittedInput] at hp
  | access a =>
    cases a with
    | read off n =>
      obtain ⟨rfl, r, rfl, ha⟩ := permitted_eq_true (show permitted off n .read = true from hp)
      left
      obtain ⟨v, hv, he⟩ := answerRead_offset r s (by rintro rfl; simp [Reg.access, RegAccess.allows] at ha)
      exact ⟨r, v, rfl, hv, by simp [takeInput, hr, answerAccess, he]⟩
    | write off n v =>
      obtain ⟨rfl, r, rfl, ha⟩ := permitted_eq_true (show permitted off n .write = true from hp)
      right
      cases hacc : r.access with
      | ro => simp [hacc, RegAccess.allows] at ha
      | rw =>
        left
        obtain ⟨t, ht, he⟩ := answerWrite_rw r v s hacc
        exact ⟨r, v, t, rfl, hacc, ht, by simp [takeInput, hr, answerAccess, he]⟩
      | wo =>
        right
        obtain rfl : r = .cmd := by cases r <;> simp [Reg.access] at hacc ⊢
        refine ⟨v, rfl, ?_⟩
        cases hd : decode v with
        | command i => simp [commandOf, Reg.offset, hd] at hc
        | illegal why =>
          simp [takeInput, hr, answerAccess, Reg.offset, answerWrite_cmd, runCommand_illegal hd]

/-- A permitted access that runs no command leaves the three units as they are. -/
theorem takeInput_no_command_units {x : HostInput} (hp : permittedInput x = true) (hc : commandOf x = none) (s : State)
    (hr : s.resetAsserted = false) :
    ∃ t, takeInput x s = .next t ∧ t.enc = s.enc ∧ t.dec = s.dec ∧ t.trn = s.trn ∧ t.resetAsserted = s.resetAsserted ∧
      (writesCfg x = false → t.cfgDigits = s.cfgDigits ∧ t.cfgAlg = s.cfgAlg) := by
  rcases takeInput_no_command hp hc s hr with ⟨r, v, rfl, -, he⟩ | ⟨r, v, t, rfl, -, hw, he⟩ | ⟨w, rfl, he⟩
  · exact ⟨_, he, rfl, rfl, rfl, rfl, fun _ => ⟨rfl, rfl⟩⟩
  · obtain ⟨h1, h2, -⟩ := writeReg_frame hw
    refine ⟨t, he, by rw [h1], by rw [h1], by rw [h1], by rw [h1], fun h => h2 ?_⟩
    rintro rfl
    simp [writesCfg, writeInput] at h
  · exact ⟨_, he, rfl, rfl, rfl, rfl, fun _ => ⟨rfl, rfl⟩⟩

/-- A reset level leaves the state, or brings all of the block's state to its reset value (70_reset_and_hazards.md
R230). -/
theorem driveReset_cases (b : Bool) (s : State) :
    (driveReset b s = s ∧ b = false ∧ s.resetAsserted = false) ∨
    driveReset b s = { State.reset with resetAsserted := b, pending := s.pending, reads := s.reads } := by
  unfold driveReset
  cases b <;> cases s.resetAsserted <;> simp

theorem step_nil {s : State} (h : s.pending = []) : step s = .next s := by simp [step, h, idle]

theorem step_cons {s : State} {x : HostInput} {rest : List HostInput} (h : s.pending = x :: rest) :
    step s = takeInput x { s with pending := rest } := by simp [step, h]

/-- An access that is not permitted is a bus error (40_host_access.md R92). -/
theorem takeInput_bus_error {a : Access} (h : a.permitted = false) (s : State) (hr : s.resetAsserted = false) :
    takeInput (.access a) s = .fault (match a with
      | .read off _ => .busError off .read
      | .write off _ _ => .busError off .write) := by
  cases a with
  | read off n => simp [takeInput, hr, answerAccess, answerRead_not_permitted (show permitted off n .read = false from h)]
  | write off n v =>
    simp [takeInput, hr, answerAccess, answerWrite_not_permitted (show permitted off n .write = false from h)]

/-- A command neither looks at the inputs still to come nor changes them. -/
theorem exec_setPending (i : Instr) (s : State) (p : List HostInput) :
    ∃ t, exec i s = .next t ∧ t.pending = s.pending ∧ exec i { s with pending := p } = .next { t with pending := p } := by
  cases hu : unitOf i with
  | encoder => obtain ⟨f, hf⟩ := exec_encoder i hu; exact ⟨_, hf s, rfl, hf _⟩
  | decoder => obtain ⟨f, hf⟩ := exec_decoder i hu; exact ⟨_, hf s, rfl, hf _⟩
  | truncator => obtain ⟨f, hf⟩ := exec_truncator i hu; exact ⟨_, hf s, rfl, hf _⟩
  | counterMapper => obtain ⟨f, hf⟩ := exec_counterMapper i hu; exact ⟨_, hf s, rfl, hf _⟩

/-- What an access that is answered can do: it answers a read, stores into one RW register, or runs a command word. -/
theorem answerAccess_cases {a : Access} {s t : State} (h : answerAccess a s = .next t) :
    (∃ r v, a = .read (Reg.offset r) 4 ∧ regValue r s = some v ∧ t = { s with reads := s.reads ++ [v] }) ∨
    (∃ r v, a = .write (Reg.offset r) 4 v ∧ r.access = .rw ∧ writeReg r v s = some t) ∨
    (∃ w, a = .write 0x04 4 w ∧ runCommand w s = .next t) := by
  cases hp : a.permitted with
  | false =>
    cases a with
    | read off n => rw [answerAccess, answerRead_not_permitted hp] at h; simp at h
    | write off n v => rw [answerAccess, answerWrite_not_permitted hp] at h; simp at h
  | true =>
    cases a with
    | read off n =>
      obtain ⟨rfl, r, rfl, ha⟩ := permitted_eq_true (show permitted off n .read = true from hp)
      obtain ⟨v, hv, he⟩ := answerRead_offset r s (by rintro rfl; simp [Reg.access, RegAccess.allows] at ha)
      rw [answerAccess, he] at h
      cases h
      exact .inl ⟨r, v, rfl, hv, rfl⟩
    | write off n v =>
      obtain ⟨rfl, r, rfl, ha⟩ := permitted_eq_true (show permitted off n .write = true from hp)
      cases hacc : r.access with
      | ro => simp [hacc, RegAccess.allows] at ha
      | rw =>
        obtain ⟨u, hu, he⟩ := answerWrite_rw r v s hacc
        rw [answerAccess, he] at h
        cases h
        exact .inr (.inl ⟨r, v, rfl, hacc, hu⟩)
      | wo =>
        obtain rfl : r = .cmd := by cases r <;> simp [Reg.access] at hacc ⊢
        exact .inr (.inr ⟨v, rfl, h⟩)

/-- A permitted access is answered (20_memory.md R51). -/
theorem answerAccess_permitted {a : Access} (h : a.permitted = true) (s : State) : ∃ t, answerAccess a s = .next t := by
  cases a with
  | read off n =>
    obtain ⟨rfl, r, rfl, ha⟩ := permitted_eq_true (show permitted off n .read = true from h)
    obtain ⟨v, hv, he⟩ := answerRead_offset r s (by rintro rfl; simp [Reg.access, RegAccess.allows] at ha)
    exact ⟨_, he⟩
  | write off n v =>
    obtain ⟨rfl, r, rfl, ha⟩ := permitted_eq_true (show permitted off n .write = true from h)
    cases hacc : r.access with
    | ro => simp [hacc, RegAccess.allows] at ha
    | rw => obtain ⟨t, ht, he⟩ := answerWrite_rw r v s hacc; exact ⟨t, he⟩
    | wo =>
      obtain rfl : r = .cmd := by cases r <;> simp [Reg.access] at hacc ⊢
      show ∃ t, runCommand v s = _
      cases hd : decode v with
      | command i => rw [runCommand_command hd]; obtain ⟨_, _, _, _, _, _, h, -⟩ := exec_next i s; exact ⟨_, h⟩
      | illegal why => exact ⟨_, runCommand_illegal hd s⟩

/-- An access neither looks at the inputs still to come nor changes them. -/
theorem answerAccess_setPending (a : Access) (s : State) (p : List HostInput) :
    answerAccess a { s with pending := p } =
      match answerAccess a s with
      | .next t => .next { t with pending := p }
      | .fault f => .fault f
      | .refused r => .refused r := by
  cases a with
  | read off n =>
    simp only [answerAccess, answerRead]
    cases permitted off n .read with
    | false => simp [raiseBusError]
    | true =>
      cases Reg.atOffset off with
      | none => simp [raiseBusError]
      | some r => cases r <;> simp [regValue, raiseBusError] <;> rfl
  | write off n v =>
    simp only [answerAccess, answerWrite]
    cases permitted off n .write with
    | false => simp [raiseBusError]
    | true =>
      cases Reg.atOffset off with
      | none => simp [raiseBusError]
      | some r =>
        cases r <;> simp [writeReg, raiseBusError, runCommand]
        cases decode v with
        | illegal why => simp [illegalCommand, raiseStatus]
        | command i =>
          obtain ⟨t, h1, -, h2⟩ := exec_setPending i s p
          simp only [h1, h2]

/-- An input neither looks at the inputs still to come nor changes them. -/
theorem takeInput_setPending (x : HostInput) (s : State) (p : List HostInput) :
    takeInput x { s with pending := p } =
      match takeInput x s with
      | .next t => .next { t with pending := p }
      | .fault f => .fault f
      | .refused r => .refused r := by
  cases x with
  | resetLine b => cases b <;> cases h : s.resetAsserted <;> simp [takeInput, driveReset, h]
  | access a =>
    simp only [takeInput]
    split
    · rfl
    · exact answerAccess_setPending a s p

end Sys2Proof.Laws
end

