-- ==== Sys2Proof/Laws/Decoder.lean ====
section
/-! SUPPORT. One law for each update of the decoder (42_base32_decoder.md R122). -/

namespace Sys2Proof.Laws

open Sys2Proof.Machine

/-- A symbol taken, in closed form: with `x` the pending bits followed by the symbol's and `n` their count, the top byte
of `x` is shown when 8 bits are there, and the rest stays. -/
theorem takeSymbol_eq (d : DecUnit) (v : Nat) (hv : v < 32) (h : d.Pending) :
    let x := d.acc.toNat * 32 + v
    let n := d.nbits.toNat + 5
    x < 2 ^ n ∧
    d.takeSymbol (BitVec.ofNat 5 v) =
      if 8 ≤ n then
        { d with
          acc := BitVec.ofNat 12 (x % 2 ^ (n - 8)), nbits := BitVec.ofNat 4 (n - 8)
          outByte := BitVec.ofNat 8 (x / 2 ^ (n - 8)), outValid := true }
      else { d with acc := BitVec.ofNat 12 x, nbits := BitVec.ofNat 4 n, outByte := 0, outValid := false } := by
  intro x n
  have hm : (BitVec.ofNat 5 v).toNat = v := by rw [BitVec.toNat_ofNat]; exact Nat.mod_eq_of_lt hv
  have hx : (d.acc.toNat <<< 5) ||| (BitVec.ofNat 5 v).toNat = x := by rw [hm]; exact shift_or hv
  refine ⟨?_, ?_⟩
  · obtain ⟨-, h2⟩ := h
    have e : 2 ^ n = 2 ^ d.nbits.toNat * 32 := pow_add 2 _ 5
    rw [e]
    omega
  · unfold DecUnit.takeSymbol
    simp only [hx, takeByte_eq]
    split <;> rfl

/-- How many bits a symbol leaves pending depends neither on the symbol nor on the accumulator (60_exceptions.md R218). -/
theorem takeSymbol_nbits (v : BitVec 5) (d : DecUnit) :
    (d.takeSymbol v).nbits =
      BitVec.ofNat 4 (if 8 ≤ d.nbits.toNat + 5 then d.nbits.toNat + 5 - 8 else d.nbits.toNat + 5) := by
  unfold DecUnit.takeSymbol
  simp only [takeByte_eq]
  split <;> rfl

/-- DEC_STATE shows its three fields and nothing else (10_state.md R35). -/
theorem decStateWord_eq_iff (d e : DecUnit) :
    decStateWord d = decStateWord e ↔ d.nbits = e.nbits ∧ d.pad = e.pad ∧ d.err = e.err := by
  refine ⟨fun h => ?_, fun ⟨h1, h2, h3⟩ => by simp only [decStateWord, h1, h2, h3]⟩
  have h := congrArg BitVec.toNat h
  simp only [decStateWord, append_toNat, ofBool_toNat] at h
  have hd := d.nbits.isLt
  have he := e.nbits.isLt
  have hb : ∀ b c : Bool, b.toNat = c.toNat → b = c := by decide
  have hle : ∀ b : Bool, b.toNat ≤ 1 := Bool.toNat_le
  have h1 := hle d.pad
  have h2 := hle e.pad
  have h3 := hle d.err
  have h4 := hle e.err
  exact ⟨BitVec.eq_of_toNat_eq (by omega), hb _ _ (by omega), hb _ _ (by omega)⟩

/-- A symbol taken keeps the pending bits below 8 (42_base32_decoder.md R126). -/
theorem takeSymbol_pending (d : DecUnit) (v : Nat) (hv : v < 32) (h : d.Pending) :
    (d.takeSymbol (BitVec.ofNat 5 v)).Pending := by
  obtain ⟨hx, he⟩ := takeSymbol_eq d v hv h
  have hp : ∀ k, k ≤ 7 → 2 ^ k ≤ 128 := by decide
  have h7 := h.1
  rw [he]
  split
  · have hlt := Nat.mod_lt (d.acc.toNat * 32 + v) (y := 2 ^ (d.nbits.toNat + 5 - 8)) (by positivity)
    have := hp (d.nbits.toNat + 5 - 8) (by omega)
    unfold DecUnit.Pending
    simp only [BitVec.toNat_ofNat]
    rw [Nat.mod_eq_of_lt (show _ < 2 ^ 12 by omega), Nat.mod_eq_of_lt (show _ < 2 ^ 4 by omega)]
    exact ⟨by omega, hlt⟩
  · have := hp (d.nbits.toNat + 5) (by omega)
    unfold DecUnit.Pending
    simp only [BitVec.toNat_ofNat]
    rw [Nat.mod_eq_of_lt (show _ < 2 ^ 12 by omega), Nat.mod_eq_of_lt (show _ < 2 ^ 4 by omega)]
    exact ⟨by omega, hx⟩

/-- What DEC_PUSH can do, in the terms of the source's character values (42_base32_decoder.md R122). -/
theorem decPush_cases (c : Byte) (s : State) :
    (s.dec.err = true ∧ exec (.decPush c) s = .next { s with status := .decodeError, dec := s.dec.clearOut }) ∨
    (s.dec.err = false ∧ c = Source.padChar ∧
      exec (.decPush c) s = .next { s with status := .ok, dec := { s.dec.clearOut with pad := true } }) ∨
    (s.dec.err = false ∧ c ≠ Source.padChar ∧ (Source.charValue c = none ∨ s.dec.pad = true) ∧
      exec (.decPush c) s = .next { s with status := .decodeError, dec := s.dec.failStream }) ∨
    (∃ v, s.dec.err = false ∧ Source.charValue c = some v ∧ s.dec.pad = false ∧ v < 32 ∧
      exec (.decPush c) s = .next { s with status := .ok, dec := s.dec.takeSymbol (BitVec.ofNat 5 v) }) := by
  simp only [exec, execDecPush, decPushSymbol, raiseStatus, upperCode_eq_padCode_iff, symbolValue_eq_charValue]
  cases he : s.dec.err with
  | true => simp
  | false =>
    by_cases hc : c = Source.padChar
    · simp [hc]
    · cases hv : Source.charValue c with
      | none => simp [hc]
      | some v =>
        have := charValue_lt hv
        cases hp : s.dec.pad <;> simp [hc, this]

end Sys2Proof.Laws
end

