-- ==== Sys2Proof/Laws/Encoder.lean ====
section
/-! SUPPORT. One law for each update of the encoder (41_base32_encoder.md R104 and R105). -/

namespace Sys2Proof.Laws

open Sys2Proof.Machine

/-- ENC_PUSH on the encoder's state in closed form: with `x` the pending bits followed by the byte's and `n` their count,
the `n / 5` symbols of `x` from the top are shown and its low `n mod 5` bits stay. -/
theorem pushByte_eq (e : EncUnit) (b : Byte) (h : e.Pending) :
    let x := e.acc.toNat * 256 + b.toNat
    let n := e.nbits.toNat + 8
    x < 2 ^ n ∧
    e.pushByte b =
      EncUnit.setOut ((List.range (n / 5)).map fun k => Source.symbol (x / 2 ^ (n - 5 * (k + 1)) % 32))
        { e with
          acc := BitVec.ofNat 12 (x % 2 ^ (n % 5))
          nbits := BitVec.ofNat 4 (n % 5)
          sym := BitVec.ofNat 3 ((e.sym.toNat + n / 5) % 8) } := by
  intro x n
  have hx : (e.acc.toNat <<< 8) ||| b.toNat = x := shift_or b.isLt
  have hlt : x < 2 ^ n := by
    obtain ⟨-, h2⟩ := h
    have := b.isLt
    have e8 : 2 ^ n = 2 ^ e.nbits.toNat * 256 := pow_add 2 _ 8
    rw [e8]
    omega
  refine ⟨hlt, ?_⟩
  unfold EncUnit.pushByte
  simp only [hx]
  rw [drainSymbols_eq _ _ _ le_rfl hlt]
  simp [n]

/-- What an ENC_PUSH leaves below 5 bits fits the fields (41_base32_encoder.md R106). -/
theorem mod_two_pow_mod_five (x n : Nat) : x % 2 ^ (n % 5) < 16 := by
  have hp : ∀ k, k ≤ 4 → 2 ^ k ≤ 16 := by decide
  exact lt_of_lt_of_le (Nat.mod_lt _ (by positivity)) (hp _ (by omega))

theorem pushByte_fields (e : EncUnit) (b : Byte) (h : e.Pending) :
    let x := e.acc.toNat * 256 + b.toNat
    let n := e.nbits.toNat + 8
    (e.pushByte b).acc.toNat = x % 2 ^ (n % 5) ∧ (e.pushByte b).nbits.toNat = n % 5 ∧
    (e.pushByte b).sym.toNat = (e.sym.toNat + n / 5) % 8 ∧ (e.pushByte b).outN.toNat = n / 5 ∧
    encChars (e.pushByte b) = (List.range (n / 5)).map fun k => Source.symbol (x / 2 ^ (n - 5 * (k + 1)) % 32) := by
  intro x n
  obtain ⟨-, he⟩ := pushByte_eq e b h
  have hn : e.nbits.toNat + 8 ≤ 12 := by have := h.1; omega
  have hm := mod_two_pow_mod_five x n
  rw [he]
  have hN : BitVec.toNat (BitVec.ofNat 4 (n / 5)) = n / 5 := by
    rw [BitVec.toNat_ofNat]; exact Nat.mod_eq_of_lt (by omega)
  refine ⟨?_, ?_, ?_, ?_, ?_⟩
  · rw [setOut_acc, BitVec.toNat_ofNat]; exact Nat.mod_eq_of_lt (lt_trans hm (by norm_num))
  · rw [setOut_nbits, BitVec.toNat_ofNat]; exact Nat.mod_eq_of_lt (by omega)
  · rw [setOut_sym, BitVec.toNat_ofNat]; exact Nat.mod_eq_of_lt (by omega)
  · rw [setOut_outN, List.length_map, List.length_range, hN]
  · unfold encChars
    rw [setOut_outN, List.length_map, List.length_range, hN]
    apply List.map_congr_left
    intro k hk
    have hk := List.mem_range.mp hk
    rw [encLane_setOut _ _ _ (by omega)]
    rw [List.getD_eq_getElem _ _ (by simpa using hk), List.getElem_map, List.getElem_range]

/-- An ENC_PUSH keeps the pending bits below 5 (41_base32_encoder.md R106). -/
theorem pushByte_pending (e : EncUnit) (b : Byte) (h : e.Pending) : (e.pushByte b).Pending := by
  obtain ⟨h1, h2, -⟩ := pushByte_fields e b h
  refine ⟨by rw [h2]; omega, ?_⟩
  rw [h1, h2]
  exact Nat.mod_lt _ (by positivity)

/-- The characters ENC_FINAL shows (41_base32_encoder.md R105). -/
theorem finish_out (e : EncUnit) (pad : Bool) :
    let last := if e.nbits.toNat = 0 then [] else [Source.symbol (e.acc.toNat * 2 ^ (5 - e.nbits.toNat) % 32)]
    let s := (e.sym.toNat + last.length) % 8
    let out := last ++ List.replicate (if pad = true ∧ s ≠ 0 then 8 - s else 0) Source.padChar
    e.finish pad = (e.setOut out).clearStream ∧ out.length ≤ 8 ∧ encChars (e.finish pad) = out := by
  intro last s out
  have hl : flushSymbol e.acc.toNat e.nbits.toNat = last := flushSymbol_eq _ _
  have hp : padChars pad s = List.replicate (if pad = true ∧ s ≠ 0 then 8 - s else 0) Source.padChar := by
    simp only [padChars, padCode_eq_padChar]
    split <;> rfl
  have hf : e.finish pad = (e.setOut out).clearStream := by simp only [EncUnit.finish, hl]; rw [hp]
  have hlen : out.length ≤ 8 := by
    have : last.length ≤ 1 := by simp only [last]; split <;> simp
    simp only [out, List.length_append, List.length_replicate]
    split <;> omega
  refine ⟨hf, hlen, ?_⟩
  rw [hf]
  unfold encChars
  rw [encClearStream_outN, setOut_outN, BitVec.toNat_ofNat, Nat.mod_eq_of_lt (by omega)]
  apply List.ext_getElem (by simp)
  intro k hk hk'
  rw [List.getElem_map, List.getElem_range, encLane_clearStream, encLane_setOut _ _ _ (by omega),
    List.getD_eq_getElem _ _ hk']

/-- No pending bit, no symbol counted: nothing pending (41_base32_encoder.md R103 and R105). -/
theorem clearStream_pending (e : EncUnit) : e.clearStream.Pending := ⟨Nat.zero_le _, Nat.zero_lt_one⟩

end Sys2Proof.Laws
end

