-- ==== Sys2Proof/Laws/PerInstr.lean ====
section
/-! SUPPORT. Facts about every command as syntax, one lemma per constructor: the fields of its word (30_encoding.md R70
to R73). -/

namespace Sys2Proof.Laws

/-- The OPC field of a word built from its fields. -/
theorem opcField_commandWord (opc arg : Byte) : opcField (commandWord opc arg) = opc := by
  apply BitVec.eq_of_toNat_eq
  simp only [opcField, commandWord, extract_toNat, append_toNat]
  simp
  omega

/-- The ARG field of a word built from its fields. -/
theorem argField_commandWord (opc arg : Byte) : argField (commandWord opc arg) = arg := by
  apply BitVec.eq_of_toNat_eq
  simp only [argField, commandWord, extract_toNat, append_toNat]
  simp
  omega

/-- The RSV field of a word built from its fields is 0. -/
theorem rsvField_commandWord (opc arg : Byte) : rsvField (commandWord opc arg) = 0 := by
  apply BitVec.eq_of_toNat_eq
  simp only [rsvField, commandWord, extract_toNat, append_toNat]
  simp
  omega

/-- A word whose RSV field is 0 is built from its other two fields. -/
theorem commandWord_fields (w : Word) (h : rsvField w = 0) : commandWord (opcField w) (argField w) = w := by
  apply BitVec.eq_of_toNat_eq
  have h2 := congrArg BitVec.toNat h
  simp only [rsvField, opcField, argField, commandWord, extract_toNat, append_toNat] at *
  simp at *
  omega

/-- Every command is well formed: its operand's type is the ARG field's (30_encoding.md R72). -/
theorem instr_wellFormed (i : Instr) : i.wellFormed = true := by
  cases i <;> simp only [Instr.wellFormed, decide_eq_true_eq]
  · exact Nat.le_of_lt_succ (BitVec.isLt _)
  · exact Bool.toNat_le _
  · exact Nat.le_of_lt_succ (BitVec.isLt _)
  · exact Nat.le_of_lt_succ (BitVec.isLt _)

namespace EncodingFields

/-- A command's word has RSV 0, the command's opcode in OPC and its operand in ARG. -/
def Statement (i : Instr) : Prop :=
  rsvField (encode i) = 0 ∧ opcField (encode i) = i.opcode ∧ argField (encode i) = i.argument

/-- The fields are those the word was built from, whatever the command. -/
theorem of_fields (i : Instr) : Statement i :=
  ⟨rsvField_commandWord _ _, opcField_commandWord _ _, argField_commandWord _ _⟩

theorem encInit : Statement .encInit := of_fields _
theorem encPush (b : Byte) : Statement (.encPush b) := of_fields _
theorem encFinal (pad : Bool) : Statement (.encFinal pad) := of_fields _
theorem decInit : Statement .decInit := of_fields _
theorem decPush (c : Byte) : Statement (.decPush c) := of_fields _
theorem decFinal : Statement .decFinal := of_fields _
theorem trnClear : Statement .trnClear := of_fields _
theorem trnPush (d : Byte) : Statement (.trnPush d) := of_fields _
theorem trnRun : Statement .trnRun := of_fields _
theorem ctrRun : Statement .ctrRun := of_fields _

end EncodingFields

end Sys2Proof.Laws
end

