-- ==== Sys2Proof/Laws/Truncator.lean ====
section
/-! SUPPORT. The digest buffer and the values TRN_RUN computes (43_hotp_truncator.md R143 to R149). -/

namespace Sys2Proof.Laws

open Sys2Proof.Machine

/-- An emptied buffer reads 0 everywhere (43_hotp_truncator.md R142). -/
theorem digestByte_clear (i : Nat) : digestByte (Vector.replicate 64 0) i = 0 := by
  unfold digestByte
  by_cases h : i < 64
  · simp [h]
  · simp [h]

/-- A byte stored in the buffer is read back, the others as before (43_hotp_truncator.md R143). -/
theorem digestByte_set (buf : Vector Byte 64) (k : Nat) (d : Byte) (hk : k < 64) (i : Nat) :
    digestByte (buf.setIfInBounds k d) i = if i = k then d else digestByte buf i := by
  unfold digestByte
  rw [Vector.getElem?_setIfInBounds]
  by_cases h : i = k
  · subst h; simp [hk]
  · simp [h, Ne.symm h]

/-- `TRN.offset` as a number (43_hotp_truncator.md R147). -/
theorem truncOffset_toNat (buf : Vector Byte 64) (len : Nat) :
    (truncOffset buf len).toNat = (digestByte buf (len - 1)).toNat % 16 := by simp [truncOffset]

/-- `TRN.p` as a number (43_hotp_truncator.md R148). -/
theorem truncValue_toNat (buf : Vector Byte 64) (o : Nat) :
    (truncValue buf o).toNat =
      (digestByte buf o).toNat % 128 * 2 ^ 24 + (digestByte buf (o + 1)).toNat * 2 ^ 16 +
        (digestByte buf (o + 2)).toNat * 2 ^ 8 + (digestByte buf (o + 3)).toNat := by
  have h : (digestByte buf o &&& 0x7F).toNat = (digestByte buf o).toNat % 128 := by
    rw [BitVec.toNat_and]
    exact Nat.and_two_pow_sub_one_eq_mod _ 7
  simp only [truncValue, append_toNat, BitVec.toNat_setWidth, h]
  omega

/-- The digits of a code are the source's decimal rendering (43_hotp_truncator.md R149). -/
theorem codeChars_eq_decimal : ∀ (dg code : Nat), codeChars code dg = Source.decimal dg code := by
  intro dg
  induction dg with
  | zero => intro code; rfl
  | succ d ih =>
    intro code
    simp only [Source.decimal, ← ih]
    simp only [codeChars, List.range_succ, List.map_append, List.map_cons, List.map_nil]
    congr 1
    · apply List.map_congr_left
      intro k hk
      have hk := List.mem_range.mp hk
      unfold decimalDigit
      obtain ⟨j, rfl⟩ : ∃ j, d = k + 1 + j := ⟨d - (k + 1), by omega⟩
      have e1 : k + 1 + j + 1 - 1 - k = j + 1 := by omega
      have e2 : k + 1 + j - 1 - k = j := by omega
      rw [e1, e2, Nat.div_div_eq_div_mul, pow_succ, Nat.mul_comm]
    · simp [decimalDigit]

/-- Digit `k` of a code, 0 past the last (43_hotp_truncator.md R149). -/
theorem codeChars_getD (dg code k : Nat) : (codeChars code dg).getD k 0 = if k < dg then decimalDigit code dg k else 0 := by
  unfold codeChars
  by_cases h : k < dg <;> simp [h, List.getD_eq_getElem?_getD]

/-- `DLEN` as a table (43_hotp_truncator.md R145). -/
theorem algDigestLength_eq_some (alg : BitVec 2) (len : Nat) :
    algDigestLength alg = some len ↔ (alg.toNat, len) ∈ [(0, 20), (1, 32), (2, 64)] := by
  have h : ∀ a : BitVec 2, algDigestLength a =
      if a.toNat = 0 then some 20 else if a.toNat = 1 then some 32 else if a.toNat = 2 then some 64 else none := by decide
  rw [h]
  simp only [List.mem_cons, List.not_mem_nil, Prod.mk.injEq, or_false]
  split_ifs <;> simp <;> omega

/-- `DLEN` is none for ALG 3 only (43_hotp_truncator.md R145). -/
theorem algDigestLength_eq_none (alg : BitVec 2) : algDigestLength alg = none ↔ alg = 3 := by
  have h : ∀ a : BitVec 2, algDigestLength a = none ↔ a = 3 := by decide
  exact h alg

/-- With the digits in range a code fits CODE (43_hotp_truncator.md R154). -/
theorem hotpCode_lt (buf : Vector Byte 64) (len : Nat) (dg : BitVec 4) (h : digitsInRange dg = true) :
    hotpCode buf len dg.toNat < 10 ^ dg.toNat ∧ 10 ^ dg.toNat ≤ 10 ^ 9 ∧ hotpCode buf len dg.toNat < 2 ^ 30 := by
  simp only [digitsInRange, Bool.and_eq_true, decide_eq_true_eq] at h
  have h1 : hotpCode buf len dg.toNat < 10 ^ dg.toNat := Nat.mod_lt _ (by positivity)
  have h2 : 10 ^ dg.toNat ≤ 10 ^ 9 := Nat.pow_le_pow_right (by omega) h.2
  refine ⟨h1, h2, ?_⟩
  have : 10 ^ 9 < 2 ^ 30 := by norm_num
  omega

end Sys2Proof.Laws
end

