-- ==== Sys2Proof/Tests/Slice0.lean ====
section
/-! SUPPORT. Tests whose expected values are the spec's (30_encoding.md, 95_test_vectors.md), the checks of WellFormed, and
a witness for the hypotheses of every statement that has some. -/

namespace Sys2Proof.Tests

open Sys2Proof.Machine

/-! ### Small states and readings -/

/-- The value of a register after an outcome that is a next state. -/
def shown (r : Reg) : Result → Option Word
  | .next t => regValue r t
  | .fault _ => none
  | .refused _ => none

/-- The outcome is a next state with the given code. -/
def endsWith (c : StatusCode) : Result → Bool
  | .next t => t.status == c
  | .fault _ => false
  | .refused _ => false

/-- The encoder of a state, with its pending bits and symbol count. -/
def encState (acc : BitVec 12) (nbits : BitVec 4) (sym : BitVec 3) : State :=
  { State.reset with enc := { EncUnit.reset with acc := acc, nbits := nbits, sym := sym } }

/-- The decoder of a state, with its pending bits, PAD and ERR. -/
def decState (acc : BitVec 12) (nbits : BitVec 4) (pad err : Bool) : State :=
  { State.reset with dec := { DecUnit.reset with acc := acc, nbits := nbits, pad := pad, err := err } }

/-- A truncator with the given bytes pushed, at most 64. -/
def trnOf (ds : List Byte) : TrnUnit :=
  { TrnUnit.reset with
    dbuf := ⟨((ds ++ List.replicate 64 0).take 64).toArray, by simp⟩
    dcount := BitVec.ofNat 7 ds.length }

/-- A state with options and a digest. -/
def trnState (digits : BitVec 4) (alg : BitVec 2) (ds : List Byte) : State :=
  { State.reset with cfgDigits := digits, cfgAlg := alg, trn := trnOf ds }

/-- The digest of trn-1 (95_test_vectors.md). -/
def digestOfCounter0 : List Byte :=
  [0xCC, 0x93, 0xCF, 0x18, 0x50, 0x8D, 0x94, 0x93, 0x4C, 0x64, 0xB6, 0x5D, 0x8B, 0xA7, 0x66, 0x7F, 0xB7, 0xCD, 0xE4, 0xB0]

/-- A state with an epoch and a step. -/
def ctrState (hi lo stepValue : Word) : State :=
  { State.reset with epochHi := hi, epochLo := lo, stepSeconds := stepValue }

/-- A state with one input to take. -/
def withInput (x : HostInput) (s : State) : State := { s with pending := [x] }

/-! ### Decoding: words written from 30_encoding.md R70 and R73 (OPC, then ARG from bit 8) -/

theorem test_decode_encInit : decode 0x00000001 = .command .encInit := by decide
theorem test_decode_encPush : decode 0x00006602 = .command (.encPush 0x66) := by decide
theorem test_decode_encFinal_pad : decode 0x00000103 = .command (.encFinal true) := by decide
theorem test_decode_encFinal_nopad : decode 0x00000003 = .command (.encFinal false) := by decide
theorem test_decode_decInit : decode 0x00000011 = .command .decInit := by decide
theorem test_decode_decPush : decode 0x00006D12 = .command (.decPush 0x6D) := by decide
theorem test_decode_decFinal : decode 0x00000013 = .command .decFinal := by decide
theorem test_decode_trnClear : decode 0x00000021 = .command .trnClear := by decide
theorem test_decode_trnPush : decode 0x0000B022 = .command (.trnPush 0xB0) := by decide
theorem test_decode_trnRun : decode 0x00000023 = .command .trnRun := by decide
theorem test_decode_ctrRun : decode 0x00000031 = .command .ctrRun := by decide

/-- The illegal words ill-1 to ill-13 of 95_test_vectors.md. -/
theorem test_decode_illegal_words :
    ([0x00000000, 0x000000FF, 0x00000004, 0x00000014, 0x00000024, 0x00000032, 0x00010002, 0x80000001, 0x00010031,
      0x00000203, 0x00000101, 0x00000121, 0x00001113] : List Nat).filterMap (decodeTableWord 32) = [] := by decide

theorem test_step_runs_the_placed_word :
    shown .encOut0 (step (State.reset.withFetchWord 32 0x00006602)) = some 0x0000004D := by decide

/-! ### WellFormed: a term each check refuses, and one it takes at the edge (30_encoding.md R72, R77 and R78) -/

theorem test_wellFormed_push_above_255 :
    (Stmt.cmd .encPush (.num 256)).wellFormed = false ∧ (Stmt.cmd .encPush (.num 255)).wellFormed = true := by decide
theorem test_wellFormed_decPush_above_255 :
    (Stmt.cmd .decPush (.num 256)).wellFormed = false ∧ (Stmt.cmd .decPush (.num 255)).wellFormed = true := by decide
theorem test_wellFormed_trnPush_above_255 :
    (Stmt.cmd .trnPush (.num 256)).wellFormed = false ∧ (Stmt.cmd .trnPush (.num 255)).wellFormed = true := by decide
theorem test_wellFormed_pad_on_push : (Stmt.cmd .encPush .pad).wellFormed = false := by decide
theorem test_wellFormed_missing_operand :
    (Stmt.cmd .encFinal .none).wellFormed = false ∧ (Stmt.cmd .decPush .none).wellFormed = false := by decide
theorem test_wellFormed_operand_on_init :
    (Stmt.cmd .decInit (.num 0)).wellFormed = false ∧ (Stmt.cmd .ctrRun .nopad).wellFormed = false := by decide
theorem test_wellFormed_number_on_final : (Stmt.cmd .encFinal (.num 1)).wellFormed = false := by decide
theorem test_wellFormed_wr_above_32_bits :
    (Stmt.wr .step (2 ^ 32)).wellFormed = false ∧ (Stmt.wr .step (2 ^ 32 - 1)).wellFormed = true := by decide
theorem test_wellFormed_wr64_above_64_bits :
    (Stmt.wr64 .epoch (2 ^ 64)).wellFormed = false ∧ (Stmt.wr64 .epoch (2 ^ 64 - 1)).wellFormed = true := by decide
theorem test_wellFormed_cfg_fields :
    (Stmt.cfg 16 0).wellFormed = false ∧ (Stmt.cfg 6 4).wellFormed = false ∧ (Stmt.cfg 15 3).wellFormed = true := by decide
theorem test_wellFormed_byte_strings :
    (Stmt.encBytes [0, 256]).wellFormed = false ∧ (Stmt.decChars [256]).wellFormed = false ∧
    (Stmt.trnDigest [256]).wellFormed = false ∧ (Stmt.encBytes [255]).wellFormed = true := by decide
theorem test_wellFormed_instr : (Instr.encPush 0xFF).wellFormed = true := by decide

/-- The assembly error of 30_encoding.md R77 is not encoded; `wr64` gives two writes, the low half first (R78). -/
theorem test_assemble_wr64 :
    assemble (.wr64 .epoch 0x4A817C800) = some [.write 0x14 4 0xA817C800, .write 0x18 4 0x00000004] ∧
    assemble (.cmd .encPush (.num 256)) = none := by decide

/-! ### One step each (95_test_vectors.md, the vector named) -/

/-- enc-13. -/
theorem test_encInit_drops_pending :
    shown .encState (exec .encInit (encState 6 3 1)) = some 0 ∧ endsWith .ok (exec .encInit (encState 6 3 1)) = true := by
  decide

/-- enc-2. -/
theorem test_encPush_first_byte :
    shown .encOut0 (exec (.encPush 0x66) State.reset) = some 0x0000004D ∧
    shown .encState (exec (.encPush 0x66) State.reset) = some 0x13 := by decide

/-- enc-4, the second byte: 3 bits 0b110 of 0x66 pending, 1 symbol shown; two symbols now. -/
theorem test_encPush_two_symbols :
    shown .encOut0 (exec (.encPush 0x6F) (encState 6 3 1)) = some 0x0000585A ∧
    shown .encState (exec (.encPush 0x6F) (encState 6 3 1)) = some 0x31 := by decide

/-- enc-2, padded. -/
theorem test_encFinal_pads :
    shown .encOut0 (exec (.encFinal true) (encState 6 3 1)) = some 0x3D3D3D59 ∧
    shown .encOut1 (exec (.encFinal true) (encState 6 3 1)) = some 0x003D3D3D := by decide

/-- enc-5, not padded: 4 bits 0b1111 of 0x6F pending after 4 symbols. -/
theorem test_encFinal_nopad :
    shown .encOut0 (exec (.encFinal false) (encState 15 4 4)) = some 0x00000036 ∧
    shown .encOutN (exec (.encFinal false) (encState 15 4 4)) = some 1 := by decide

/-- dec-15. -/
theorem test_decInit_clears_error :
    shown .decState (exec .decInit (decState 0 0 true true)) = some 0 ∧
    endsWith .ok (exec .decInit (decState 0 0 true true)) = true := by decide

/-- dec-1, the second character: `Z` after the 5 bits 0b01100 of `M`. -/
theorem test_decPush_shows_a_byte :
    shown .decOut (exec (.decPush 0x5A) (decState 12 5 false false)) = some 0x166 ∧
    shown .decState (exec (.decPush 0x7A) (decState 12 5 false false)) = some 0x02 := by decide

/-- dec-5, a symbol after a `=`. -/
theorem test_decPush_symbol_after_pad :
    shown .decState (exec (.decPush 0x58) (decState 2 2 true false)) = some 0x30 ∧
    shown .status (exec (.decPush 0x58) (decState 2 2 true false)) = some 1 := by decide

/-- dec-4 and dec-1. -/
theorem test_decFinal_verdict :
    shown .status (exec .decFinal (decState 0 0 false true)) = some 1 ∧
    shown .status (exec .decFinal (decState 2 2 true false)) = some 0 := by decide

/-- R142. -/
theorem test_trnClear_wipes :
    shown .trnState (exec .trnClear (trnState 6 0 [0xCC])) = some 0 ∧
    shown .code (exec .trnClear { State.reset with trn := TrnUnit.reset.setCode 755224 6 }) = some 0 := by decide

/-- P3, the first byte. -/
theorem test_trnPush_counts : shown .trnState (exec (.trnPush 0xCC) State.reset) = some 0x01 := by decide

/-- R143: the byte after the 64th is dropped. -/
theorem test_trnPush_overflow :
    shown .trnState (exec (.trnPush 1) { State.reset with trn := { TrnUnit.reset with dcount := 64 } }) = some 0xC0 ∧
    shown .status (exec (.trnPush 1) { State.reset with trn := { TrnUnit.reset with dcount := 64 } }) = some 4 := by decide

/-- trn-1. -/
theorem test_trnRun_six_digits :
    shown .code (exec .trnRun (trnState 6 0 digestOfCounter0)) = some 755224 ∧
    shown .codeStr0 (exec .trnRun (trnState 6 0 digestOfCounter0)) = some 0x32353537 ∧
    shown .codeStr1 (exec .trnRun (trnState 6 0 digestOfCounter0)) = some 0x00003432 := by decide +kernel

/-- trn-11: the largest offset and the largest `p`. -/
theorem test_trnRun_largest_offset :
    shown .code (exec .trnRun (trnState 9 0 (List.replicate 15 0 ++ [0xFF, 0xFF, 0xFF, 0xFF, 0x0F]))) = some 147483647 := by
  decide +kernel

/-- ctr-12: both halves of the quotient. -/
theorem test_ctrRun_wide :
    shown .counterHi (exec .ctrRun (ctrState 0xFFFFFFFF 0xFFFFFFFF 0xFFFFFFFF)) = some 1 ∧
    shown .counterLo (exec .ctrRun (ctrState 0xFFFFFFFF 0xFFFFFFFF 0xFFFFFFFF)) = some 1 := by decide

/-- ctr-13 and R172: a step of 0. -/
theorem test_ctrRun_zero_step :
    shown .status (exec .ctrRun { State.reset with stepSeconds := 0, counterLo := 0xDEAD }) = some 3 ∧
    shown .msg1 (exec .ctrRun { State.reset with stepSeconds := 0, counterLo := 0xDEAD }) = some 0xADDE0000 := by decide

/-- bus-4, bus-5, bus-8, bus-10 and bus-11: the step answers a bus error. -/
theorem test_bus_errors :
    step (withInput (.access (.read 0x04 4)) State.reset) = .fault (.busError 0x04 .read) ∧
    step (withInput (.access (.write 0x00 4 0)) State.reset) = .fault (.busError 0x00 .write) ∧
    step (withInput (.access (.read 0x58 4)) State.reset) = .fault (.busError 0x58 .read) ∧
    step (withInput (.access (.read 0x0E 4)) State.reset) = .fault (.busError 0x0E .read) ∧
    step (withInput (.access (.read 0x0C 2)) State.reset) = .fault (.busError 0x0C .read) := ⟨rfl, rfl, rfl, rfl, rfl⟩

/-- bus-12 and bus-13. -/
theorem test_cfg_keeps_its_fields :
    shown .cfg (step (withInput (writeInput .cfg 0xFFFFFF18) State.reset)) = some 0x18 ∧
    shown .cfg (step (withInput (writeInput .cfg 0x3F) State.reset)) = some 0x3F := by decide

/-- ctr-14: the message without CTR_RUN. -/
theorem test_message_bytes :
    regValue .msg0 { State.reset with counterHi := 0x01020304, counterLo := 0x05060708 } = some 0x04030201 ∧
    regValue .msg1 { State.reset with counterHi := 0x01020304, counterLo := 0x05060708 } = some 0x08070605 := by decide

/-- W4 and W5 on the source's pure functions. -/
theorem test_source_base32 :
    Source.encode [0x66, 0x6F, 0x6F] true = [0x4D, 0x5A, 0x58, 0x57, 0x36, 0x3D, 0x3D, 0x3D] ∧
    Source.decode [0x41, 0x42, 0x31, 0x4F] = none ∧
    Source.decode [0x6D, 0x7A, 0x78, 0x77, 0x36, 0x3D] = some [0x66, 0x6F, 0x6F] := by decide

/-- W6 on the source's pure functions. -/
theorem test_source_hotp :
    Source.generatedCode digestOfCounter0 6 = [0x37, 0x35, 0x35, 0x32, 0x32, 0x34] := by decide

/-! ### Witnesses: for every statement with hypotheses, a state and operands that meet them, clause by clause -/

/-- A state with every unit busy, from which a step is taken. -/
def busyState : State :=
  { State.reset with
    enc := State.reset.enc.pushByte 0x66
    dec := State.reset.dec.takeSymbol 12
    trn := trnOf [0xCC]
    pending := [runInput .decInit] }

theorem witness_EncodeOfDecodedWordIsTheWord : decode 0x00000103 = .command (.encFinal true) := by decide

theorem witness_CommandsAreTheRowsOfTheOpcodeMap :
    decode 0x0000FF02 = .command (.encPush 0xFF) ∧ 0x0000FF02#32 &&& 0xFFFF00FF#32 = 0x00000002#32 := by decide

/-- The four cases of an illegal word, each one step past a legal one. -/
theorem witness_IllegalWordsAreTheFourCases :
    decode 0x00010002 = .illegal .reservedBits ∧ decode 0x00000004 = .illegal (.unknownOpc 4) ∧
    decode 0x00000101 = .illegal (.argNotZero 1) ∧ decode 0x00000203 = .illegal .finalArg := by decide

theorem witness_StepRunsTheDecodedCommand :
    (withInput (.access (.read 0x0C 4)) State.reset).resetAsserted = false ∧
    (withInput (.access (.read 0x0C 4)) State.reset).pending = .access (.read 0x0C 4) :: [] ∧
    (withInput (.access (.write 0x04 4 0x00006602)) State.reset).resetAsserted = false ∧
    (withInput (.access (.write 0x04 4 0x00006602)) State.reset).pending = .access (.write 0x04 4 0x00006602) :: [] ∧
    decode 0x00006602 = .command (.encPush 0x66) := by decide

theorem witness_IllegalCommandChangesOnlyStatus : decode 0x00000000 = .illegal (.unknownOpc 0) := by decide

/-- The last register of the map and the first offset past it; a register of each access kind. -/
theorem witness_AccessesTheMapDoesNotAllowAreBusErrors :
    (Access.read 0x54 4).permitted = true ∧ (Access.read 0x58 4).permitted = false ∧ (Access.read 0x04 4).permitted = false ∧
    (Access.write 0x04 4 0).permitted = true ∧ (Access.write 0x20 4 0).permitted = true ∧
    (Access.write 0x24 4 0).permitted = false ∧ (Access.write 0x0C 2 0).permitted = false := by decide

theorem witness_ReadAnswersTheRegisterAndChangesNothing : Reg.codeStr2 ≠ Reg.cmd := by decide

/-- The lanes at the ends of the code string and of the message. -/
theorem witness_StreamRegisterLanesHoldTheSequence : 0 < 12 ∧ 11 < 12 ∧ 0 < 8 ∧ 7 < 8 := by decide

theorem witness_OnlyCommandsWriteStatus :
    (∃ t, answerAccess (.write 0x10 4 0) State.reset = .next t) ∧ ∃ t, answerAccess (.write 0x04 4 0) State.reset = .next t :=
  ⟨⟨_, rfl⟩, ⟨_, rfl⟩⟩

theorem witness_EveryCommandEndsWithACodeOfItsRow :
    4 ∈ [0, 2, 3, 4] ∧ decode 0x80000001 = .illegal .reservedBits := by decide

/-- For each piece of state an access that changes it. -/
theorem witness_StateChangesOnlyByItsOwner :
    (∃ t, answerAccess (.write 0x04 4 0x00006602) State.reset = .next t ∧ t.enc ≠ State.reset.enc) ∧
    (∃ t, answerAccess (.write 0x04 4 0x00004D12) State.reset = .next t ∧ t.dec ≠ State.reset.dec) ∧
    (∃ t, answerAccess (.write 0x04 4 0x0000CC22) State.reset = .next t ∧ t.trn ≠ State.reset.trn) ∧
    (∃ t, answerAccess (.write 0x04 4 0x00000031) (ctrState 1 60 30) = .next t ∧ t.counterLo ≠ State.reset.counterLo) ∧
    (∃ t, answerAccess (.write 0x20 4 1) State.reset = .next t ∧ t.counterHi ≠ State.reset.counterHi) ∧
    (∃ t, answerAccess (.write 0x0C 4 0x18) State.reset = .next t ∧ t.cfgDigits ≠ 6 ∧ t.cfgAlg ≠ 0) ∧
    (∃ t, answerAccess (.write 0x10 4 0) State.reset = .next t ∧ t.stepSeconds ≠ 30) ∧
    (∃ t, answerAccess (.write 0x14 4 59) State.reset = .next t ∧ t.epochLo ≠ 0) ∧
    (∃ t, answerAccess (.write 0x18 4 4) State.reset = .next t ∧ t.epochHi ≠ 0) := by
  refine ⟨⟨_, rfl, ?_⟩, ⟨_, rfl, ?_⟩, ⟨_, rfl, ?_⟩, ⟨_, rfl, ?_⟩, ⟨_, rfl, ?_⟩, ⟨_, rfl, ?_⟩, ⟨_, rfl, ?_⟩, ⟨_, rfl, ?_⟩,
    ⟨_, rfl, ?_⟩⟩
  all_goals decide

/-- Each unit with a command of its own and two states that agree on what its rule names and differ elsewhere; two
commands of different units. -/
theorem witness_CommandsOfDifferentUnitsDoNotInteract :
    ((∃ t, exec (.encPush 1) State.reset = .next t) ∧ (∃ t, exec (.encPush 1) (decState 0 0 true true) = .next t) ∧
      unitOf (.encPush 1) = .encoder ∧ State.reset.enc = (decState 0 0 true true).enc) ∧
    ((∃ t, exec .decFinal State.reset = .next t) ∧ (∃ t, exec .decFinal (encState 6 3 1) = .next t) ∧
      unitOf .decFinal = .decoder ∧ State.reset.dec = (encState 6 3 1).dec) ∧
    ((∃ t, exec .trnClear State.reset = .next t) ∧ (∃ t, exec .trnClear (ctrState 1 2 3) = .next t) ∧
      unitOf .trnClear = .truncator ∧ State.reset.trn = (ctrState 1 2 3).trn ∧
      regValue .cfg State.reset = regValue .cfg (ctrState 1 2 3)) ∧
    ((∃ t, exec .ctrRun State.reset = .next t) ∧ (∃ t, exec .ctrRun (encState 6 3 1) = .next t) ∧
      unitOf .ctrRun = .counterMapper ∧ State.reset.counter = (encState 6 3 1).counter ∧
      State.reset.stepSeconds = (encState 6 3 1).stepSeconds ∧ State.reset.epoch = (encState 6 3 1).epoch) ∧
    unitOf (.encPush 1) ≠ unitOf .ctrRun :=
  ⟨⟨⟨_, rfl⟩, ⟨_, rfl⟩, rfl, rfl⟩, ⟨⟨_, rfl⟩, ⟨_, rfl⟩, rfl, rfl⟩, ⟨⟨_, rfl⟩, ⟨_, rfl⟩, rfl, rfl, rfl⟩,
    ⟨⟨_, rfl⟩, ⟨_, rfl⟩, rfl, rfl, rfl, rfl⟩, by decide⟩

theorem witness_StepsTakeTheInputsInOrder : State.reset.pending = [] := rfl

/-- A step that faults, and a step that is refused. -/
theorem witness_StepsStopOnlyOnBusErrorsAndDuringReset :
    step (withInput (.access (.write 0x24 4 1)) State.reset) = .fault (.busError 0x24 .write) ∧
    step { withInput (.access (.read 0x00 4)) State.reset with resetAsserted := true } = .refused .accessDuringReset :=
  ⟨rfl, rfl⟩

/-- Pending bits at 0, 1, 2 and 4 of them. -/
theorem witness_EncPushEmitsEveryCompleteGroup :
    (encState 0 0 0).enc.Pending ∧ (encState 1 1 1).enc.Pending ∧ (encState 3 2 7).enc.Pending ∧
    (encState 15 4 4).enc.Pending := by unfold EncUnit.Pending; decide

/-- No pending bit; 4 pending bits after whole bytes; a count that is not of whole bytes. -/
theorem witness_EncFinalFlushesAndPads :
    (encState 0 0 0).enc.Pending ∧ (encState 0 0 0).enc.nbits = 0 ∧ (encState 0 0 0).enc.sym = 0 ∧
    (encState 15 4 4).enc.Pending ∧ 8 ∣ 5 * (encState 15 4 4).enc.sym.toNat + (encState 15 4 4).enc.nbits.toNat ∧
    (encState 0 0 1).enc.Pending := by unfold EncUnit.Pending; decide

theorem witness_EncoderPendingBitsStayBelowFive :
    ((encState 15 4 4).enc.Pending ∧ ∃ t, step (withInput (runInput (.encPush 0xFF)) (encState 15 4 4)) = .next t) ∧
    (∃ t, exec .encInit (encState 15 4 4) = .next t) ∧ (∃ t, exec (.encFinal true) (encState 15 4 4) = .next t) ∧
    (∃ t, runCommand 0x00000004 (encState 15 4 4) = .next t ∧ decode 0x00000004 = .illegal (.unknownOpc 4)) ∧
    (∃ t, runCommand 0x00000031 (encState 15 4 4) = .next t ∧ decode 0x00000031 = .command .ctrRun ∧
      unitOf .ctrRun ≠ .encoder) :=
  ⟨⟨by unfold EncUnit.Pending; decide, _, rfl⟩, ⟨_, rfl⟩, ⟨_, rfl⟩, ⟨_, rfl, by decide⟩, ⟨_, rfl, by decide⟩⟩

theorem witness_EncoderCountsFollowTheByteCount :
    State.reset.resetAsserted = false ∧ State.reset.enc.acc = 0 ∧ State.reset.enc.nbits = 0 ∧ State.reset.enc.sym = 0 := by
  decide

/-- An encode of one byte with a read, a register write, a command of another unit and an illegal word between. -/
theorem witness_EncodeSequenceComputesTheSourceEncode :
    let xs := [readInput .id, runInput .encInit, runInput .ctrRun, runInput (.encPush 0x66), readInput .encOut0,
      writeInput .step 0, cmdWrite 0, runInput (.encFinal true), readInput .encOut1]
    State.reset.resetAsserted = false ∧ xs.all permittedInput = true ∧
    xs.filterMap (unitCommandOf .encoder) = .encInit :: [0x66].map Instr.encPush ++ [.encFinal true] := by decide

theorem witness_EncoderShowsOnlyTheAlphabetAndTrailingPadding :
    unitOf .encInit = .encoder ∧ unitOf (.encPush 0xFF) = .encoder ∧ unitOf (.encFinal true) = .encoder := by decide

/-- The five cases of a push: a sticky error, `=`, a code outside the alphabet, a symbol after `=`, a symbol taken with
no pending bit and with 7. -/
theorem witness_DecPushTakesOneCharacter :
    ((decState 0 0 false true).dec.Pending ∧ (decState 0 0 false true).dec.err = true) ∧
    ((decState 127 7 true false).dec.Pending ∧ (decState 127 7 true false).dec.err = false ∧ (0x3D#8) = Source.padChar) ∧
    ((0x31#8) ≠ Source.padChar ∧ Source.charValue 0x31 = none) ∧
    ((0x58#8) ≠ Source.padChar ∧ (decState 127 7 true false).dec.pad = true) ∧
    (State.reset.dec.Pending ∧ State.reset.dec.err = false ∧ Source.charValue 0x4D = some 12 ∧ State.reset.dec.pad = false) ∧
    ((decState 127 7 false false).dec.Pending ∧ (decState 127 7 false false).dec.err = false ∧
      Source.charValue 0x37 = some 31 ∧ (decState 127 7 false false).dec.pad = false) := by unfold DecUnit.Pending; decide

theorem witness_DecoderPendingBitsStayBelowEight :
    ((decState 127 7 false false).dec.Pending ∧
      ∃ t, step (withInput (runInput (.decPush 0x37)) (decState 127 7 false false)) = .next t) ∧
    (∃ t, exec .decInit (decState 127 7 false false) = .next t) ∧ (∃ t, exec .decFinal (decState 127 7 false false) = .next t) ∧
    (∃ t, exec (.decPush 0x31) (decState 127 7 false false) = .next t ∧ t.status = .decodeError ∧
      (decState 127 7 false false).dec.err = false) ∧
    (∃ t, exec (.decPush 0x4D) (decState 0 0 false true) = .next t ∧ t.status = .decodeError ∧
      (decState 0 0 false true).dec.acc = 0 ∧ (decState 0 0 false true).dec.nbits = 0) :=
  ⟨⟨by unfold DecUnit.Pending; decide, _, rfl⟩, ⟨_, rfl⟩, ⟨_, rfl⟩, ⟨_, rfl, by decide⟩, ⟨_, rfl, by decide⟩⟩

theorem witness_DecodeErrorIsStickyUntilInitOrFinal :
    (decState 0 0 false true).resetAsserted = false ∧ (decState 0 0 false true).dec.err = true ∧
    [runInput (.decPush 0x4F), readInput .decOut, runInput .encInit].all (fun x =>
      permittedInput x && decide (commandOf x ≠ some .decInit) && decide (commandOf x ≠ some .decFinal)) = true := by decide

/-- A decode of `AB1O` with a read and a command of another unit between. -/
theorem witness_DecodeSequenceComputesTheSourceDecode :
    let xs := [runInput .decInit, runInput (.decPush 0x41), readInput .decOut, runInput (.decPush 0x42), runInput .encInit,
      runInput (.decPush 0x31), runInput (.decPush 0x4F)]
    State.reset.resetAsserted = false ∧ xs.all permittedInput = true ∧
    xs.filterMap (unitCommandOf .decoder) = .decInit :: [0x41, 0x42, 0x31, 0x4F].map Instr.decPush := by decide

theorem witness_DecodingTheEncodersOutputGivesTheBytesBack : State.reset.resetAsserted = false := rfl

/-- The last byte that fits, and the first that does not. -/
theorem witness_TrnPushAppendsOneDigestByte :
    (TrnUnit.dcount { TrnUnit.reset with dcount := 63 }).toNat < 64 ∧
    64 ≤ (TrnUnit.dcount { TrnUnit.reset with dcount := 64 }).toNat := by decide

/-- The shortest digest with 6 digits and the longest with 9. -/
theorem witness_TrnRunTruncatesAndReduces :
    (((trnState 6 0 digestOfCounter0).cfgAlg.toNat, 20) ∈ [(0, 20), (1, 32), (2, 64)] ∧
      6 ≤ (trnState 6 0 digestOfCounter0).cfgDigits.toNat ∧ (trnState 6 0 digestOfCounter0).cfgDigits.toNat ≤ 9 ∧
      (trnState 6 0 digestOfCounter0).trn.ovf = false ∧ (trnState 6 0 digestOfCounter0).trn.dcount.toNat = 20) ∧
    (((trnState 9 2 (List.replicate 64 0xFF)).cfgAlg.toNat, 64) ∈ [(0, 20), (1, 32), (2, 64)] ∧
      6 ≤ (trnState 9 2 (List.replicate 64 0xFF)).cfgDigits.toNat ∧ (trnState 9 2 (List.replicate 64 0xFF)).cfgDigits.toNat ≤ 9 ∧
      (trnState 9 2 (List.replicate 64 0xFF)).trn.ovf = false ∧
      (trnState 9 2 (List.replicate 64 0xFF)).trn.dcount.toNat = 64) := by decide

/-- Each cause, alone; the digit counts next to the range; a digest one byte short. -/
theorem witness_TrnRunReportsTheFirstCause :
    (trnState 6 3 []).cfgAlg = 3 ∧
    ((trnState 5 0 []).cfgAlg ≠ 3 ∧ ¬(6 ≤ (trnState 5 0 []).cfgDigits.toNat ∧ (trnState 5 0 []).cfgDigits.toNat ≤ 9)) ∧
    ((trnState 10 0 []).cfgAlg ≠ 3 ∧ ¬(6 ≤ (trnState 10 0 []).cfgDigits.toNat ∧ (trnState 10 0 []).cfgDigits.toNat ≤ 9)) ∧
    ((trnState 9 1 digestOfCounter0).cfgAlg ≠ 3 ∧
      (6 ≤ (trnState 9 1 digestOfCounter0).cfgDigits.toNat ∧ (trnState 9 1 digestOfCounter0).cfgDigits.toNat ≤ 9) ∧
      ¬((trnState 9 1 digestOfCounter0).trn.ovf = false ∧
        ((trnState 9 1 digestOfCounter0).cfgAlg.toNat, (trnState 9 1 digestOfCounter0).trn.dcount.toNat) ∈
          [(0, 20), (1, 32), (2, 64)])) := by decide

theorem witness_TrnRunConsumesTheDigest :
    (trnState 6 0 digestOfCounter0).cfgAlg ≠ 3 ∧ 6 ≤ (trnState 6 0 digestOfCounter0).cfgDigits.toNat ∧
    (trnState 6 0 digestOfCounter0).cfgDigits.toNat ≤ 9 := by decide

/-- A digest pushed with a read, a write of STEP and a command of another unit between. -/
theorem witness_DigestSequenceComputesTheSourceCode :
    let xs := [readInput .cfg, runInput .trnClear, writeInput .step 1, runInput .encInit] ++
      digestOfCounter0.map fun d => runInput (.trnPush d)
    State.reset.resetAsserted = false ∧ (0, digestOfCounter0.length) ∈ [(0, 20), (1, 32), (2, 64)] ∧
    xs.all (fun x => permittedInput x && !writesCfg x) = true ∧
    xs.filterMap (unitCommandOf .truncator) = .trnClear :: digestOfCounter0.map Instr.trnPush := by decide +kernel

/-- Buffers that agree on the digest and differ past it. -/
theorem witness_TruncationWindowLiesInsideTheDigest :
    algDigestLength 0 = some 20 ∧ algDigestLength 2 = some 64 ∧
    (∀ i, i < 20 → digestByte (trnOf digestOfCounter0).dbuf i = digestByte (trnOf (digestOfCounter0 ++ [0xFF])).dbuf i) ∧
    digestByte (trnOf digestOfCounter0).dbuf 20 ≠ digestByte (trnOf (digestOfCounter0 ++ [0xFF])).dbuf 20 := by decide

theorem witness_CodesFillTheirRange :
    (∃ t, exec .trnRun (trnState 6 0 digestOfCounter0) = .next t ∧ t.trn.codeValid = true) ∧ 999999999 < 10 ^ 9 ∧
    ((trnState 5 0 []).cfgAlg ≠ 3 ∧ (trnState 5 0 []).cfgDigits.toNat < 6) ∧
    ((trnState 10 2 []).cfgAlg ≠ 3 ∧ 9 < (trnState 10 2 []).cfgDigits.toNat) := by
  refine ⟨⟨_, rfl, ?_⟩, ?_⟩
  all_goals decide

theorem witness_CtrRunDividesTheEpoch :
    (ctrState 0 59 1).stepSeconds ≠ 0 ∧ (ctrState 0 59 0xFFFFFFFF).stepSeconds ≠ 0 ∧ (ctrState 0 59 0).stepSeconds = 0 := by
  decide

theorem witness_MessageIsTheCounterBigEndian : 0 < 8 ∧ 3 < 4 ∧ ¬4 < 4 ∧ 7 < 8 := by decide

theorem witness_CounterSequenceComputesTheSourceCounter :
    State.reset.resetAsserted = false ∧ 2 ^ 64 - 1 < 2 ^ 64 ∧ 1 ≤ 2 ^ 32 - 1 ∧ 2 ^ 32 - 1 < 2 ^ 32 := by decide

/-- An asserted level, a release, and a level that was and stays not asserted. -/
theorem witness_ResetInputRestoresTheResetState :
    ((withInput (.resetLine true) State.reset).pending = .resetLine true :: []) ∧
    (({ withInput (.resetLine false) State.reset with resetAsserted := true } : State).pending = .resetLine false :: [] ∧
      ({ withInput (.resetLine false) State.reset with resetAsserted := true } : State).resetAsserted = true) ∧
    ((withInput (.resetLine false) State.reset).pending = .resetLine false :: [] ∧
      (withInput (.resetLine false) State.reset).resetAsserted = false) := by decide

theorem witness_InitCommandsAndWritesRestoreTheResetState :
    (encState 6 3 1).resetAsserted = false ∧
    [runInput .decInit, runInput .encInit, runInput .trnClear, writeInput .cfg 6, writeInput .step 30,
      writeInput .epochLo 0, writeInput .epochHi 0, writeInput .counterLo 0, writeInput .counterHi 0].Perm
      [runInput .encInit, runInput .decInit, runInput .trnClear, writeInput .cfg 6, writeInput .step 30,
      writeInput .epochLo 0, writeInput .epochHi 0, writeInput .counterLo 0, writeInput .counterHi 0] :=
  ⟨rfl, List.Perm.swap _ _ _⟩

/-- The busy state meets the invariant and takes a step. -/
theorem witness_EveryStepKeepsTheMachineInvariant : busyState.Inv ∧ ∃ t, step busyState = .next t := by
  refine ⟨⟨⟨by unfold EncUnit.Pending; decide, by decide, by decide, ?_, ?_⟩, ⟨by unfold DecUnit.Pending; decide, by decide, by decide⟩,
    ⟨by decide, ?_, by decide, fun h => absurd h (by decide), fun _ => ⟨rfl, rfl, rfl, rfl⟩⟩,
    fun h => absurd h (by decide)⟩, ⟨_, rfl⟩⟩
  · have : ∀ k : Fin 8, busyState.enc.outN.toNat ≤ k.val → encLane busyState.enc k.val = 0 := by decide
    exact fun k h1 h2 => this ⟨k, h2⟩ h1
  · have : ∀ k : Fin 8, k.val < busyState.enc.outN.toNat → encLane busyState.enc k.val ∈ Source.alphabet := by decide
    exact fun k h => .inl (this ⟨k, lt_trans h (by decide)⟩ h)
  · intro i hi
    by_cases h : i < 64
    · have : ∀ i : Fin 64, 1 ≤ i.val → digestByte (trnOf [0xCC]).dbuf i.val = 0 := by decide +kernel
      exact this ⟨i, h⟩ hi
    · simp [digestByte, show ¬i < 64 from h]

/-- Each command that wipes, and a push that fails. -/
theorem witness_SecretsAreWiped :
    (∃ t, exec (.encFinal true) (encState 15 4 4) = .next t) ∧ (∃ t, exec .decFinal (decState 127 7 false false) = .next t) ∧
    (∃ t, exec (.decPush 0x31) (decState 127 7 false false) = .next t ∧ (decState 127 7 false false).dec.err = false ∧
      t.status = .decodeError) ∧
    (∃ t, exec .trnRun (trnState 6 0 digestOfCounter0) = .next t) ∧ (encState 15 4 4).resetAsserted = false :=
  ⟨⟨_, rfl⟩, ⟨_, rfl⟩, ⟨_, rfl, by decide⟩, ⟨_, rfl⟩, rfl⟩

/-- States that agree on the counts and differ in the data; for the decoder two symbols with 0 and with 7 bits pending,
two codes outside the alphabet, and `=`. -/
theorem witness_ReadableCountsDoNotDependOnData :
    ((encState 0 3 1).enc.nbits = (encState 7 3 1).enc.nbits ∧ (encState 0 3 1).enc.sym = (encState 7 3 1).enc.sym ∧
      (∃ t, exec (.encPush 0) (encState 0 3 1) = .next t) ∧ ∃ t, exec (.encPush 0xFF) (encState 7 3 1) = .next t) ∧
    (regValue .decState (decState 0 7 false false) = regValue .decState (decState 127 7 false false) ∧
      (∃ t, exec (.decPush 0x41) (decState 0 7 false false) = .next t) ∧
      (∃ t, exec (.decPush 0x37) (decState 127 7 false false) = .next t) ∧
      (∃ t, exec (.decPush 0x41) State.reset = .next t) ∧ (∃ t, exec (.decPush 0x37) State.reset = .next t) ∧
      (0x41#8 = Source.padChar ↔ 0x37#8 = Source.padChar) ∧
      (Source.charValue 0x41 = none ↔ Source.charValue 0x37 = none) ∧
      (0x31#8 = Source.padChar ↔ 0x38#8 = Source.padChar) ∧
      (Source.charValue 0x31 = none ↔ Source.charValue 0x38 = none) ∧ 0x3D#8 = Source.padChar) ∧
    (regValue .trnState (trnState 6 0 [0]) = regValue .trnState (trnState 6 0 [0xFF]) ∧
      (∃ t, exec (.trnPush 0) (trnState 6 0 [0]) = .next t) ∧ ∃ t, exec (.trnPush 0xFF) (trnState 6 0 [0xFF]) = .next t) :=
  ⟨⟨rfl, rfl, ⟨_, rfl⟩, ⟨_, rfl⟩⟩, ⟨by decide, ⟨_, rfl⟩, ⟨_, rfl⟩, ⟨_, rfl⟩, ⟨_, rfl⟩, by decide⟩,
    ⟨by decide, ⟨_, rfl⟩, ⟨_, rfl⟩⟩⟩

theorem witness_StatementsAssembleToTheirAccesses :
    255 ≤ 255 ∧ 255 < 256 ∧ Mnemonic.encPush ≠ .encFinal ∧ 2 ^ 32 - 1 < 2 ^ 32 ∧ 2 ^ 64 - 1 < 2 ^ 64 ∧ 15 ≤ 15 ∧ 3 ≤ 3 := by
  decide

end Sys2Proof.Tests
end

section
/-! Stream registers: element `k` of a sequence is lane `k mod 4` of word `k / 4` (00_scope.md R14). -/

namespace Sys2Proof.Laws

open Sys2Proof.Machine

/-- The lane of a stream register that shows element `k` (00_scope.md R14). -/
theorem laneOf_streamWord_div_mod (xs : List Byte) (k : Nat) :
    laneOf (streamWord xs (k / 4)) (k % 4) = xs.getD k 0 := by
  rw [laneOf_streamWord _ _ _ (Nat.mod_lt k (by decide)), Nat.div_add_mod]

/-- Byte `k` of the message, most significant first (44_totp_counter_mapper.md R175). -/
theorem msgBytes_getD (counter : BitVec 64) (k : Nat) (h : k < 8) :
    (msgBytes counter).getD k 0 = counter.extractLsb' (56 - 8 * k) 8 := by
  simp [msgBytes, List.getD_eq_getElem?_getD, h]

/-- The word of MSG0 and MSG1 that holds message byte `k`. -/
theorem regValue_msg_eq_streamWord (s : State) (k : Nat) (h : k < 8) :
    (if k < 4 then regValue .msg0 s else regValue .msg1 s) = some (streamWord (msgBytes s.counter) (k / 4)) := by
  by_cases hk : k < 4
  · rw [if_pos hk, Nat.div_eq_of_lt hk, regValue]
  · rw [if_neg hk, show k / 4 = 1 by omega, regValue]

/-- Lane `k` of the message registers (44_totp_counter_mapper.md R175). -/
theorem msgLane_eq_extract (s : State) (k : Nat) (h : k < 8) :
    msgLane s k = s.counter.extractLsb' (56 - 8 * k) 8 := by
  rw [msgLane, regValue_msg_eq_streamWord s k h, Option.getD_some, laneOf_streamWord_div_mod, msgBytes_getD _ k h]

/-- Settles O12: the lane law of `streamWord`, which the output, code and message registers share. -/
theorem streamRegisterLanesHoldTheSequence : Obligations.StreamRegisterLanesHoldTheSequence := by
  refine ⟨fun xs k => ?_, fun out e => ⟨setOut_out0 out e, setOut_out1 out e⟩, fun code dg t k hk => ?_,
    msgLane_eq_extract⟩
  · rw [← laneOf_toNat, laneOf_streamWord_div_mod]
  · rw [codeLane_setCode code dg t k hk, codeChars_getD, decimalDigit]

end Sys2Proof.Laws
end

section
/-! What an answered access can do, by kind: a read, a store into one RW register, a command, or an illegal word
(40_host_access.md R90 to R96). -/

namespace Sys2Proof.Laws

open Sys2Proof.Machine

/-- A command changes its unit's state and STATUS.ERR only (10_state.md R43). -/
theorem exec_frame {i : Instr} {s t : State} (h : exec i s = .next t) :
    t = { s with
      status := t.status, enc := t.enc, dec := t.dec, trn := t.trn, counterLo := t.counterLo
      counterHi := t.counterHi } ∧
    (unitOf i ≠ .encoder → t.enc = s.enc) ∧ (unitOf i ≠ .decoder → t.dec = s.dec) ∧
    (unitOf i ≠ .truncator → t.trn = s.trn) ∧
    (unitOf i ≠ .counterMapper → t.counterLo = s.counterLo ∧ t.counterHi = s.counterHi) := by
  obtain ⟨c, e, d, u, lo, hi, he, henc, hdec, htrn, hctr⟩ := exec_next i s
  obtain rfl := Host.Outcome.next.inj (he.symm.trans h)
  exact ⟨rfl, henc, hdec, htrn, hctr⟩

/-- No command changes CFG, STEP or EPOCH, nor the level of the reset input, nor the inputs to come (10_state.md
R43). -/
theorem exec_keeps_options {i : Instr} {s t : State} (h : exec i s = .next t) :
    t.cfgDigits = s.cfgDigits ∧ t.cfgAlg = s.cfgAlg ∧ t.stepSeconds = s.stepSeconds ∧ t.epochLo = s.epochLo ∧
    t.epochHi = s.epochHi ∧ t.resetAsserted = s.resetAsserted ∧ t.pending = s.pending := by
  rw [(exec_frame h).1]
  exact ⟨rfl, rfl, rfl, rfl, rfl, rfl, rfl⟩

/-- A command does not look at STATUS.ERR, and overwrites it (10_state.md R24). -/
theorem exec_setStatus (i : Instr) (s : State) (c : StatusCode) : exec i { s with status := c } = exec i s := by
  cases hu : unitOf i with
  | encoder => obtain ⟨f, hf⟩ := exec_encoder i hu; rw [hf, hf]
  | decoder => obtain ⟨f, hf⟩ := exec_decoder i hu; rw [hf, hf]
  | truncator => obtain ⟨f, hf⟩ := exec_truncator i hu; rw [hf, hf]
  | counterMapper => obtain ⟨f, hf⟩ := exec_counterMapper i hu; rw [hf, hf]; rfl

/-- A word written to CMD overwrites STATUS.ERR whatever it was, an illegal one too (10_state.md R24). -/
theorem runCommand_setStatus (w : Word) (s : State) (c : StatusCode) :
    runCommand w { s with status := c } = runCommand w s := by
  cases hd : decode w with
  | command i => rw [runCommand_command hd, runCommand_command hd, exec_setStatus]
  | illegal why => rw [runCommand_illegal hd, runCommand_illegal hd]

/-- A register write touches no unit, not the level of the reset input and not the inputs to come (40_host_access.md
R93). -/
theorem writeReg_keeps_units {r : Reg} {v : Word} {s t : State} (h : writeReg r v s = some t) :
    t.enc = s.enc ∧ t.dec = s.dec ∧ t.trn = s.trn ∧ t.resetAsserted = s.resetAsserted ∧ t.pending = s.pending := by
  rw [(writeReg_frame h).1]
  exact ⟨rfl, rfl, rfl, rfl, rfl⟩

/-- The effect of an answered access: a read, a register write, a command, or an illegal word. -/
theorem answerAccess_effect {a : Access} {s t : State} (h : answerAccess a s = .next t) :
    (∃ v, t = { s with reads := s.reads ++ [v] }) ∨
    (∃ r v, a = .write (Reg.offset r) 4 v ∧ writeReg r v s = some t) ∨
    (∃ i w, a = .write 0x04 4 w ∧ commandOf (.access a) = some i ∧ exec i s = .next t) ∨
    (∃ w, a = .write 0x04 4 w ∧ t = { s with status := .illegalCommand }) := by
  rcases answerAccess_cases h with ⟨r, v, -, -, ht⟩ | ⟨r, v, ha, -, hw⟩ | ⟨w, ha, hw⟩
  · exact .inl ⟨v, ht⟩
  · exact .inr (.inl ⟨r, v, ha, hw⟩)
  · cases hd : decode w with
    | command i =>
      rw [runCommand_command hd] at hw
      exact .inr (.inr (.inl ⟨i, w, ha, ha ▸ commandOf_cmdWrite hd, hw⟩))
    | illegal why =>
      rw [runCommand_illegal hd] at hw
      exact .inr (.inr (.inr ⟨w, ha, (Host.Outcome.next.inj hw).symm⟩))

/-- The units an answered access changes, it changes by a command; and no access touches the reset input's level. -/
theorem answerAccess_units {a : Access} {s t : State} (h : answerAccess a s = .next t) :
    t.resetAsserted = s.resetAsserted ∧
    ((t.enc = s.enc ∧ t.dec = s.dec ∧ t.trn = s.trn) ∨ ∃ i, exec i s = .next t) := by
  rcases answerAccess_effect h with ⟨v, rfl⟩ | ⟨r, v, -, hw⟩ | ⟨i, w, -, -, he⟩ | ⟨w, -, rfl⟩
  · exact ⟨rfl, .inl ⟨rfl, rfl, rfl⟩⟩
  · obtain ⟨henc, hdec, htrn, hreset, -⟩ := writeReg_keeps_units hw
    exact ⟨hreset, .inl ⟨henc, hdec, htrn⟩⟩
  · obtain ⟨-, -, -, -, -, hreset, -⟩ := exec_keeps_options he
    exact ⟨hreset, .inr ⟨i, he⟩⟩
  · exact ⟨rfl, .inl ⟨rfl, rfl, rfl⟩⟩

end Sys2Proof.Laws
end

section
/-! The machine invariant, unit by unit: each update of a unit's state keeps the unit's invariant, so every command does,
so every access does, so every step does (41_base32_encoder.md R106 to R109, 42_base32_decoder.md R126 and R128,
43_hotp_truncator.md R142, R143 and R152, 70_reset_and_hazards.md R230). -/

namespace Sys2Proof.Laws

open Sys2Proof.Machine

/-! ### base32_encoder -/

/-- A character the encoder may show (41_base32_encoder.md R109). -/
def IsEncoderChar (c : Byte) : Prop := c ∈ Source.alphabet ∨ c = Source.padChar

theorem isEncoderChar_symbol {i : Nat} (h : i < 32) : IsEncoderChar (Source.symbol i) :=
  .inl (symbolCode_eq_alphabet i h ▸ (symbolCode_mem_alphabet _).1)

/-- Showing at most 8 characters of the alphabet or `=` establishes what the invariant says of the output registers; the
stream's part is that of the encoder they are shown on. -/
theorem setOut_inv {e : EncUnit} {out : List Byte} (hp : e.Pending) (hb : 8 ∣ 5 * e.sym.toNat + e.nbits.toNat)
    (hlen : out.length ≤ 8) (hout : ∀ c ∈ out, IsEncoderChar c) : (e.setOut out).Inv := by
  have hN : (e.setOut out).outN.toNat = out.length := by
    rw [setOut_outN, BitVec.toNat_ofNat, Nat.mod_eq_of_lt (by omega)]
  refine ⟨hp, hb, hN ▸ hlen, fun k hk hk8 => ?_, fun k hk => ?_⟩
  · rw [hN] at hk
    rw [encLane_setOut out e k hk8, List.getD_eq_default _ _ hk]
  · rw [hN] at hk
    rw [encLane_setOut out e k (by omega), List.getD_eq_getElem _ _ hk]
    exact hout _ (List.getElem_mem hk)

/-- So do characters shown on a cleared stream, as ENC_INIT and ENC_FINAL show them (41_base32_encoder.md R103 and
R105). -/
theorem clearStream_setOut_inv (e : EncUnit) {out : List Byte} (hlen : out.length ≤ 8)
    (hout : ∀ c ∈ out, IsEncoderChar c) : (e.clearStream.setOut out).Inv :=
  setOut_inv (clearStream_pending e) (by simp) hlen hout

theorem encReset_inv : EncUnit.reset.Inv :=
  clearStream_setOut_inv EncUnit.reset (out := []) (Nat.zero_le 8) fun _ h => nomatch h

/-- ENC_PUSH keeps the encoder's invariant: 8 bits come in, 5 go out with each symbol (41_base32_encoder.md R107). -/
theorem pushByte_inv {e : EncUnit} (h : e.Inv) (b : Byte) : (e.pushByte b).Inv := by
  have hp := pushByte_pending e b h.pending
  obtain ⟨-, hnbits, hsym, -⟩ := pushByte_fields e b h.pending
  have hbits : 8 ∣ 5 * (e.pushByte b).sym.toNat + (e.pushByte b).nbits.toNat := by
    have := h.bits_conserved
    rw [hnbits, hsym]
    omega
  obtain ⟨-, heq⟩ := pushByte_eq e b h.pending
  rw [heq] at hp hbits ⊢
  refine setOut_inv hp hbits ?_ fun c hc => ?_
  · have := h.pending.1
    rw [List.length_map, List.length_range]
    omega
  · obtain ⟨k, -, rfl⟩ := List.mem_map.mp hc
    exact isEncoderChar_symbol (Nat.mod_lt _ (by decide))

/-- ENC_FINAL establishes the encoder's invariant: the stream is cleared, and the last symbol and the `=` are shown
(41_base32_encoder.md R105). -/
theorem finish_inv (e : EncUnit) (pad : Bool) : (e.finish pad).Inv := by
  obtain ⟨heq, hlen, -⟩ := finish_out e pad
  rw [heq]
  refine clearStream_setOut_inv e hlen fun c hc => ?_
  rcases List.mem_append.mp hc with hlast | hpad
  · split at hlast
    · exact nomatch hlast
    · rw [List.mem_singleton.mp hlast]
      exact isEncoderChar_symbol (Nat.mod_lt _ (by decide))
  · exact .inr (List.eq_of_mem_replicate hpad)

theorem exec_keeps_enc_inv {i : Instr} {s t : State} (he : exec i s = .next t) (h : s.enc.Inv) : t.enc.Inv := by
  cases i with
  | encInit => obtain rfl := Host.Outcome.next.inj he; exact encReset_inv
  | encPush b => obtain rfl := Host.Outcome.next.inj he; exact pushByte_inv h b
  | encFinal pad => obtain rfl := Host.Outcome.next.inj he; exact finish_inv s.enc pad
  | _ =>
    obtain ⟨-, henc, -⟩ := exec_frame he
    rw [henc (by simp [unitOf])]
    exact h

/-! ### base32_decoder -/

theorem decReset_inv : DecUnit.reset.Inv :=
  ⟨⟨Nat.zero_le _, Nat.zero_lt_one⟩, nofun, fun _ => rfl⟩

/-- Showing no byte keeps the decoder's invariant. -/
theorem clearOut_inv {d : DecUnit} (h : d.Inv) : d.clearOut.Inv :=
  ⟨h.pending, fun he => ⟨(h.error_empty he).1, (h.error_empty he).2.1, rfl⟩, fun _ => rfl⟩

/-- A `=` accepted keeps the decoder's invariant (42_base32_decoder.md R122). -/
theorem setPad_inv {d : DecUnit} (h : d.Inv) (p : Bool) : ({ d with pad := p } : DecUnit).Inv :=
  ⟨h.pending, h.error_empty, h.byte_valid⟩

/-- A failed push clears the pending bits (42_base32_decoder.md R126). -/
theorem failStream_inv (d : DecUnit) : d.failStream.Inv :=
  ⟨⟨Nat.zero_le _, Nat.zero_lt_one⟩, fun _ => ⟨rfl, rfl, rfl⟩, fun _ => rfl⟩

/-- With VALID 0 a symbol shows the byte 0 (10_state.md R36). -/
theorem takeSymbol_outByte (v : BitVec 5) (d : DecUnit) (h : (d.takeSymbol v).outValid = false) :
    (d.takeSymbol v).outByte = 0 := by
  have hnone := Option.not_isSome_iff_eq_none.mp (Bool.not_eq_true _ ▸ h)
  exact congrArg (Option.getD · 0) hnone

/-- A symbol taken, with no error pending, keeps the decoder's invariant (42_base32_decoder.md R122 and R126). -/
theorem takeSymbol_inv {d : DecUnit} (h : d.Inv) (herr : d.err = false) {v : Nat} (hv : v < 32) :
    (d.takeSymbol (BitVec.ofNat 5 v)).Inv :=
  ⟨takeSymbol_pending d v hv h.pending, fun he => absurd (herr.symm.trans he) (by decide), takeSymbol_outByte _ d⟩

theorem exec_keeps_dec_inv {i : Instr} {s t : State} (he : exec i s = .next t) (h : s.dec.Inv) : t.dec.Inv := by
  cases i with
  | decInit => obtain rfl := Host.Outcome.next.inj he; exact decReset_inv
  | decFinal => obtain rfl := Host.Outcome.next.inj he; exact decReset_inv
  | decPush c =>
    rcases decPush_cases c s with ⟨-, hx⟩ | ⟨-, -, hx⟩ | ⟨-, -, -, hx⟩ | ⟨v, herr, -, -, hv, hx⟩ <;>
      obtain rfl := Host.Outcome.next.inj (hx.symm.trans he)
    · exact clearOut_inv h
    · exact setPad_inv (clearOut_inv h) true
    · exact failStream_inv s.dec
    · exact takeSymbol_inv h herr hv
  | _ =>
    obtain ⟨-, -, hdec, -⟩ := exec_frame he
    rw [hdec (by simp [unitOf])]
    exact h

/-! ### hotp_truncator -/

theorem trnReset_inv : TrnUnit.reset.Inv :=
  ⟨Nat.zero_le 64, fun i _ => digestByte_clear i, nofun, nofun,
    fun _ => ⟨rfl, rfl, rfl, rfl⟩⟩

/-- A digest byte stored below the end of the buffer keeps the truncator's invariant (43_hotp_truncator.md R143). -/
theorem pushDigest_inv {t : TrnUnit} (h : t.Inv) (d : Byte) (hlt : t.dcount.toNat < 64) :
    ({ t with dbuf := t.dbuf.setIfInBounds t.dcount.toNat d, dcount := t.dcount + 1 } : TrnUnit).Inv := by
  have hcount : (t.dcount + 1).toNat = t.dcount.toNat + 1 := by
    rw [BitVec.toNat_add]
    exact Nat.mod_eq_of_lt (by simp; omega)
  refine ⟨?_, fun i hi => ?_, fun hovf => ?_, h.code_valid, h.code_invalid⟩
  · rw [hcount]; omega
  · rw [hcount] at hi
    rw [digestByte_set _ _ _ hlt, if_neg (by omega)]
    exact h.dbuf_past_end i (by omega)
  · exact absurd (h.ovf_full hovf) (by omega)

/-- A byte pushed onto a full buffer is remembered as an overflow (43_hotp_truncator.md R143). -/
theorem setOvf_inv {t : TrnUnit} (h : t.Inv) (hfull : ¬t.dcount.toNat < 64) :
    ({ t with ovf := true } : TrnUnit).Inv :=
  ⟨h.dcount_le, h.dbuf_past_end, fun _ => le_antisymm h.dcount_le (not_lt.mp hfull), h.code_valid, h.code_invalid⟩

/-- A code of a digit count in the range, once set, is shown in CODE and CODE_STR (10_state.md R39 and R40). -/
theorem setCode_showsCode (t : TrnUnit) {code dg : Nat} (h6 : 6 ≤ dg) (h9 : dg ≤ 9) (hlt : code < 10 ^ dg)
    (hfits : code < 2 ^ 30) : (t.setCode code dg).ShowsCode := by
  have hcode : (t.setCode code dg).code.toNat = code := by
    rw [setCode_code, BitVec.toNat_ofNat, Nat.mod_eq_of_lt hfits]
  refine ⟨dg, h6, h9, by rwa [hcode], fun k hk => ?_⟩
  rw [codeLane_setCode code dg t k hk, hcode, codeChars_eq_decimal]

/-- A successful TRN_RUN shows its code and empties the buffer (43_hotp_truncator.md R144 and R151). -/
theorem setCode_clearDigest_inv (t : TrnUnit) (len : Nat) {dg : BitVec 4} (h : digitsInRange dg = true) :
    ((t.setCode (hotpCode t.dbuf len dg.toNat) dg.toNat).clearDigest).Inv := by
  obtain ⟨hlt, -, hfits⟩ := hotpCode_lt t.dbuf len dg h
  simp only [digitsInRange, Bool.and_eq_true, decide_eq_true_eq] at h
  exact ⟨Nat.zero_le 64, fun i _ => digestByte_clear i, nofun,
    fun _ => setCode_showsCode t h.1 h.2 hlt hfits, fun hv => nomatch hv⟩

theorem exec_keeps_trn_inv {i : Instr} {s t : State} (he : exec i s = .next t) (h : s.trn.Inv) : t.trn.Inv := by
  cases i with
  | trnClear => obtain rfl := Host.Outcome.next.inj he; exact trnReset_inv
  | trnPush d =>
    simp only [exec, execTrnPush] at he
    split at he <;> obtain rfl := Host.Outcome.next.inj he
    · exact pushDigest_inv h d ‹_›
    · exact setOvf_inv h ‹_›
  | trnRun =>
    rcases exec_trnRun s with ⟨len, -, hdg, -, -, -, hx⟩ | ⟨-, hx⟩ <;>
      obtain rfl := Host.Outcome.next.inj (hx.symm.trans he)
    · exact setCode_clearDigest_inv s.trn len hdg
    · exact trnReset_inv
  | _ =>
    obtain ⟨-, -, -, htrn, -⟩ := exec_frame he
    rw [htrn (by simp [unitOf])]
    exact h

/-! ### The machine -/

/-- The inputs still to come are no part of the machine invariant. -/
theorem inv_setPending {s : State} (h : s.Inv) (p : List HostInput) : ({ s with pending := p } : State).Inv :=
  ⟨h.enc, h.dec, h.trn, fun hr => (congrArg (fun u : State => { u with pending := p }) (h.reset hr) :)⟩

theorem answerAccess_keeps_inv {a : Access} {s t : State} (h : s.Inv) (hr : s.resetAsserted = false)
    (ha : answerAccess a s = .next t) : t.Inv := by
  obtain ⟨hlevel, hunits⟩ := answerAccess_units ha
  have hreset : t.resetAsserted = true → t.AtReset := fun ht => absurd (hlevel ▸ ht) (by simp [hr])
  rcases hunits with ⟨henc, hdec, htrn⟩ | ⟨i, he⟩
  · exact ⟨henc ▸ h.enc, hdec ▸ h.dec, htrn ▸ h.trn, hreset⟩
  · exact ⟨exec_keeps_enc_inv he h.enc, exec_keeps_dec_inv he h.dec, exec_keeps_trn_inv he h.trn, hreset⟩

/-- A level of the reset input leaves the state or brings it to its reset value (70_reset_and_hazards.md R230). -/
theorem driveReset_keeps_inv {s : State} (h : s.Inv) (b : Bool) : (driveReset b s).Inv := by
  rcases driveReset_cases b s with ⟨he, -, -⟩ | he <;> rw [he]
  · exact h
  · exact ⟨encReset_inv, decReset_inv, trnReset_inv, fun _ => rfl⟩

theorem takeInput_keeps_inv {x : HostInput} {s t : State} (h : s.Inv) (hx : takeInput x s = .next t) : t.Inv := by
  cases x with
  | resetLine b => obtain rfl := Host.Outcome.next.inj hx; exact driveReset_keeps_inv h b
  | access a =>
    cases hr : s.resetAsserted with
    | true => simp [takeInput, hr] at hx
    | false =>
      simp only [takeInput, hr, Bool.false_eq_true, if_false] at hx
      exact answerAccess_keeps_inv h hr hx

/-- Settles O49: a step takes one input, and the units' updates keep the units' invariants. -/
theorem everyStepKeepsTheMachineInvariant : Obligations.EveryStepKeepsTheMachineInvariant := by
  intro s s' h hs
  cases hp : s.pending with
  | nil =>
    rw [step_nil hp] at hs
    obtain rfl := Host.Outcome.next.inj hs
    exact h
  | cons x rest =>
    rw [step_cons hp] at hs
    exact takeInput_keeps_inv (inv_setPending h rest) hs

end Sys2Proof.Laws
end

section
/-! What the registers show: the fields of each, none of the internal state, and the reset column (10_state.md R21 to
R41). -/

namespace Sys2Proof.Laws

open Sys2Proof.Machine

/-! ### A packed register as a number -/

theorem word_eq_ofNat {w : Word} {n : Nat} (h : w.toNat = n) : w = BitVec.ofNat 32 n := by
  rw [← h, BitVec.ofNat_toNat, BitVec.setWidth_eq]

/-- STATUS as a number (10_state.md R24). -/
theorem statusWord_toNat (s : State) : (statusWord s).toNat = s.status.number.toNat := by
  simp only [statusWord, append_toNat, BitVec.toNat_ofNat]
  omega

/-- CFG as a number (10_state.md R25). -/
theorem cfgWord_toNat (s : State) : (cfgWord s).toNat = s.cfgDigits.toNat + 16 * s.cfgAlg.toNat := by
  simp only [cfgWord, append_toNat, BitVec.toNat_ofNat]
  omega

/-- ENC_STATE as a number (10_state.md R32). -/
theorem encStateWord_toNat (e : EncUnit) : (encStateWord e).toNat = e.nbits.toNat + 16 * e.sym.toNat := by
  simp only [encStateWord, append_toNat, BitVec.toNat_ofNat]
  omega

/-- ENC_OUT_N as a number (10_state.md R33). -/
theorem encOutNWord_toNat (e : EncUnit) : (encOutNWord e).toNat = e.outN.toNat := by
  simp only [encOutNWord, append_toNat, BitVec.toNat_ofNat]
  omega

/-- DEC_STATE as a number (10_state.md R35). -/
theorem decStateWord_toNat (d : DecUnit) :
    (decStateWord d).toNat = d.nbits.toNat + 16 * d.pad.toNat + 32 * d.err.toNat := by
  simp only [decStateWord, append_toNat, ofBool_toNat, BitVec.toNat_ofNat]
  omega

/-- DEC_OUT as a number (10_state.md R36). -/
theorem decOutWord_toNat (d : DecUnit) : (decOutWord d).toNat = d.outByte.toNat + 256 * d.outValid.toNat := by
  simp only [decOutWord, append_toNat, ofBool_toNat, BitVec.toNat_ofNat]
  omega

/-- TRN_STATE as a number (10_state.md R38). -/
theorem trnStateWord_toNat (t : TrnUnit) :
    (trnStateWord t).toNat = t.dcount.toNat + 128 * t.ovf.toNat + 256 * t.codeValid.toNat := by
  simp only [trnStateWord, append_toNat, ofBool_toNat, BitVec.toNat_ofNat]
  omega

/-- CODE as a number (10_state.md R39). -/
theorem codeWord_toNat (t : TrnUnit) : (codeWord t).toNat = t.code.toNat := by
  simp only [codeWord, append_toNat, BitVec.toNat_ofNat]
  omega

/-- Settles O11: each packed register by its number, each one-field register by its field. -/
theorem registersShowTheirFields : Obligations.RegistersShowTheirFields := fun s =>
  ⟨rfl, rfl, congrArg some (word_eq_ofNat (statusWord_toNat s)), congrArg some (word_eq_ofNat (cfgWord_toNat s)),
    rfl, rfl, rfl, rfl, rfl, congrArg some (word_eq_ofNat (encStateWord_toNat s.enc)),
    congrArg some (word_eq_ofNat (encOutNWord_toNat s.enc)), rfl, rfl,
    congrArg some (word_eq_ofNat (decStateWord_toNat s.dec)), congrArg some (word_eq_ofNat (decOutWord_toNat s.dec)),
    congrArg some (word_eq_ofNat (trnStateWord_toNat s.trn)), congrArg some (word_eq_ofNat (codeWord_toNat s.trn)),
    rfl, rfl, rfl⟩

/-- Settles O13: no register's value names ENC.acc, DEC.acc or DBUF. -/
theorem secretStateIsNotReadable : Obligations.SecretStateIsNotReadable := by
  intro r s a d buf
  cases r <;> rfl

/-- A permitted read of a register answers its value (40_host_access.md R91). -/
theorem answerAccess_read_of_regValue {off : Nat} {v : Word} {s : State} (hp : permitted off 4 .read = true)
    (hv : ((Reg.atOffset off).bind fun r => regValue r s) = some v) :
    answerAccess (.read off 4) s = .next { s with reads := s.reads ++ [v] } := by
  simp only [answerAccess, answerRead, hp, hv, if_true]

/-- Settles O46: the reset column is checked row by row, and each row's read answers it. -/
theorem initialStateHasTheResetColumn : Obligations.InitialStateHasTheResetColumn := by
  refine ⟨fun p hp => ?_, rfl, rfl, digestByte_clear⟩
  have hrow : permitted p.1 4 .read = true ∧
      ((Reg.atOffset p.1).bind fun r => regValue r State.reset) = some p.2 := by
    revert p
    decide
  exact ⟨_, answerAccess_read_of_regValue hrow.1 hrow.2, rfl⟩

end Sys2Proof.Laws
end

section
/-! Who writes what: STATUS.ERR by commands only (10_state.md R24), a unit's state by its own commands, an RW register by
its writes (10_state.md R43). -/

namespace Sys2Proof.Laws

open Sys2Proof.Machine

/-- The codes of the status register are 0 to 5 (60_exceptions.md R201). -/
theorem statusNumber_le (c : StatusCode) : c.number.toNat ≤ 5 := by cases c <;> decide

theorem permitted_cmdWrite (w : Word) : (Access.write 0x04 4 w).permitted = true := permitted_offset .cmd .write

/-- Settles O14: of the four effects of an access only a command and an illegal word write STATUS.ERR, and they do not
look at it. -/
theorem onlyCommandsWriteStatus : Obligations.OnlyCommandsWriteStatus := by
  refine ⟨fun s => ⟨_, rfl, statusWord_toNat s, ?_⟩, fun a s s' h => ?_, fun w s => ?_⟩
  · rw [statusWord_toNat]
    exact statusNumber_le s.status
  · rcases answerAccess_effect h with ⟨v, rfl⟩ | ⟨r, v, -, hw⟩ | ⟨i, w, ha, -, -⟩ | ⟨w, ha, -⟩
    · exact .inl rfl
    · exact .inl (by rw [(writeReg_frame hw).1])
    · exact .inr ⟨w, ha⟩
    · exact .inr ⟨w, ha⟩
  · obtain ⟨s', h⟩ := answerAccess_permitted (permitted_cmdWrite w) s
    exact ⟨s', h, fun c => (runCommand_setStatus w s c).trans h⟩

/-- CTR_RUN is the one command of the counter mapper (44_totp_counter_mapper.md R171). -/
theorem eq_ctrRun_of_unitOf {i : Instr} (h : unitOf i = .counterMapper) : i = .ctrRun := by
  cases i with
  | ctrRun => rfl
  | _ => simp [unitOf] at h

/-- If a field that only a write of register `q` can change did change, the register written is `q`. -/
theorem write_of_changed {α : Type} {x y : α} {r q : Reg} {v : Word} (hne : x ≠ y) (hkeep : r ≠ q → x = y) :
    ∃ u, Access.write r.offset 4 v = .write q.offset 4 u := by
  obtain rfl : r = q := Not.imp_symm hkeep hne
  exact ⟨v, rfl⟩

/-- Settles O16: each of the four effects of an access changes only what it owns. -/
theorem stateChangesOnlyByItsOwner : Obligations.StateChangesOnlyByItsOwner := by
  intro a s s' h
  rcases answerAccess_effect h with ⟨v, rfl⟩ | ⟨r, v, rfl, hw⟩ | ⟨i, w, rfl, hc, he⟩ | ⟨w, rfl, rfl⟩
  · simp
  · obtain ⟨-, hcfg, hstep, helo, hehi, hclo, hchi⟩ := writeReg_frame hw
    obtain ⟨henc, hdec, htrn, hreset, hpending⟩ := writeReg_keeps_units hw
    exact ⟨absurd henc, absurd hdec, absurd htrn, fun hne => .inr (write_of_changed hne hclo),
      fun hne => .inr (write_of_changed hne hchi),
      fun hne => hne.elim (write_of_changed · fun hr => (hcfg hr).1) (write_of_changed · fun hr => (hcfg hr).2),
      (write_of_changed · hstep), (write_of_changed · helo), (write_of_changed · hehi), hreset, hpending⟩
  · obtain ⟨-, henc, hdec, htrn, hctr⟩ := exec_frame he
    obtain ⟨hdigits, halg, hstep, helo, hehi, hreset, hpending⟩ := exec_keeps_options he
    have hctrRun : ¬(s'.counterLo = s.counterLo ∧ s'.counterHi = s.counterHi) →
        commandOf (.access (.write 0x04 4 w)) = some .ctrRun :=
      fun hne => eq_ctrRun_of_unitOf (Not.imp_symm hctr hne) ▸ hc
    exact ⟨fun hne => ⟨i, hc, Not.imp_symm henc hne⟩, fun hne => ⟨i, hc, Not.imp_symm hdec hne⟩,
      fun hne => ⟨i, hc, Not.imp_symm htrn hne⟩, fun hne => .inl (hctrRun fun h => hne h.1),
      fun hne => .inl (hctrRun fun h => hne h.2), fun hne => hne.elim (absurd hdigits) (absurd halg),
      absurd hstep, absurd helo, absurd hehi, hreset, hpending⟩
  · simp

end Sys2Proof.Laws
end

section
/-! The register map's permitted accesses, and runs of steps over the host's inputs (20_memory.md R51, R58 and R60). -/

namespace Sys2Proof.Laws

open Sys2Proof.Machine

/-! ### Permitted accesses -/

theorem offset_mod_four (r : Reg) : r.offset % 4 = 0 := by cases r <;> rfl

theorem offset_lt (r : Reg) : r.offset < 0x58 := by cases r <;> decide

/-- The window has no hole: every aligned offset below 0x58 is a register's (20_memory.md R58). -/
theorem exists_offset_eq {off : Nat} (h4 : off % 4 = 0) (hlt : off < 0x58) : ∃ r : Reg, off = r.offset := by
  have hmapped : ∀ k < 0x58, k % 4 = 0 → (Reg.atOffset k).isSome := by decide
  obtain ⟨r, hr⟩ := Option.isSome_iff_exists.mp (hmapped off hlt h4)
  exact ⟨r, atOffset_eq_some hr⟩

/-- Once the access column is told by the offset, `permitted` is the four conditions of 20_memory.md R51. -/
theorem permitted_iff {dir : Dir} {allowed : Nat → Prop}
    (hcolumn : ∀ r : Reg, r.access.allows dir = true ↔ allowed r.offset) (off n : Nat) :
    permitted off n dir = true ↔ n = 4 ∧ off % 4 = 0 ∧ off < 0x58 ∧ allowed off := by
  constructor
  · intro h
    obtain ⟨rfl, r, rfl, ha⟩ := permitted_eq_true h
    exact ⟨rfl, offset_mod_four r, offset_lt r, (hcolumn r).mp ha⟩
  · rintro ⟨rfl, h4, hlt, ha⟩
    obtain ⟨r, rfl⟩ := exists_offset_eq h4 hlt
    rw [permitted_offset]
    exact (hcolumn r).mpr ha

/-- CMD is the one register that cannot be read (10_state.md R21). -/
theorem access_allows_read_iff (r : Reg) : r.access.allows .read = true ↔ r.offset ≠ 0x04 := by
  cases r <;> decide

/-- CMD and the six RW registers are those that can be written (10_state.md R21). -/
theorem access_allows_write_iff (r : Reg) :
    r.access.allows .write = true ↔ r.offset ∈ [0x04, 0x0C, 0x10, 0x14, 0x18, 0x1C, 0x20] := by
  cases r <;> decide

/-- Settles O8: the four conditions say which accesses are permitted; those are answered, and the others are bus
errors. -/
theorem accessesTheMapDoesNotAllowAreBusErrors : Obligations.AccessesTheMapDoesNotAllowAreBusErrors := by
  intro s off n v
  have hread := permitted_iff (allowed := (· ≠ 0x04)) access_allows_read_iff off n
  have hwrite := permitted_iff (allowed := (· ∈ [0x04, 0x0C, 0x10, 0x14, 0x18, 0x1C, 0x20]))
    access_allows_write_iff off n
  constructor
  · split
    case isTrue h => exact answerAccess_permitted (a := .read off n) (hread.mpr h) s
    case isFalse h => exact answerRead_not_permitted (Bool.eq_false_iff.mpr (mt hread.mp h)) s
  · split
    case isTrue h => exact answerAccess_permitted (a := .write off n v) (hwrite.mpr h) s
    case isFalse h => exact answerWrite_not_permitted (Bool.eq_false_iff.mpr (mt hwrite.mp h)) v s

/-! ### Runs over the inputs -/

/-- As many steps as there are inputs take them all, in order, and leave those behind them (20_memory.md R60). -/
theorem run_append_eq_takeAll (xs rest : List HostInput) (s : State) :
    core.run xs.length { s with pending := xs ++ rest } = takeAll xs { s with pending := rest } := by
  induction xs generalizing s with
  | nil => rfl
  | cons x xs ih =>
    have hstep : core.step { s with pending := x :: xs ++ rest } = takeInput x { s with pending := xs ++ rest } :=
      step_cons (s := { s with pending := x :: xs ++ rest }) rfl
    simp only [List.length_cons, Host.Core.run, hstep, takeAll, takeInput_setPending x s (xs ++ rest),
      takeInput_setPending x s rest]
    cases takeInput x s with
    | next t => exact ih t
    | fault f => rfl
    | refused r => rfl

/-- Settles O18: each step answers the first input, whatever stands behind it; with none it is idle. -/
theorem stepsTakeTheInputsInOrder : Obligations.StepsTakeTheInputsInOrder :=
  ⟨run_append_eq_takeAll, fun _ => step_nil⟩

end Sys2Proof.Laws
end

section
/-! Decoding and encoding are inverse to each other: a word decodes to a command exactly when it is the command's word
(30_encoding.md R70 to R76). -/

namespace Sys2Proof.Laws

/-- A command's opcode and operand decode to it (30_encoding.md R76). -/
theorem decodeOpc_opcode_argument (i : Instr) : decodeOpc i.opcode i.argument = .command i := by
  cases i with
  | encFinal pad => cases pad <;> rfl
  | _ => rfl

theorem decode_of_fields {w : Word} {i : Instr} (hrsv : rsvField w = 0) (hopc : opcField w = i.opcode)
    (harg : argField w = i.argument) : decode w = .command i := by
  rw [decode, if_pos hrsv, hopc, harg, decodeOpc_opcode_argument]

/-- Settles O2: the three fields of `encode i` are those `decode` looks at, and the number of the word is the word. -/
theorem decodeOfEncodeIsTheCommand : Obligations.DecodeOfEncodeIsTheCommand := by
  intro i
  obtain ⟨hrsv, hopc, harg⟩ := EncodingFields.of_fields i
  have hdecode : decode (encode i) = .command i := decode_of_fields hrsv hopc harg
  refine ⟨hdecode, ?_⟩
  have hlt : (encode i).toNat < 2 ^ 32 := (encode i).isLt
  simp only [decodeTableWord, Nat.mod_eq_of_lt hlt, if_pos hlt, BitVec.ofNat_toNat, BitVec.setWidth_eq, hdecode]

theorem decodeNoArg_eq_command {i j : Instr} {opc arg : Byte} (h : decodeNoArg j opc arg = .command i) :
    j = i ∧ arg = 0 := by
  unfold decodeNoArg at h
  split at h
  case isTrue harg => exact ⟨Decoded.command.inj h, harg⟩
  case isFalse => cases h

/-- An ARG without a bit above bit 0 is the flag PAD (30_encoding.md R72). -/
theorem eq_flag_of_upper_zero : ∀ {arg : Byte}, arg.extractLsb' 1 7 = 0 → arg = if arg.getLsbD 0 then 1 else 0 := by
  decide

theorem decodeFinal_eq_command {i : Instr} {arg : Byte} (h : decodeFinal arg = .command i) :
    ∃ pad, i = .encFinal pad ∧ arg = (Instr.encFinal pad).argument := by
  unfold decodeFinal at h
  split at h
  case isTrue harg => exact ⟨_, (Decoded.command.inj h).symm, eq_flag_of_upper_zero harg⟩
  case isFalse => cases h

/-- The case distinction on OPC takes an opcode and an operand to the one command that has them. -/
theorem decodeOpc_eq_command {i : Instr} {opc arg : Byte} (h : decodeOpc opc arg = .command i) :
    opc = i.opcode ∧ arg = i.argument := by
  unfold decodeOpc at h
  split at h
  case h_1 | h_2 | h_3 => cases h; exact ⟨rfl, rfl⟩
  case h_4 => obtain ⟨pad, rfl, harg⟩ := decodeFinal_eq_command h; exact ⟨rfl, harg⟩
  case h_11 => cases h
  all_goals
    obtain ⟨rfl, harg⟩ := decodeNoArg_eq_command h
    exact ⟨rfl, harg⟩

/-- Settles O3: the decoder finds RSV zero and the command's own opcode and operand, and the three fields are the
word. -/
theorem encodeOfDecodedWordIsTheWord : Obligations.EncodeOfDecodedWordIsTheWord := by
  intro w i h
  unfold decode at h
  split at h
  case isTrue hrsv =>
    obtain ⟨hopc, harg⟩ := decodeOpc_eq_command h
    rw [encode, ← hopc, ← harg, commandWord_fields w hrsv]
  case isFalse => cases h

/-- A word is a command exactly when it is built from the command's opcode and operand, RSV zero. -/
theorem decode_eq_command_iff (w : Word) (i : Instr) :
    decode w = .command i ↔ rsvField w = 0 ∧ opcField w = i.opcode ∧ argField w = i.argument := by
  constructor
  · intro h
    obtain rfl := encodeOfDecodedWordIsTheWord w i h
    exact EncodingFields.of_fields i
  · rintro ⟨hrsv, hopc, harg⟩
    exact decode_of_fields hrsv hopc harg

/-- Settles O1: closed facts, which the decoder evaluates. -/
theorem writtenWordsDecodeToTheirCommands : Obligations.WrittenWordsDecodeToTheirCommands := by
  unfold Obligations.WrittenWordsDecodeToTheirCommands
  decide

end Sys2Proof.Laws
end

section
/-! The opcode map: the rows of the table as the commands' own, and the legal words as the words of a row
(30_encoding.md R73 and R75). -/

namespace Sys2Proof.Laws

open Sys2Proof.Machine

/-! ### The rows -/

/-- The ARG bits of a command's row mask, 0 in each of the row's words (30_encoding.md R73). -/
def argMask : Instr → Byte
  | .encPush _ | .decPush _ | .trnPush _ => 0x00
  | .encFinal _ => 0xFE
  | .encInit | .decInit | .decFinal | .trnClear | .trnRun | .ctrRun => 0xFF

/-- The row of a command: RSV and OPC are given in full, ARG by its mask (30_encoding.md R73). -/
def rowOf (i : Instr) : OpRow := ⟨i.mnemonic, commandWord i.opcode 0, (0xFFFF#16 ++ argMask i) ++ 0xFF#8⟩

theorem rsvField_rowOf_mask (i : Instr) : rsvField (rowOf i).mask = BitVec.allOnes 16 := by
  rw [rowOf, rsvField, BitVec.extractLsb'_append_eq_of_le (by decide)]
  exact BitVec.extractLsb'_append_eq_left

theorem opcField_rowOf_mask (i : Instr) : opcField (rowOf i).mask = BitVec.allOnes 8 :=
  BitVec.extractLsb'_append_eq_right

theorem argField_rowOf_mask (i : Instr) : argField (rowOf i).mask = argMask i := by
  rw [rowOf, argField, BitVec.extractLsb'_append_eq_of_le (by decide)]
  exact BitVec.extractLsb'_append_eq_right

/-- One command of each row, its operand 0. -/
def rowCommands : List Instr :=
  [.encInit, .encPush 0, .encFinal false, .decInit, .decPush 0, .decFinal, .trnClear, .trnPush 0, .trnRun, .ctrRun]

theorem opcodeTable_eq_map_rowOf : opcodeTable = rowCommands.map rowOf := by decide

theorem rowOf_mem_opcodeTable (i : Instr) : rowOf i ∈ opcodeTable := by
  rw [opcodeTable_eq_map_rowOf, List.mem_map]
  cases i with
  | encPush b => exact ⟨.encPush 0, by decide, rfl⟩
  | encFinal pad => exact ⟨.encFinal false, by decide, rfl⟩
  | decPush c => exact ⟨.decPush 0, by decide, rfl⟩
  | trnPush d => exact ⟨.trnPush 0, by decide, rfl⟩
  | encInit | decInit | decFinal | trnClear | trnRun | ctrRun => exact ⟨_, by decide, rfl⟩

theorem opcodeTable_mnemonics_nodup : (opcodeTable.map (·.mnemonic)).Nodup := by decide

theorem rowOf_eq_of_mnemonic_eq {i j : Instr} (h : i.mnemonic = j.mnemonic) : rowOf i = rowOf j :=
  List.inj_on_of_nodup_map opcodeTable_mnemonics_nodup (rowOf_mem_opcodeTable i) (rowOf_mem_opcodeTable j) h

theorem eq_commandWord_iff (w : Word) (opc arg : Byte) :
    w = commandWord opc arg ↔ rsvField w = 0 ∧ opcField w = opc ∧ argField w = arg := by
  constructor
  · rintro rfl
    exact ⟨rsvField_commandWord opc arg, opcField_commandWord opc arg, argField_commandWord opc arg⟩
  · rintro ⟨hrsv, rfl, rfl⟩
    exact (commandWord_fields w hrsv).symm

/-- A row asks for RSV zero, for its own OPC, and for 0 in the ARG bits of its mask. -/
theorem covers_rowOf_iff (i : Instr) (w : Word) :
    (rowOf i).covers w = true ↔ rsvField w = 0 ∧ opcField w = i.opcode ∧ argField w &&& argMask i = 0 := by
  have hrsv : rsvField (w &&& (rowOf i).mask) = rsvField w := by
    rw [rsvField, BitVec.extractLsb'_and, ← rsvField, ← rsvField, rsvField_rowOf_mask, BitVec.and_allOnes]
  have hopc : opcField (w &&& (rowOf i).mask) = opcField w := by
    rw [opcField, BitVec.extractLsb'_and, ← opcField, ← opcField, opcField_rowOf_mask, BitVec.and_allOnes]
  have harg : argField (w &&& (rowOf i).mask) = argField w &&& argMask i := by
    rw [argField, BitVec.extractLsb'_and, ← argField, ← argField, argField_rowOf_mask]
  have hpattern : (rowOf i).pattern = commandWord i.opcode 0 := rfl
  rw [OpRow.covers, beq_iff_eq, hpattern, eq_commandWord_iff, hrsv, hopc, harg]

theorem argument_and_argMask (i : Instr) : i.argument &&& argMask i = 0 := by
  cases i with
  | encFinal pad => cases pad <;> rfl
  | encPush b | decPush b | trnPush b => exact BitVec.and_zero
  | _ => rfl

/-- Every ARG a row's mask allows is the operand of a command of that row. -/
theorem exists_argument_eq_of_and_argMask {i : Instr} {arg : Byte} (h : arg &&& argMask i = 0) :
    ∃ j : Instr, j.mnemonic = i.mnemonic ∧ j.opcode = i.opcode ∧ j.argument = arg := by
  have hupper : ∀ a : Byte, a &&& 0xFE#8 = 0 → a.extractLsb' 1 7 = 0 := by decide
  cases i with
  | encPush b => exact ⟨.encPush arg, rfl, rfl, rfl⟩
  | decPush c => exact ⟨.decPush arg, rfl, rfl, rfl⟩
  | trnPush d => exact ⟨.trnPush arg, rfl, rfl, rfl⟩
  | encFinal pad => exact ⟨.encFinal (arg.getLsbD 0), rfl, rfl, (eq_flag_of_upper_zero (hupper arg h)).symm⟩
  | encInit | decInit | decFinal | trnClear | trnRun | ctrRun =>
    exact ⟨_, rfl, rfl, (BitVec.and_allOnes.symm.trans h).symm⟩

/-- The words of a command's row are those that decode to a command of its mnemonic. -/
theorem covers_rowOf_iff_decode (i : Instr) (w : Word) :
    (rowOf i).covers w = true ↔ ∃ j, decode w = .command j ∧ j.mnemonic = i.mnemonic := by
  constructor
  · intro h
    obtain ⟨hrsv, hopc, harg⟩ := (covers_rowOf_iff i w).mp h
    obtain ⟨j, hname, hjopc, hjarg⟩ := exists_argument_eq_of_and_argMask harg
    exact ⟨j, (decode_eq_command_iff w j).mpr ⟨hrsv, hopc.trans hjopc.symm, hjarg.symm⟩, hname⟩
  · rintro ⟨j, hj, hname⟩
    obtain ⟨hrsv, hopc, harg⟩ := (decode_eq_command_iff w j).mp hj
    rw [← rowOf_eq_of_mnemonic_eq hname, covers_rowOf_iff, harg]
    exact ⟨hrsv, hopc, argument_and_argMask j⟩

theorem covers_iff_decode {row : OpRow} (h : row ∈ opcodeTable) (w : Word) :
    row.covers w = true ↔ ∃ i, decode w = .command i ∧ i.mnemonic = row.mnemonic := by
  rw [opcodeTable_eq_map_rowOf] at h
  obtain ⟨i, -, rfl⟩ := List.mem_map.mp h
  exact covers_rowOf_iff_decode i w

/-- No word is in two rows: it decodes to one command, which has one mnemonic. -/
theorem not_covers_both {a b : OpRow} (ha : a ∈ opcodeTable) (hb : b ∈ opcodeTable) (hne : a.mnemonic ≠ b.mnemonic)
    (w : Word) : ¬(a.covers w = true ∧ b.covers w = true) := by
  rintro ⟨hwa, hwb⟩
  obtain ⟨i, hi, hia⟩ := (covers_iff_decode ha w).mp hwa
  obtain ⟨j, hj, hjb⟩ := (covers_iff_decode hb w).mp hwb
  obtain rfl := Decoded.command.inj (hi.symm.trans hj)
  exact hne (hia.symm.trans hjb)

/-- Settles O4: the rows written out are those of `opcodeTable`, each a command's `rowOf`. -/
theorem commandsAreTheRowsOfTheOpcodeMap : Obligations.CommandsAreTheRowsOfTheOpcodeMap := by
  unfold Obligations.CommandsAreTheRowsOfTheOpcodeMap
  intro rows
  have hrows : rows = opcodeTable.map fun row => (row.mnemonic, row.pattern, row.mask) := rfl
  clear_value rows
  subst hrows
  have hnames := List.pairwise_map.mp opcodeTable_mnemonics_nodup
  refine ⟨fun w => List.forall_mem_map.mpr fun row hrow => ?_, fun w i _ => ?_,
    List.pairwise_map.mpr (hnames.imp_of_mem fun ha hb hne w hw => ?_), fun i => ?_⟩
  · rw [← covers_iff_decode hrow, OpRow.covers, beq_iff_eq]
  · rw [List.map_map]
    exact List.mem_map_of_mem (f := fun row => row.mnemonic) (rowOf_mem_opcodeTable i)
  · exact not_covers_both ha hb hne w ⟨beq_iff_eq.mpr hw.1, beq_iff_eq.mpr hw.2⟩
  · cases i <;> dsimp only [Instr.unitNibble, Instr.opcode] <;> rfl

/-! ### The illegal words -/

theorem rsvField_eq_zero_iff (w : Word) : rsvField w = 0 ↔ w.toNat / 65536 = 0 := by
  have hlt := w.isLt
  have hzero : (0 : BitVec 16).toNat = 0 := rfl
  rw [← BitVec.toNat_inj, rsvField, extract_toNat, hzero]
  omega

theorem opcField_toNat (w : Word) : (opcField w).toNat = w.toNat % 256 := by
  rw [opcField, extract_toNat]
  omega

theorem argField_toNat (w : Word) : (argField w).toNat = w.toNat / 256 % 256 := extract_toNat w 8 8

/-- The opcodes and operands of the commands, as numbers (30_encoding.md R75). -/
theorem exists_opcode_argument_iff (opc arg : Byte) :
    (∃ i : Instr, opc = i.opcode ∧ arg = i.argument) ↔
      opc.toNat ∈ [0x02, 0x12, 0x22] ∨ (opc.toNat = 0x03 ∧ arg.toNat ≤ 1) ∨
        (opc.toNat ∈ [0x01, 0x11, 0x13, 0x21, 0x23, 0x31] ∧ arg.toNat = 0) := by
  constructor
  · rintro ⟨i, rfl, rfl⟩
    cases i with
    | encPush b | decPush b | trnPush b => exact .inl (by simp [Instr.opcode])
    | encFinal pad => exact .inr (.inl (by cases pad <;> decide))
    | encInit | decInit | decFinal | trnClear | trnRun | ctrRun => exact .inr (.inr (by decide))
  · have hcommand (i : Instr) (hopc : opc.toNat = i.opcode.toNat) (harg : arg.toNat = i.argument.toNat) :
        ∃ i : Instr, opc = i.opcode ∧ arg = i.argument :=
      ⟨i, BitVec.eq_of_toNat_eq hopc, BitVec.eq_of_toNat_eq harg⟩
    simp only [List.mem_cons, List.not_mem_nil, or_false]
    rintro ((h | h | h) | ⟨h, ha⟩ | ⟨h | h | h | h | h | h, ha⟩)
    · exact hcommand (.encPush arg) h rfl
    · exact hcommand (.decPush arg) h rfl
    · exact hcommand (.trnPush arg) h rfl
    · rcases Nat.le_one_iff_eq_zero_or_eq_one.mp ha with ha | ha
      · exact hcommand (.encFinal false) h ha
      · exact hcommand (.encFinal true) h ha
    · exact hcommand .encInit h ha
    · exact hcommand .decInit h ha
    · exact hcommand .decFinal h ha
    · exact hcommand .trnClear h ha
    · exact hcommand .trnRun h ha
    · exact hcommand .ctrRun h ha

theorem exists_decode_illegal_iff (w : Word) :
    (∃ why, decode w = .illegal why) ↔ ¬∃ i, decode w = .command i := by
  cases decode w <;> simp

/-- Settles O5: a word that is no command's is illegal, and by `runCommand_illegal` only reports it. -/
theorem illegalWordsAreTheFourCases : Obligations.IllegalWordsAreTheFourCases := by
  intro w opc arg legal
  have hlegal : (∃ i, decode w = .command i) ↔ legal := by
    simp only [decode_eq_command_iff, exists_and_left, exists_opcode_argument_iff, rsvField_eq_zero_iff,
      opcField_toNat, argField_toNat]
    rfl
  have hillegal : (∃ why, decode w = .illegal why) ↔ ¬legal := by rw [exists_decode_illegal_iff, hlegal]
  refine ⟨hillegal, fun h s => ?_⟩
  obtain ⟨why, hwhy⟩ := hillegal.mpr h
  exact runCommand_illegal hwhy s

end Sys2Proof.Laws
end

section
/-! The accesses each assembly statement stands for (30_encoding.md R77 and R78). -/

namespace Sys2Proof.Laws

open Sys2Proof.Machine

/-! ### Commands -/

theorem assemble_of_wellFormed (st : Stmt) (h : st.wellFormed = true) : assemble st = some (expandStmt st) := if_pos h

theorem assemble_cmd {m : Mnemonic} {x : AsmOperand} {i : Instr} (htakes : m.takes x = true)
    (hcmd : asmCommand m x = some i) : assemble (.cmd m x) = some [.write 0x04 4 (encode i)] := by
  rw [assemble_of_wellFormed (.cmd m x) htakes, expandStmt, hcmd]
  rfl

theorem assemble_cmd_eq_none {m : Mnemonic} {x : AsmOperand} (h : m.takes x = false) : assemble (.cmd m x) = none :=
  if_neg (Bool.eq_false_iff.mp h)

/-- A push takes no operand above 255 (30_encoding.md R77). -/
theorem assemble_push_eq_none {x : Nat} (h : 255 < x) :
    assemble (.cmd .encPush (.num x)) = none ∧ assemble (.cmd .decPush (.num x)) = none ∧
    assemble (.cmd .trnPush (.num x)) = none := by
  have htakes : decide (x ≤ 255) = false := decide_eq_false (Nat.not_le_of_lt h)
  exact ⟨assemble_cmd_eq_none htakes, assemble_cmd_eq_none htakes, assemble_cmd_eq_none htakes⟩

/-- The word the encoding column of a push gives, `(x << 8) | OPC` (30_encoding.md R77). -/
theorem encode_of_argument_ofNat {i : Instr} {opc x : Nat} (h : x ≤ 255) (hopc : i.opcode.toNat = opc)
    (harg : i.argument = BitVec.ofNat 8 x) : encode i = BitVec.ofNat 32 ((x <<< 8) ||| opc) := by
  have hx : (BitVec.ofNat 8 x).toNat = x := Nat.mod_eq_of_lt (Nat.lt_succ_of_le h)
  apply word_eq_ofNat
  rw [← hopc, ← Nat.shiftLeft_add_eq_or_of_lt i.opcode.isLt, Nat.shiftLeft_eq, encode, commandWord, append_toNat,
    append_toNat, harg, hx, BitVec.toNat_zero, Nat.zero_mul, Nat.zero_add]

theorem assemble_push {x : Nat} (h : x ≤ 255) :
    assemble (.cmd .encPush (.num x)) = some [.write 0x04 4 (BitVec.ofNat 32 ((x <<< 8) ||| 0x02))] ∧
    assemble (.cmd .decPush (.num x)) = some [.write 0x04 4 (BitVec.ofNat 32 ((x <<< 8) ||| 0x12))] ∧
    assemble (.cmd .trnPush (.num x)) = some [.write 0x04 4 (BitVec.ofNat 32 ((x <<< 8) ||| 0x22))] := by
  have htakes : decide (x ≤ 255) = true := decide_eq_true h
  refine ⟨?_, ?_, ?_⟩
  · rw [assemble_cmd (m := .encPush) (x := .num x) htakes rfl, encode_of_argument_ofNat (opc := 0x02) h rfl rfl]
  · rw [assemble_cmd (m := .decPush) (x := .num x) htakes rfl, encode_of_argument_ofNat (opc := 0x12) h rfl rfl]
  · rw [assemble_cmd (m := .trnPush) (x := .num x) htakes rfl, encode_of_argument_ofNat (opc := 0x22) h rfl rfl]

/-- `pad` and `nopad` stand after ENC_FINAL only (30_encoding.md R77). -/
theorem assemble_pad_eq_none {m : Mnemonic} (h : m ≠ .encFinal) :
    assemble (.cmd m .pad) = none ∧ assemble (.cmd m .nopad) = none := by
  cases m with
  | encFinal => exact absurd rfl h
  | _ => exact ⟨rfl, rfl⟩

/-! ### Bus accesses and pseudo-instructions -/

/-- `wr64` writes the low half of the pair first; a write takes the low 32 bits of its number (30_encoding.md R78). -/
theorem assemble_wr64 (p : RegPair) {v : Nat} (h : v < 2 ^ 64) :
    assemble (.wr64 p v) =
      some [.write (pairRegs p).1.offset 4 (BitVec.ofNat 32 v),
        .write (pairRegs p).2.offset 4 (BitVec.ofNat 32 (v / 2 ^ 32))] := by
  have hlow : BitVec.ofNat 32 (v % 2 ^ 32) = BitVec.ofNat 32 v := (word_eq_ofNat (BitVec.toNat_ofNat v 32)).symm
  rw [assemble_of_wellFormed (.wr64 p v) (decide_eq_true h), expandStmt, asmWrite, asmWrite, hlow]

/-- The two fields of `cfg` do not overlap (30_encoding.md R78). -/
theorem assemble_cfg {d a : Nat} (hd : d ≤ 15) (ha : a ≤ 3) :
    assemble (.cfg d a) = some [.write 0x0C 4 (BitVec.ofNat 32 (a * 16 + d))] := by
  have hwf : (Stmt.cfg d a).wellFormed = true := by rw [Stmt.wellFormed, decide_eq_true hd, decide_eq_true ha]; rfl
  have hfields : (a <<< 4) ||| d = a * 16 + d := by
    rw [← Nat.shiftLeft_add_eq_or_of_lt (Nat.lt_succ_of_le hd), Nat.shiftLeft_eq]
  rw [assemble_of_wellFormed _ hwf, expandStmt, hfields]
  rfl

theorem all_toNat_le (xs : List Byte) : (xs.map (·.toNat)).all (fun x => decide (x ≤ 255)) = true := by
  rw [List.all_map, List.all_eq_true]
  exact fun x _ => decide_eq_true (Nat.le_of_lt_succ x.isLt)

/-- The byte strings: one push for each byte, then the reads of the unit's outputs (30_encoding.md R78). -/
theorem assemble_bytes (xs : List Byte) :
    assemble (.encBytes (xs.map (·.toNat))) = some (xs.flatMap fun x =>
      [.write 0x04 4 (encode (.encPush x)), .read 0x30 4, .read 0x34 4, .read 0x38 4]) ∧
    assemble (.decChars (xs.map (·.toNat))) = some (xs.flatMap fun x =>
      [.write 0x04 4 (encode (.decPush x)), .read 0x40 4]) ∧
    assemble (.trnDigest (xs.map (·.toNat))) = some (xs.map fun x => .write 0x04 4 (encode (.trnPush x))) := by
  refine ⟨?_, ?_, ?_⟩
  · rw [assemble_of_wellFormed (.encBytes _) (all_toNat_le xs), expandStmt]
    simp only [List.flatMap_map, BitVec.ofNat_toNat, BitVec.setWidth_eq]
    rfl
  · rw [assemble_of_wellFormed (.decChars _) (all_toNat_le xs), expandStmt]
    simp only [List.flatMap_map, BitVec.ofNat_toNat, BitVec.setWidth_eq]
    rfl
  · rw [assemble_of_wellFormed (.trnDigest _) (all_toNat_le xs), expandStmt]
    simp only [List.map_map, Function.comp_def, BitVec.ofNat_toNat, BitVec.setWidth_eq]
    rfl

/-- Settles O53: clause by clause, the pushes and the pseudo-instructions by their lemmas; the other statements expand
to one access each. -/
theorem statementsAssembleToTheirAccesses : Obligations.StatementsAssembleToTheirAccesses :=
  ⟨fun _ => assemble_push, fun _ => assemble_push_eq_none, assemble_cmd (i := .encFinal true) rfl rfl,
    assemble_cmd (i := .encFinal false) rfl rfl, fun _ => assemble_pad_eq_none,
    assemble_cmd (i := .encInit) rfl rfl, assemble_cmd (i := .decInit) rfl rfl, assemble_cmd (i := .decFinal) rfl rfl,
    assemble_cmd (i := .trnClear) rfl rfl, assemble_cmd (i := .trnRun) rfl rfl, assemble_cmd (i := .ctrRun) rfl rfl,
    fun r v h => assemble_of_wellFormed (.wr r v) (decide_eq_true h),
    fun r => assemble_of_wellFormed (.rd r) rfl,
    fun _ h => ⟨assemble_wr64 .epoch h, assemble_wr64 .counter h⟩, fun _ _ => assemble_cfg, assemble_bytes⟩

end Sys2Proof.Laws
end

section
/-! What the block answers to a host access: a read, a register write, a command word, an illegal word (40_host_access.md
R90 to R96). -/

namespace Sys2Proof.Laws

open Sys2Proof.Machine

/-! ### Register writes -/

/-- A write to an RW register is answered by what `writeReg` stores (40_host_access.md R93). -/
theorem answerAccess_write_of_writeReg {r : Reg} {v : Word} {s t : State} (hrw : r.access = .rw)
    (h : writeReg r v s = some t) : answerAccess (.write r.offset 4 v) s = .next t := by
  obtain ⟨u, hu, he⟩ := answerWrite_rw r v s hrw
  obtain rfl : u = t := Option.some.inj (hu.symm.trans h)
  exact he

/-- The two fields of CFG are its bits 5:0 (10_state.md R25). -/
theorem cfgWord_of_fields {s : State} {v : Word} (hdigits : s.cfgDigits = v.extractLsb' 0 4)
    (halg : s.cfgAlg = v.extractLsb' 4 2) : cfgWord s = v &&& 0x3F := by
  have hmask : (v &&& 0x3F).toNat = v.toNat % 64 := by
    rw [BitVec.toNat_and]
    exact Nat.and_two_pow_sub_one_eq_mod v.toNat 6
  apply BitVec.eq_of_toNat_eq
  rw [cfgWord_toNat, hmask, hdigits, halg, extract_toNat, extract_toNat]
  omega

/-- Settles O10: each write is answered by its `writeReg`, and what CFG keeps are the bits 5:0 of the value. -/
theorem registerWritesStoreTheirValue : Obligations.RegisterWritesStoreTheirValue := by
  refine ⟨fun s v => ⟨?_, answerAccess_write_of_writeReg (r := .step) rfl rfl,
    answerAccess_write_of_writeReg (r := .epochLo) rfl rfl, answerAccess_write_of_writeReg (r := .epochHi) rfl rfl,
    answerAccess_write_of_writeReg (r := .counterLo) rfl rfl,
    answerAccess_write_of_writeReg (r := .counterHi) rfl rfl⟩, ?_⟩
  · refine ⟨_, answerAccess_write_of_writeReg (r := .cfg) rfl rfl, rfl, congrArg some (cfgWord_of_fields rfl rfl), ?_,
      extract_toNat v 4 2⟩
    rw [extract_toNat, pow_zero, Nat.div_one]
    rfl
  · exact ⟨_, answerAccess_write_of_writeReg (r := .cfg) rfl rfl,
      congrArg some ((cfgWord_of_fields rfl rfl).trans (by decide))⟩

/-! ### Reads -/

/-- Settles O9: the read of a register other than CMD answers its value; CFG shows 6 after reset. -/
theorem readAnswersTheRegisterAndChangesNothing : Obligations.ReadAnswersTheRegisterAndChangesNothing := by
  refine ⟨fun s r h => answerRead_offset r s h, ?_⟩
  obtain ⟨v, hv, he⟩ := answerRead_offset .cfg State.reset (by decide)
  obtain rfl : v = 6 := (Option.some.inj hv).symm
  exact ⟨_, he, rfl⟩

/-! ### Command words -/

/-- A legal word written to CMD runs its command (40_host_access.md R94). -/
theorem answerAccess_cmd_command {w : Word} {i : Instr} (h : decode w = .command i) (s : State) :
    answerAccess (.write 0x04 4 w) s = exec i s :=
  (answerWrite_cmd w s).trans (runCommand_command h s)

/-- An illegal word written to CMD reports it (40_host_access.md R96). -/
theorem answerAccess_cmd_illegal {w : Word} {why : IllegalWord} (h : decode w = .illegal why) (s : State) :
    answerAccess (.write 0x04 4 w) s = .next { s with status := .illegalCommand } :=
  (answerWrite_cmd w s).trans (runCommand_illegal h s)

/-- A step answers the next access, in the state without it (40_host_access.md R90). -/
theorem step_access {s : State} {a : Access} {rest : List HostInput} (hr : s.resetAsserted = false)
    (h : s.pending = .access a :: rest) : step s = answerAccess a { s with pending := rest } := by
  rw [step_cons h, takeInput, hr]
  rfl

/-- The 32-bit word placed for the next step is the word itself. -/
theorem withFetchWord_toNat (s : State) (w : Word) : s.withFetchWord 32 w.toNat = placeCommand w s := by
  rw [State.withFetchWord, Nat.mod_eq_of_lt w.isLt, BitVec.ofNat_toNat, BitVec.setWidth_eq]

/-- Settles O6: the step answers the access, the access runs the word, and a placed word is the next access. -/
theorem stepRunsTheDecodedCommand : Obligations.StepRunsTheDecodedCommand := by
  have hstep (s : State) (w : Word) (rest : List HostInput) (i : Instr) (hr : s.resetAsserted = false)
      (h : s.pending = .access (.write 0x04 4 w) :: rest) (hd : decode w = .command i) :
      step s = exec i { s with pending := rest } := by
    rw [step_access hr h, answerAccess_cmd_command hd]
  refine ⟨fun s a rest => step_access, hstep, fun s w i hd => ?_⟩
  rw [withFetchWord_toNat]
  exact hstep (placeCommand w s) w s.pending i (placeCommand_resetAsserted w s) (placeCommand_pending w s) hd

/-- Settles O7: the rule's words fall under the four cases of an illegal word; the example runs. -/
theorem illegalCommandChangesOnlyStatus : Obligations.IllegalCommandChangesOnlyStatus := by
  refine ⟨fun s w why h => answerAccess_cmd_illegal h s, fun w hw => ?_, rfl, _, rfl, rfl, rfl⟩
  rw [(illegalWordsAreTheFourCases w).1]
  fin_cases hw <;> decide

end Sys2Proof.Laws
end

section
/-! Commands of different units do not interact (40_host_access.md R97). What a command of a unit may look at is the
unit's *view*: a command's effect on its view depends on the view only, and a command of another unit leaves it. -/

namespace Sys2Proof.Laws

open Sys2Proof.Machine

/-- The view of one unit: its state and the registers the rules of its commands name (40_host_access.md R97). -/
inductive UnitView where
  | encoder (enc : EncUnit)
  | decoder (dec : DecUnit)
  | truncator (trn : TrnUnit) (cfg : Word)
  | counterMapper (counter : BitVec 64) (step : Word) (epoch : BitVec 64)

/-- What a state shows to the commands of a unit. -/
def viewOf (u : UnitName) (s : State) : UnitView :=
  match u with
  | .encoder => .encoder s.enc
  | .decoder => .decoder s.dec
  | .truncator => .truncator s.trn (cfgWord s)
  | .counterMapper => .counterMapper s.counter s.stepSeconds s.epoch

/-- What no command touches: the level of the reset input and the host's side of a run (10_state.md R43). -/
def hostSide (s : State) : Bool × List HostInput × List Word := (s.resetAsserted, s.pending, s.reads)

/-! ### What equal registers say of their parts -/

/-- Two concatenations of the same two widths are equal when their halves are. -/
theorem bitVec_append_eq_iff {m n : Nat} {x x' : BitVec m} {y y' : BitVec n} :
    x ++ y = x' ++ y' ↔ x = x' ∧ y = y' := by
  constructor
  · intro h
    exact ⟨by simpa only [BitVec.extractLsb'_append_eq_left] using congrArg (BitVec.extractLsb' n m) h,
      by simpa only [BitVec.extractLsb'_append_eq_right] using congrArg (BitVec.extractLsb' 0 n) h⟩
  · rintro ⟨rfl, rfl⟩
    rfl

/-- CFG shows both of its fields (10_state.md R25). -/
theorem cfgWord_eq_iff {s t : State} : cfgWord s = cfgWord t ↔ s.cfgAlg = t.cfgAlg ∧ s.cfgDigits = t.cfgDigits :=
  (bitVec_append_eq_iff (m := 28) (n := 4)).trans (and_congr_left' (BitVec.append_right_inj 0#26))

theorem counter_eq_iff {s t : State} :
    s.counter = t.counter ↔ s.counterHi = t.counterHi ∧ s.counterLo = t.counterLo :=
  bitVec_append_eq_iff

theorem epoch_eq_iff {s t : State} : s.epoch = t.epoch ↔ s.epochHi = t.epochHi ∧ s.epochLo = t.epochLo :=
  bitVec_append_eq_iff

/-! ### What a command writes -/

/-- A command ends in a next state (40_host_access.md R95). -/
theorem exec_ends (i : Instr) (s : State) : ∃ t, exec i s = .next t := by
  obtain ⟨_, _, _, _, _, _, h, -⟩ := exec_next i s
  exact ⟨_, h⟩

/-- A command writes its unit's state and STATUS.ERR only (40_host_access.md R97). -/
theorem exec_writes_unit {i : Instr} {s t : State} (h : exec i s = .next t) :
    match unitOf i with
    | .encoder => t = { s with status := t.status, enc := t.enc }
    | .decoder => t = { s with status := t.status, dec := t.dec }
    | .truncator => t = { s with status := t.status, trn := t.trn }
    | .counterMapper => t = { s with status := t.status, counterLo := t.counterLo, counterHi := t.counterHi } := by
  cases hu : unitOf i with
  | encoder => obtain ⟨f, hf⟩ := exec_encoder i hu; rw [hf] at h; cases h; rfl
  | decoder => obtain ⟨f, hf⟩ := exec_decoder i hu; rw [hf] at h; cases h; rfl
  | truncator => obtain ⟨f, hf⟩ := exec_truncator i hu; rw [hf] at h; cases h; rfl
  | counterMapper => obtain ⟨f, hf⟩ := exec_counterMapper i hu; rw [hf] at h; cases h; rfl

/-- A command leaves the view of every other unit. -/
theorem exec_keeps_view {i : Instr} {u : UnitName} {s t : State} (hu : unitOf i ≠ u) (h : exec i s = .next t) :
    viewOf u t = viewOf u s := by
  obtain ⟨-, henc, hdec, htrn, hctr⟩ := exec_frame h
  obtain ⟨hdigits, halg, hstep, helo, hehi, -⟩ := exec_keeps_options h
  cases u with
  | encoder => exact congrArg UnitView.encoder (henc hu)
  | decoder => exact congrArg UnitView.decoder (hdec hu)
  | truncator => exact congrArg₂ UnitView.truncator (htrn hu) (cfgWord_eq_iff.mpr ⟨halg, hdigits⟩)
  | counterMapper =>
    obtain ⟨hlo, hhi⟩ := hctr hu
    rw [viewOf, viewOf, counter_eq_iff.mpr ⟨hhi, hlo⟩, hstep, epoch_eq_iff.mpr ⟨hehi, helo⟩]

theorem exec_keeps_hostSide {i : Instr} {s t : State} (h : exec i s = .next t) : hostSide t = hostSide s := by
  rw [(exec_frame h).1]
  rfl

/-! ### What a command depends on -/

/-- A command run on two states that give its unit one view ends with one view and one code. -/
theorem exec_view_congr {i : Instr} {s u s' u' : State} (hs : exec i s = .next s') (hu : exec i u = .next u')
    (hview : viewOf (unitOf i) s = viewOf (unitOf i) u) :
    viewOf (unitOf i) s' = viewOf (unitOf i) u' ∧ s'.status = u'.status := by
  cases hunit : unitOf i with
  | encoder =>
    obtain ⟨f, hf⟩ := exec_encoder i hunit
    rw [hunit] at hview
    have henc : s.enc = u.enc := UnitView.encoder.inj hview
    rw [hf] at hs hu
    cases hs
    cases hu
    simp only [viewOf, henc, and_self]
  | decoder =>
    obtain ⟨f, hf⟩ := exec_decoder i hunit
    rw [hunit] at hview
    have hdec : s.dec = u.dec := UnitView.decoder.inj hview
    rw [hf] at hs hu
    cases hs
    cases hu
    simp only [viewOf, hdec, and_self]
  | truncator =>
    obtain ⟨f, hf⟩ := exec_truncator i hunit
    rw [hunit] at hview
    obtain ⟨htrn, hcfg⟩ := UnitView.truncator.inj hview
    obtain ⟨halg, hdigits⟩ := cfgWord_eq_iff.mp hcfg
    rw [hf] at hs hu
    cases hs
    cases hu
    simp only [viewOf, cfgWord, htrn, halg, hdigits, and_self]
  | counterMapper =>
    obtain ⟨f, hf⟩ := exec_counterMapper i hunit
    rw [hunit] at hview
    obtain ⟨hcounter, hstep, hepoch⟩ := UnitView.counterMapper.inj hview
    obtain ⟨hhi, hlo⟩ := counter_eq_iff.mp hcounter
    obtain ⟨hehi, helo⟩ := epoch_eq_iff.mp hepoch
    rw [hf] at hs hu
    cases hs
    cases hu
    simp only [viewOf, State.counter, State.epoch, hhi, hlo, hstep, hehi, helo, and_self]

/-- A command's unit and code after it are told by the unit's state and the registers its rule names before it
(40_host_access.md R97). -/
theorem exec_reads_unit {i : Instr} {s u s' u' : State} (hs : exec i s = .next s') (hu : exec i u = .next u') :
    match unitOf i with
    | .encoder => s.enc = u.enc → s'.enc = u'.enc ∧ s'.status = u'.status
    | .decoder => s.dec = u.dec → s'.dec = u'.dec ∧ s'.status = u'.status
    | .truncator => s.trn = u.trn → regValue .cfg s = regValue .cfg u → s'.trn = u'.trn ∧ s'.status = u'.status
    | .counterMapper => s.counter = u.counter → s.stepSeconds = u.stepSeconds → s.epoch = u.epoch →
        s'.counter = u'.counter ∧ s'.status = u'.status := by
  have hview := exec_view_congr hs hu
  cases hunit : unitOf i with rw [hunit] at hview
  | encoder =>
    intro henc
    obtain ⟨hview', hstatus⟩ := hview (congrArg UnitView.encoder henc)
    exact ⟨UnitView.encoder.inj hview', hstatus⟩
  | decoder =>
    intro hdec
    obtain ⟨hview', hstatus⟩ := hview (congrArg UnitView.decoder hdec)
    exact ⟨UnitView.decoder.inj hview', hstatus⟩
  | truncator =>
    intro htrn hcfg
    obtain ⟨hview', hstatus⟩ := hview (congrArg₂ UnitView.truncator htrn (Option.some.inj hcfg))
    exact ⟨(UnitView.truncator.inj hview').1, hstatus⟩
  | counterMapper =>
    intro hcounter hstep hepoch
    obtain ⟨hview', hstatus⟩ := hview (by rw [viewOf, viewOf, hcounter, hstep, hepoch])
    exact ⟨(UnitView.counterMapper.inj hview').1, hstatus⟩

/-! ### Two commands of different units -/

/-- The views of the four units and the host's side are the whole state but for STATUS.ERR. -/
theorem eq_setStatus_of_views {s t : State} (hview : ∀ u, viewOf u t = viewOf u s) (hhost : hostSide t = hostSide s) :
    t = { s with status := t.status } := by
  have henc := UnitView.encoder.inj (hview .encoder)
  have hdec := UnitView.decoder.inj (hview .decoder)
  obtain ⟨htrn, hcfg⟩ := UnitView.truncator.inj (hview .truncator)
  obtain ⟨hcounter, hstep, hepoch⟩ := UnitView.counterMapper.inj (hview .counterMapper)
  rw [cfgWord_eq_iff] at hcfg
  rw [counter_eq_iff] at hcounter
  rw [epoch_eq_iff] at hepoch
  cases s
  cases t
  simp_all [hostSide]

/-- Two commands of different units in either order: one state but for STATUS.ERR, which shows the last one. -/
theorem exec_comm {i j : Instr} (hne : unitOf i ≠ unitOf j) {s a b a' b' : State} (ha : exec i s = .next a)
    (hb : exec j a = .next b) (ha' : exec j s = .next a') (hb' : exec i a' = .next b') :
    b' = { b with status := b'.status } ∧ b.status = a'.status ∧ b'.status = a.status := by
  obtain ⟨hviewJ, hstatusJ⟩ := exec_view_congr hb ha' (exec_keeps_view hne ha)
  obtain ⟨hviewI, hstatusI⟩ := exec_view_congr hb' ha (exec_keeps_view hne.symm ha')
  have hview (u : UnitName) : viewOf u b' = viewOf u b := by
    by_cases hi : unitOf i = u
    · subst hi
      exact hviewI.trans (exec_keeps_view hne.symm hb).symm
    · by_cases hj : unitOf j = u
      · subst hj
        exact (exec_keeps_view hne hb').trans hviewJ.symm
      · rw [exec_keeps_view hi hb', exec_keeps_view hj ha', exec_keeps_view hj hb, exec_keeps_view hi ha]
  have hhost : hostSide b' = hostSide b := by
    rw [exec_keeps_hostSide hb', exec_keeps_hostSide ha', exec_keeps_hostSide hb, exec_keeps_hostSide ha]
  exact ⟨eq_setStatus_of_views hview hhost, hstatusJ, hstatusI⟩

/-- Settles O17: what a command writes, what it depends on, and from the two that commands of different units
commute. -/
theorem commandsOfDifferentUnitsDoNotInteract : Obligations.CommandsOfDifferentUnitsDoNotInteract := by
  refine ⟨fun i s s' => exec_writes_unit, fun i s u s' u' => exec_reads_unit, fun i j s hne => ?_⟩
  obtain ⟨a, ha⟩ := exec_ends i s
  obtain ⟨b, hb⟩ := exec_ends j a
  obtain ⟨a', ha'⟩ := exec_ends j s
  obtain ⟨b', hb'⟩ := exec_ends i a'
  exact ⟨a, b, a', b', ha, hb, ha', hb', exec_comm hne ha hb ha' hb'⟩

end Sys2Proof.Laws
end

section
/-! The bits of a number and the 5-bit groups of a bit stream (41_base32_encoder.md R102): what the source's
`encode` reads off the bits is what the encoder's arithmetic computes. -/

namespace Sys2Proof.Laws

open Sys2Proof.Machine

/-! ### Bits of a number, most significant first -/

theorem bitsOf_length (n v : Nat) : (Source.bitsOf n v).length = n := by
  rw [Source.bitsOf, List.length_map, List.length_range]

/-- The `m + k` low bits of a number are `m` bits from above the `k` lowest, then these. -/
theorem bitsOf_add (m k v : Nat) : Source.bitsOf (m + k) v = Source.bitsOf m (v / 2 ^ k) ++ Source.bitsOf k v := by
  simp only [Source.bitsOf, List.range_add, List.map_append, List.map_map]
  congr 1
  · refine List.map_congr_left fun j hj => ?_
    have hj := List.mem_range.mp hj
    rw [Nat.testBit_div_two_pow]
    congr 1
    omega
  · refine List.map_congr_left fun j hj => ?_
    have hj := List.mem_range.mp hj
    simp only [Function.comp]
    congr 1
    omega

/-- Bits above the `n` lowest do not count. -/
theorem bitsOf_mod (n v : Nat) : Source.bitsOf n (v % 2 ^ n) = Source.bitsOf n v := by
  refine List.map_congr_left fun j hj => ?_
  have hj := List.mem_range.mp hj
  rw [Nat.testBit_mod_two_pow, decide_eq_true (by omega), Bool.true_and]

theorem bitsOf_zero (n : Nat) : Source.bitsOf n 0 = List.replicate n false := by
  simp only [Source.bitsOf, Nat.zero_testBit, List.map_const', List.length_range]

/-- Bits followed by zeros are those of the number shifted left. -/
theorem bitsOf_append_replicate (n k v : Nat) :
    Source.bitsOf n v ++ List.replicate k false = Source.bitsOf (n + k) (v * 2 ^ k) := by
  rw [bitsOf_add, Nat.mul_div_cancel _ (by positivity), ← bitsOf_mod k, Nat.mul_mod_left, bitsOf_zero]

/-- Bits followed by the bits of one byte (41_base32_encoder.md R104). -/
theorem bitsOf_append_byte (n v : Nat) (b : Byte) :
    Source.bitsOf n v ++ Source.bitsOf 8 b.toNat = Source.bitsOf (n + 8) (v * 256 + b.toNat) := by
  have hb := b.isLt
  rw [bitsOf_add, ← bitsOf_mod 8 (v * 256 + b.toNat), show (v * 256 + b.toNat) / 2 ^ 8 = v by omega,
    show (v * 256 + b.toNat) % 2 ^ 8 = b.toNat by omega]

theorem bitsValue_append_singleton (bs : List Bool) (b : Bool) :
    Source.bitsValue (bs ++ [b]) = 2 * Source.bitsValue bs + b.toNat := by
  rw [Source.bitsValue, List.foldl_append]
  rfl

/-- The `n` low bits of a number spell its remainder by `2 ^ n`. -/
theorem bitsValue_bitsOf (n v : Nat) : Source.bitsValue (Source.bitsOf n v) = v % 2 ^ n := by
  induction n generalizing v with
  | zero => rw [pow_zero, Nat.mod_one]; rfl
  | succ n ih =>
    have hlast : Source.bitsOf 1 v = [v.testBit 0] := rfl
    rw [bitsOf_add, hlast, bitsValue_append_singleton, ih, Nat.testBit_zero, pow_one, pow_succ']
    have hbit : (decide (v % 2 = 1)).toNat = v % 2 := by
      rcases Nat.mod_two_eq_zero_or_one v with h | h <;> rw [h] <;> rfl
    rw [hbit, Nat.mod_mul]
    omega

/-! ### Symbols of a bit stream -/

/-- The symbols of a bit stream, the last group filled with zeros (§4.1). -/
def symbolText (bits : List Bool) : List Byte :=
  (Source.symbolGroups bits).map fun g => Source.symbol (Source.bitsValue g)

/-- The source's text of a byte sequence is the symbols of its bit stream. -/
theorem encodeText_eq_symbolText (bytes : List Byte) :
    Source.encodeText bytes = symbolText (bytes.flatMap fun b => Source.bitsOf 8 b.toNat) := rfl

/-- Five bits at the front of the stream are its first group. -/
theorem symbolGroups_five_append {g : List Bool} (h : g.length = 5) (rest : List Bool) :
    Source.symbolGroups (g ++ rest) = g :: Source.symbolGroups rest := by
  match g, h with
  | [_, _, _, _, _], _ => rfl

/-- One to four bits are one group, filled with zeros (41_base32_encoder.md R105). -/
theorem symbolGroups_partial {g : List Bool} (hpos : 0 < g.length) (hlt : g.length < 5) :
    Source.symbolGroups g = [g ++ List.replicate (5 - g.length) false] := by
  match g, hpos, hlt with
  | [_], _, _ => rfl
  | [_, _], _, _ => rfl
  | [_, _, _], _, _ => rfl
  | [_, _, _, _], _, _ => rfl

/-- The complete groups of the `n` bits at the front of the stream are shown from the top, and the `n mod 5` bits left
stand before the rest (41_base32_encoder.md R104). -/
theorem symbolText_bitsOf_append (n v : Nat) (rest : List Bool) :
    symbolText (Source.bitsOf n v ++ rest) =
      ((List.range (n / 5)).map fun k => Source.symbol (v / 2 ^ (n - 5 * (k + 1)) % 32)) ++
        symbolText (Source.bitsOf (n % 5) (v % 2 ^ (n % 5)) ++ rest) := by
  induction n using Nat.strong_induction_on with
  | _ n ih =>
    rcases Nat.lt_or_ge n 5 with hlt | hge
    · rw [Nat.mod_eq_of_lt hlt, Nat.div_eq_of_lt hlt, bitsOf_mod]
      rfl
    · obtain ⟨m, rfl⟩ : ∃ m, n = 5 + m := ⟨n - 5, by omega⟩
      have hfirst : symbolText (Source.bitsOf (5 + m) v ++ rest) =
          Source.symbol (v / 2 ^ m % 32) :: symbolText (Source.bitsOf m v ++ rest) := by
        rw [bitsOf_add, List.append_assoc, symbolText, symbolGroups_five_append (bitsOf_length 5 _), List.map_cons,
          bitsValue_bitsOf]
        rfl
      rw [hfirst, ih m (by omega), show (5 + m) / 5 = m / 5 + 1 by omega, show (5 + m) % 5 = m % 5 by omega,
        List.range_succ_eq_map, List.map_cons, List.map_map, List.cons_append]
      congr 2
      · rw [Nat.zero_add, Nat.mul_one, Nat.add_sub_cancel_left]
      · refine List.map_congr_left fun k _ => ?_
        simp only [Function.comp]
        rw [show 5 + m - 5 * (k.succ + 1) = m - 5 * (k + 1) by omega]

/-- The symbol of fewer than five bits, none if there are none (41_base32_encoder.md R105). -/
theorem symbolText_bitsOf_of_lt {n : Nat} (h : n < 5) (v : Nat) :
    symbolText (Source.bitsOf n v) = if n = 0 then [] else [Source.symbol (v * 2 ^ (5 - n) % 32)] := by
  split
  case isTrue h0 => rw [h0]; rfl
  case isFalse h0 =>
    have hlen := bitsOf_length n v
    rw [symbolText, symbolGroups_partial (by omega) (by omega), hlen, bitsOf_append_replicate, List.map_singleton,
      bitsValue_bitsOf, show n + (5 - n) = 5 by omega]
    rfl

end Sys2Proof.Laws
end

section
/-! What a unit shows over a list of permitted accesses: an access that runs none of the unit's commands shows
nothing and leaves the unit's state, so only the unit's commands count (40_host_access.md R97,
41_base32_encoder.md R108, 42_base32_decoder.md R129). -/

namespace Sys2Proof.Laws

open Sys2Proof.Machine

theorem unitCommandOf_eq_some {u : UnitName} {x : HostInput} {i : Instr} (h : unitCommandOf u x = some i) :
    commandOf x = some i ∧ unitOf i = u := by
  simpa [unitCommandOf, Option.filter_eq_some_iff] using h

/-- The write of a command's word runs that command (40_host_access.md R94). -/
theorem commandOf_runInput (i : Instr) : commandOf (runInput i) = some i :=
  commandOf_cmdWrite (decodeOfEncodeIsTheCommand i).1

theorem unitCommandOf_runInput (i : Instr) : unitCommandOf (unitOf i) (runInput i) = some i := by
  simp [unitCommandOf, commandOf_runInput]

theorem permittedInput_runInput (i : Instr) : permittedInput (runInput i) = true := permitted_cmdWrite (encode i)

theorem permittedInput_of_mem_map_runInput {is : List Instr} : ∀ x ∈ is.map runInput, permittedInput x = true :=
  List.forall_mem_map.mpr fun i _ => permittedInput_runInput i

/-- The unit's commands among the inputs that run them are all of these. -/
theorem filterMap_unitCommandOf_runInput {u : UnitName} {is : List Instr} (h : ∀ i ∈ is, unitOf i = u) :
    (is.map runInput).filterMap (unitCommandOf u) = is := by
  rw [List.filterMap_map]
  refine (List.filterMap_congr fun i hi => ?_).trans List.filterMap_some
  rw [Function.comp, ← h i hi, unitCommandOf_runInput]

/-- A command's input with reset not asserted ends as the command does, and reset stays not asserted. -/
theorem takeInput_unitCommand {u : UnitName} {x : HostInput} {i : Instr} {s : State} (h : unitCommandOf u x = some i)
    (hr : s.resetAsserted = false) :
    ∃ t, takeInput x s = .next t ∧ exec i s = .next t ∧ t.resetAsserted = false := by
  obtain ⟨t, ht⟩ := exec_ends i s
  obtain ⟨-, -, -, -, -, hreset, -⟩ := exec_keeps_options ht
  exact ⟨t, (takeInput_command (unitCommandOf_eq_some h).1 s hr).trans ht, ht, hreset.trans hr⟩

/-- A permitted access that runs no command of a unit is answered and leaves the unit's state (40_host_access.md
R97). -/
theorem takeInput_no_unitCommand {u : UnitName} {x : HostInput} {s : State} (h : unitCommandOf u x = none)
    (hp : permittedInput x = true) (hr : s.resetAsserted = false) :
    ∃ t, takeInput x s = .next t ∧ t.resetAsserted = false ∧ (u = .encoder → t.enc = s.enc) ∧
      (u = .decoder → t.dec = s.dec) ∧ (u = .truncator → t.trn = s.trn) := by
  cases hc : commandOf x with
  | none =>
    obtain ⟨t, ht, henc, hdec, htrn, hreset, -⟩ := takeInput_no_command_units hp hc s hr
    exact ⟨t, ht, hreset.trans hr, fun _ => henc, fun _ => hdec, fun _ => htrn⟩
  | some i =>
    have hu : unitOf i ≠ u := by simpa [unitCommandOf, hc, Option.filter_eq_none_iff] using h
    obtain ⟨t, ht⟩ := exec_ends i s
    obtain ⟨-, henc, hdec, htrn, -⟩ := exec_frame ht
    obtain ⟨-, -, -, -, -, hreset, -⟩ := exec_keeps_options ht
    exact ⟨t, (takeInput_command hc s hr).trans ht, hreset.trans hr, fun he => henc (he ▸ hu),
      fun he => hdec (he ▸ hu), fun he => htrn (he ▸ hu)⟩

theorem gather_cons_of_none {u : UnitName} {shown : State → List Byte} {x : HostInput} {s t : State}
    (hu : unitCommandOf u x = none) (hx : takeInput x s = .next t) (xs : List HostInput) :
    gather u shown (x :: xs) s = gather u shown xs t := by
  simp [gather, hx, hu]

theorem gather_cons_of_some {u : UnitName} {shown : State → List Byte} {x : HostInput} {i : Instr} {s t : State}
    (hu : unitCommandOf u x = some i) (hx : takeInput x s = .next t) (xs : List HostInput) :
    gather u shown (x :: xs) s = (gather u shown xs t).map fun r => (shown t ++ r.1, r.2) := by
  simp [gather, hx, hu]

/-! ### base32_encoder -/

/-- The encoder's state after a command: what the three encoder commands make of it, and no other command touches it
(10_state.md R43). -/
def encAfter : Instr → EncUnit → EncUnit
  | .encInit, _ => EncUnit.reset
  | .encPush b, e => e.pushByte b
  | .encFinal pad, e => e.finish pad
  | _, e => e

/-- An encoder command maps the encoder's state by `encAfter`, ends with 0 and changes nothing else
(41_base32_encoder.md R103 to R105). -/
theorem exec_eq_encAfter {i : Instr} (h : unitOf i = .encoder) (s : State) :
    exec i s = .next { s with status := .ok, enc := encAfter i s.enc } := by
  cases i with
  | encInit => rfl
  | encPush b => rfl
  | encFinal pad => rfl
  | _ => simp [unitOf] at h

/-- The encoder's state after a list of encoder commands. -/
def encAfterAll (is : List Instr) (e : EncUnit) : EncUnit := is.foldl (fun e i => encAfter i e) e

/-- The characters a list of encoder commands shows, in order. -/
def encShows : List Instr → EncUnit → List Byte
  | [], _ => []
  | i :: is, e => encChars (encAfter i e) ++ encShows is (encAfter i e)

/-- What an encode shows and leaves is told by its encoder commands and the encoder's state before them, whatever
permitted accesses fall between (41_base32_encoder.md R108). -/
theorem gatherEnc_eq_encShows (xs : List HostInput) (s : State) (hr : s.resetAsserted = false)
    (hp : ∀ x ∈ xs, permittedInput x = true) :
    ∃ t, gatherEnc xs s = some (encShows (xs.filterMap (unitCommandOf .encoder)) s.enc, t) ∧
      t.enc = encAfterAll (xs.filterMap (unitCommandOf .encoder)) s.enc := by
  induction xs generalizing s with
  | nil => exact ⟨s, rfl, rfl⟩
  | cons x xs ih =>
    obtain ⟨hpx, hpxs⟩ := List.forall_mem_cons.mp hp
    cases hu : unitCommandOf .encoder x with
    | none =>
      obtain ⟨u, hx, hru, henc, -, -⟩ := takeInput_no_unitCommand hu hpx hr
      rw [List.filterMap_cons_none hu, gatherEnc, gather_cons_of_none hu hx, ← henc rfl]
      exact ih u hru hpxs
    | some i =>
      obtain ⟨u, hx, hi, hru⟩ := takeInput_unitCommand hu hr
      rw [exec_eq_encAfter (unitCommandOf_eq_some hu).2] at hi
      obtain ⟨t, hgather, hafter⟩ := ih u hru hpxs
      have henc : u.enc = encAfter i s.enc := by rw [← Host.Outcome.next.inj hi]
      rw [gatherEnc] at hgather
      rw [henc] at hgather hafter
      rw [List.filterMap_cons_some hu, gatherEnc, gather_cons_of_some hu hx, hgather]
      exact ⟨t, by rw [Option.map_some, encShows, henc], hafter⟩

end Sys2Proof.Laws
end

section
/-! The correctness of an encode (41_base32_encoder.md R108): the bits pending in the encoder, followed by those of
the bytes still to come, are the part of the source's bit stream not yet shown. -/

namespace Sys2Proof.Laws

open Sys2Proof.Machine

/-- The pending bits of the encoder, the oldest first (10_state.md R31). -/
def pendingBits (e : EncUnit) : List Bool := Source.bitsOf e.nbits.toNat e.acc.toNat

/-- What remains to be shown of an encode with `sym` symbols shown (counted mod 8) and the given bits still to be
encoded. -/
def remainingText (pad : Bool) (sym : Nat) (bits : List Bool) : List Byte :=
  symbolText bits ++ if pad then Source.padding (sym + (symbolText bits).length) else []

/-- At the start of an encode all of the source's text remains (§4.1). -/
theorem encode_eq_remainingText (bytes : List Byte) (pad : Bool) :
    Source.encode bytes pad = remainingText pad 0 (bytes.flatMap fun b => Source.bitsOf 8 b.toNat) := by
  rw [Source.encode, encodeText_eq_symbolText, remainingText, Nat.zero_add]
  cases pad with
  | false => exact (List.append_nil _).symm
  | true => rfl

theorem padding_mod (n m : Nat) : Source.padding (n % 8 + m) = Source.padding (n + m) := by
  rw [Source.padding, Source.padding, Nat.mod_add_mod]

/-- The padding as ENC_FINAL counts it (41_base32_encoder.md R105). -/
theorem padding_eq_replicate (n : Nat) :
    Source.padding n = List.replicate (if n % 8 ≠ 0 then 8 - n % 8 else 0) Source.padChar := by
  rw [Source.padding]
  congr 1
  split <;> omega

/-- ENC_PUSH shows a symbol for every complete group (41_base32_encoder.md R104). -/
theorem encChars_pushByte_length {e : EncUnit} (h : e.Pending) (b : Byte) :
    (encChars (e.pushByte b)).length = (e.nbits.toNat + 8) / 5 := by
  obtain ⟨-, -, -, -, hchars⟩ := pushByte_fields e b h
  rw [hchars, List.length_map, List.length_range]

/-- ENC_PUSH shows the front of what remains: every complete group of the pending bits and the byte's
(41_base32_encoder.md R104). -/
theorem remainingText_pushByte {e : EncUnit} (h : e.Pending) (pad : Bool) (b : Byte) (rest : List Bool) :
    remainingText pad e.sym.toNat (pendingBits e ++ (Source.bitsOf 8 b.toNat ++ rest)) =
      encChars (e.pushByte b) ++
        remainingText pad (e.pushByte b).sym.toNat (pendingBits (e.pushByte b) ++ rest) := by
  obtain ⟨hacc, hnbits, hsym, -, hchars⟩ := pushByte_fields e b h
  have hsplit : symbolText (pendingBits e ++ (Source.bitsOf 8 b.toNat ++ rest)) =
      encChars (e.pushByte b) ++ symbolText (pendingBits (e.pushByte b) ++ rest) := by
    rw [← List.append_assoc, pendingBits, bitsOf_append_byte, symbolText_bitsOf_append, pendingBits, hnbits, hacc,
      hchars]
  rw [remainingText, hsplit, remainingText, List.append_assoc, List.length_append, hsym, padding_mod,
    encChars_pushByte_length h, Nat.add_assoc]

/-- ENC_FINAL shows all that remains (41_base32_encoder.md R105). -/
theorem encChars_finish {e : EncUnit} (h : e.Pending) (pad : Bool) :
    encChars (e.finish pad) = remainingText pad e.sym.toNat (pendingBits e) := by
  obtain ⟨-, -, hchars⟩ := finish_out e pad
  rw [hchars, remainingText, pendingBits, symbolText_bitsOf_of_lt (Nat.lt_succ_of_le h.1)]
  congr 1
  cases pad with
  | false => simp
  | true =>
    simp only [padding_eq_replicate, true_and, if_true]

/-- Pushes and ENC_FINAL show all that remains of the pending bits and the bytes. -/
theorem encShows_pushes_finish (bytes : List Byte) (pad : Bool) {e : EncUnit} (h : e.Pending) :
    encShows (bytes.map Instr.encPush ++ [.encFinal pad]) e =
      remainingText pad e.sym.toNat (pendingBits e ++ bytes.flatMap fun b => Source.bitsOf 8 b.toNat) := by
  induction bytes generalizing e with
  | nil =>
    rw [List.flatMap_nil, List.append_nil, ← encChars_finish h]
    exact List.append_nil _
  | cons b bytes ih =>
    rw [List.flatMap_cons, remainingText_pushByte h, ← ih (pushByte_pending e b h)]
    rfl

/-- Settles O25: the other accesses do not count, ENC_INIT leaves nothing pending and nothing shown, and each further
command shows the front of what remains of the source's text. -/
theorem encodeSequenceComputesTheSourceEncode : Obligations.EncodeSequenceComputesTheSourceEncode := by
  intro s xs bytes pad hr hp hcommands
  obtain ⟨t, hgather, -⟩ := gatherEnc_eq_encShows xs s hr hp
  have hinit : encShows (.encInit :: bytes.map Instr.encPush ++ [.encFinal pad]) s.enc =
      encShows (bytes.map Instr.encPush ++ [.encFinal pad]) EncUnit.reset := rfl
  refine ⟨t, ?_⟩
  rw [hgather, hcommands, hinit, encShows_pushes_finish bytes pad encReset_inv.pending, encode_eq_remainingText]
  rfl

end Sys2Proof.Laws
end

section
/-! The three encoder commands one by one: what each shows, what stays pending, and how many symbols and bits there are
after a number of bytes (41_base32_encoder.md R103 to R107 and R109). -/

namespace Sys2Proof.Laws

open Sys2Proof.Machine

/-! ### ENC_INIT -/

/-- Settles O20: ENC_INIT's update of the encoder is its reset value. -/
theorem encInitStartsANewEncode : Obligations.EncInitStartsANewEncode := fun _ => ⟨rfl, rfl⟩

/-! ### ENC_PUSH -/

/-- Lane `k` after ENC_PUSH: the symbols of the complete groups, then 0 (41_base32_encoder.md R104). -/
theorem encLane_pushByte {e : EncUnit} (h : e.Pending) (b : Byte) {k : Nat} (hk : k < 8) :
    encLane (e.pushByte b) k =
      if k < (e.nbits.toNat + 8) / 5 then
        Source.symbol ((e.acc.toNat * 256 + b.toNat) / 2 ^ (e.nbits.toNat + 8 - 5 * (k + 1)) % 32)
      else 0 := by
  obtain ⟨-, heq⟩ := pushByte_eq e b h
  rw [heq, encLane_setOut _ _ _ hk, List.getD_eq_getElem?_getD, List.getElem?_map]
  split
  case isTrue hlt => rw [List.getElem?_range hlt]; rfl
  case isFalse hge => rw [List.getElem?_eq_none (by rw [List.length_range]; omega)]; rfl

/-- Settles O21: the fields of `pushByte` in closed form; the number of symbols is 1 below 2 pending bits and 2 from
there on, and the example runs. -/
theorem encPushEmitsEveryCompleteGroup : Obligations.EncPushEmitsEveryCompleteGroup := by
  refine ⟨fun s b h => ?_, _, rfl, by decide, by decide, by decide⟩
  obtain ⟨hacc, hnbits, hsym, houtN, -⟩ := pushByte_fields s.enc b h
  have hlt := h.1
  refine ⟨_, rfl, rfl, hacc, hnbits, hsym, houtN, fun k hk => encLane_pushByte h b hk, fun hle => ?_, fun hge => ?_⟩
  · exact BitVec.eq_of_toNat_eq (houtN.trans (show (s.enc.nbits.toNat + 8) / 5 = 1 by omega))
  · exact BitVec.eq_of_toNat_eq (houtN.trans (show (s.enc.nbits.toNat + 8) / 5 = 2 by omega))

/-! ### ENC_FINAL -/

/-- How many symbols ENC_FINAL flushes: one if bits are pending (41_base32_encoder.md R105). -/
def flushCount (e : EncUnit) : Nat := if e.nbits.toNat = 0 then 0 else 1

/-- How many `=` ENC_FINAL shows after them (41_base32_encoder.md R105). -/
def padCount (pad : Bool) (e : EncUnit) : Nat :=
  if pad = true ∧ (e.sym.toNat + flushCount e) % 8 ≠ 0 then 8 - (e.sym.toNat + flushCount e) % 8 else 0

/-- Without `pad` there is no `=` (41_base32_encoder.md R105). -/
theorem pad_of_padCount_pos {pad : Bool} {e : EncUnit} (h : 0 < padCount pad e) : pad = true := by
  rw [padCount] at h
  split at h
  case isTrue hpad => exact hpad.1
  case isFalse => exact absurd h (Nat.lt_irrefl 0)

theorem flushCount_add_padCount_le (pad : Bool) (e : EncUnit) : flushCount e + padCount pad e ≤ 8 := by
  have hflush : flushCount e ≤ 1 := by rw [flushCount]; split <;> decide
  rw [padCount]
  split <;> omega

/-- ENC_FINAL's update with its characters counted: the flushed symbol, then the `=` (41_base32_encoder.md R105). -/
theorem finish_eq (e : EncUnit) (pad : Bool) :
    e.finish pad =
      (e.setOut (List.replicate (flushCount e) (Source.symbol (e.acc.toNat * 2 ^ (5 - e.nbits.toNat) % 32)) ++
        List.replicate (padCount pad e) Source.padChar)).clearStream := by
  obtain ⟨heq, -⟩ := finish_out e pad
  rw [heq, padCount, flushCount]
  split <;> rfl

theorem getD_replicate_append_replicate (m n k : Nat) (a b : Byte) :
    (List.replicate m a ++ List.replicate n b).getD k 0 = if k < m then a else if k < m + n then b else 0 := by
  rw [List.getD_eq_getElem?_getD, List.getElem?_append, List.length_replicate, List.getElem?_replicate,
    List.getElem?_replicate]
  split
  case isTrue => rfl
  case isFalse hge =>
    simp only [show k - m < n ↔ k < m + n by omega]
    split <;> rfl

theorem finish_outN (e : EncUnit) (pad : Bool) : (e.finish pad).outN.toNat = flushCount e + padCount pad e := by
  have := flushCount_add_padCount_le pad e
  rw [finish_eq, encClearStream_outN, setOut_outN, List.length_append, List.length_replicate, List.length_replicate,
    BitVec.toNat_ofNat, Nat.mod_eq_of_lt (by omega)]

/-- Lane `k` after ENC_FINAL: the flushed symbol, then the `=`, then 0 (41_base32_encoder.md R105). -/
theorem encLane_finish (e : EncUnit) (pad : Bool) {k : Nat} (hk : k < 8) :
    encLane (e.finish pad) k =
      if k < flushCount e then Source.symbol (e.acc.toNat * 2 ^ (5 - e.nbits.toNat) % 32)
      else if k < flushCount e + padCount pad e then Source.padChar else 0 := by
  rw [finish_eq, encLane_clearStream, encLane_setOut _ _ _ hk, getD_replicate_append_replicate]

/-- ENC_FINAL clears the stream (41_base32_encoder.md R105). -/
theorem finish_stream (e : EncUnit) (pad : Bool) :
    (e.finish pad).acc = 0 ∧ (e.finish pad).nbits = 0 ∧ (e.finish pad).sym = 0 := ⟨rfl, rfl, rfl⟩

/-- Where the symbols and the pending bits are those of whole bytes, at most 7 characters are left to show. -/
theorem flushCount_add_padCount_le_of_wholeBytes {e : EncUnit} (h : e.Pending) (pad : Bool)
    (hbytes : 8 ∣ 5 * e.sym.toNat + e.nbits.toNat) : flushCount e + padCount pad e ≤ 7 := by
  have hnbits := h.1
  have hsym : e.nbits.toNat ≠ 0 → e.sym.toNat ≠ 0 := by omega
  rw [padCount, flushCount]
  split <;> split <;> omega

/-- Settles O22: the update of ENC_FINAL in closed form, and the examples run. -/
theorem encFinalFlushesAndPads : Obligations.EncFinalFlushesAndPads := by
  refine ⟨fun s pad h => ?_, ⟨_, rfl, by decide, by decide⟩, _, rfl, by decide, by decide⟩
  obtain ⟨hacc, hnbits, hsym⟩ := finish_stream s.enc pad
  refine ⟨_, rfl, rfl, hacc, hnbits, hsym, finish_outN s.enc pad, fun k hk => encLane_finish s.enc pad hk,
    fun h0 hs0 => ?_, fun hbytes => ?_⟩
  · refine BitVec.eq_of_toNat_eq ((finish_outN s.enc pad).trans ?_)
    simp [padCount, flushCount, h0, hs0]
  · exact (finish_outN s.enc pad).trans_le (flushCount_add_padCount_le_of_wholeBytes h pad hbytes)

/-! ### What stays pending -/

theorem exec_keeps_enc_pending {i : Instr} {s t : State} (he : exec i s = .next t) (h : s.enc.Pending) :
    t.enc.Pending := by
  cases i with
  | encInit => obtain rfl := Host.Outcome.next.inj he; exact encReset_inv.pending
  | encPush b => obtain rfl := Host.Outcome.next.inj he; exact pushByte_pending s.enc b h
  | encFinal pad => obtain rfl := Host.Outcome.next.inj he; exact (finish_inv s.enc pad).pending
  | _ =>
    obtain ⟨-, henc, -⟩ := exec_frame he
    rw [henc (by simp [unitOf])]
    exact h

theorem takeInput_keeps_enc_pending {x : HostInput} {s t : State} (hx : takeInput x s = .next t)
    (h : s.enc.Pending) : t.enc.Pending := by
  cases x with
  | resetLine b =>
    obtain rfl := Host.Outcome.next.inj hx
    rcases driveReset_cases b s with ⟨he, -, -⟩ | he <;> rw [he]
    · exact h
    · exact encReset_inv.pending
  | access a =>
    simp only [takeInput] at hx
    split at hx
    · exact nomatch hx
    · rcases (answerAccess_units hx).2 with ⟨henc, -, -⟩ | ⟨i, he⟩
      · exact henc ▸ h
      · exact exec_keeps_enc_pending he h

/-- Settles O23: a step takes one input, and an input that reaches the encoder is one of its commands or a reset. -/
theorem encoderPendingBitsStayBelowFive : Obligations.EncoderPendingBitsStayBelowFive := by
  refine ⟨fun s s' h hs => ?_, ⟨rfl, rfl⟩, fun s s' h => ?_, fun w s s' hw hunit => ?_⟩
  · cases hp : s.pending with
    | nil =>
      rw [step_nil hp] at hs
      obtain rfl := Host.Outcome.next.inj hs
      exact h
    | cons x rest =>
      rw [step_cons hp] at hs
      exact takeInput_keeps_enc_pending hs h
  · rcases h with he | ⟨pad, he⟩ <;> obtain rfl := Host.Outcome.next.inj he
    · exact ⟨rfl, rfl⟩
    · obtain ⟨hacc, hnbits, -⟩ := finish_stream s.enc pad
      exact ⟨hacc, hnbits⟩
  · have henc : s'.enc = s.enc := by
      cases hd : decode w with
      | command i =>
        rw [runCommand_command hd] at hw
        exact (exec_frame hw).2.1 (hunit i hd)
      | illegal why =>
        rw [runCommand_illegal hd] at hw
        rw [← Host.Outcome.next.inj hw]
    rw [henc]
    exact ⟨rfl, rfl⟩

/-! ### Counts -/

/-- The symbols shown and the bits pending after a number of pushes (41_base32_encoder.md R107). -/
theorem encShows_pushes_counts (bytes : List Byte) {e : EncUnit} (h : e.Pending) :
    let n := e.nbits.toNat + 8 * bytes.length
    let f := encAfterAll (bytes.map Instr.encPush) e
    (encShows (bytes.map Instr.encPush) e).length = n / 5 ∧ f.nbits.toNat = n % 5 ∧
      f.sym.toNat = (e.sym.toNat + n / 5) % 8 := by
  induction bytes generalizing e with
  | nil =>
    have hlt := h.1
    refine ⟨(Nat.div_eq_of_lt (Nat.lt_succ_of_le hlt)).symm, (Nat.mod_eq_of_lt (Nat.lt_succ_of_le hlt)).symm, ?_⟩
    simp only [List.map_nil, encAfterAll, List.foldl_nil, List.length_nil]
    omega
  | cons b bytes ih =>
    obtain ⟨-, hnbits, hsym, -⟩ := pushByte_fields e b h
    obtain ⟨hlen, hnbits', hsym'⟩ := ih (pushByte_pending e b h)
    have hshown := encChars_pushByte_length h b
    intro n f
    have hn : n = e.nbits.toNat + 8 + 8 * bytes.length := by simp only [n, List.length_cons]; omega
    refine ⟨?_, hnbits'.trans ?_, hsym'.trans ?_⟩
    · rw [List.map_cons, encShows, List.length_append, encAfter, hlen, hshown]
      omega
    · omega
    · omega

/-- The characters of a whole encode of `m` bytes (41_base32_encoder.md R107): the symbols of `8 m` bits, and with `pad`
as many as 8 for each 5 bytes begun. -/
theorem shown_add_finish_count {e : EncUnit} {m : Nat} (hnbits : e.nbits.toNat = 8 * m % 5)
    (hsym : e.sym.toNat = 8 * m / 5 % 8) (pad : Bool) :
    8 * m / 5 + (flushCount e + padCount pad e) = if pad then 8 * ((m + 4) / 5) else (8 * m + 4) / 5 := by
  have hflush : 8 * m / 5 + flushCount e = (8 * m + 4) / 5 := by rw [flushCount]; split <;> omega
  cases pad with
  | false => exact hflush
  | true =>
    have hmod : (e.sym.toNat + flushCount e) % 8 = (8 * m + 4) / 5 % 8 := by omega
    rw [padCount, hmod, ← Nat.add_assoc, hflush]
    simp only [true_and, if_true]
    split <;> omega

/-- ENC_FINAL's characters depend on the number of bytes mod 5 only (41_base32_encoder.md R107). -/
theorem finish_count_mod_five {c m : Nat} {pad : Bool}
    (htotal : 8 * m / 5 + c = if pad then 8 * ((m + 4) / 5) else (8 * m + 4) / 5) :
    c = (if pad then 8 * ((m % 5 + 4) / 5) else (8 * (m % 5) + 4) / 5) - 8 * (m % 5) / 5 := by
  have hshown : 8 * m / 5 = 8 * (m / 5) + 8 * (m % 5) / 5 := by omega
  have hpadded : (m + 4) / 5 = m / 5 + (m % 5 + 4) / 5 := by omega
  have hplain : (8 * m + 4) / 5 = 8 * (m / 5) + (8 * (m % 5) + 4) / 5 := by omega
  split_ifs at htotal ⊢ <;> omega

/-- Settles O24: the counts of the pushes from a cleared stream, then ENC_FINAL's, which is a table over the number of
bytes mod 5. -/
theorem encoderCountsFollowTheByteCount : Obligations.EncoderCountsFollowTheByteCount := by
  intro s bytes pad hr hacc hnbits hsym
  have hacc0 : s.enc.acc.toNat = 0 := congrArg BitVec.toNat hacc
  have hnbits0 : s.enc.nbits.toNat = 0 := congrArg BitVec.toNat hnbits
  have hsym0 : s.enc.sym.toNat = 0 := congrArg BitVec.toNat hsym
  have hpending : s.enc.Pending := ⟨by omega, by rw [hacc0]; positivity⟩
  obtain ⟨t, hgather, hafter⟩ := gatherEnc_eq_encShows ((bytes.map Instr.encPush).map runInput) s hr
    permittedInput_of_mem_map_runInput
  have hpushes : ∀ i ∈ bytes.map Instr.encPush, unitOf i = .encoder := List.forall_mem_map.mpr fun _ _ => rfl
  rw [filterMap_unitCommandOf_runInput hpushes] at hgather hafter
  obtain ⟨hlen, hnbits', hsym'⟩ := encShows_pushes_counts bytes hpending
  rw [hnbits0, Nat.zero_add] at hlen hnbits' hsym'
  rw [← hafter] at hnbits' hsym'
  rw [hsym0, Nat.zero_add] at hsym'
  rw [List.map_map] at hgather
  have htotal := shown_add_finish_count hnbits' hsym' pad
  refine ⟨_, t, hgather, hlen, hsym', hnbits', { t with enc := t.enc.finish pad, status := .ok }, rfl, ?_, ?_⟩
  · rw [finish_outN, finish_count_mod_five htotal]
    have hlt : bytes.length % 5 < 5 := Nat.mod_lt _ (by decide)
    clear htotal
    generalize bytes.length % 5 = r at hlt
    revert r pad
    decide
  · rw [finish_outN, hlen, htotal]

/-! ### The characters shown -/

theorem symbol_mem_alphabet {v : Nat} (h : v < 32) :
    Source.symbol v ∈ Source.alphabet ∧ Source.symbol v ≠ Source.padChar :=
  symbolCode_eq_alphabet v h ▸ symbolCode_mem_alphabet _

/-- The characters shown are those put into the output registers (41_base32_encoder.md R101). -/
theorem encLane_setOut_mem (e : EncUnit) {out : List Byte} (hlen : out.length ≤ 8) {k : Nat}
    (hk : k < (e.setOut out).outN.toNat) : encLane (e.setOut out) k ∈ out := by
  rw [setOut_outN, BitVec.toNat_ofNat, Nat.mod_eq_of_lt (by omega)] at hk
  rw [encLane_setOut out e k (by omega), List.getD_eq_getElem _ _ hk]
  exact List.getElem_mem hk

/-- ENC_PUSH shows alphabet symbols only, whatever was pending (41_base32_encoder.md R109). -/
theorem encLane_pushByte_mem_alphabet (e : EncUnit) (b : Byte) {k : Nat} (hk : k < (e.pushByte b).outN.toNat) :
    encLane (e.pushByte b) k ∈ Source.alphabet ∧ encLane (e.pushByte b) k ≠ Source.padChar := by
  have hcount := (drainSymbols_counts _ ((e.acc.toNat <<< 8) ||| b.toNat) (e.nbits.toNat + 8) le_rfl).1
  have hnbits := e.nbits.isLt
  exact drainSymbols_mem _ _ _ _ (encLane_setOut_mem _ (by omega) hk)

/-- Settles O26: a push shows symbols of the loop; ENC_FINAL the flushed symbol and then `=` only. -/
theorem encoderShowsOnlyTheAlphabetAndTrailingPadding :
    Obligations.EncoderShowsOnlyTheAlphabetAndTrailingPadding := by
  intro i s hi
  cases i with
  | encInit => exact ⟨_, rfl, fun k hk => absurd hk (Nat.not_lt_zero k)⟩
  | encPush b =>
    exact ⟨_, rfl, fun k hk => .inl (encLane_pushByte_mem_alphabet s.enc b hk)⟩
  | encFinal pad =>
    have hle := flushCount_add_padCount_le pad s.enc
    refine ⟨{ s with enc := s.enc.finish pad, status := .ok }, rfl, fun k hk => ?_⟩
    rw [finish_outN] at hk ⊢
    rcases Nat.lt_or_ge k (flushCount s.enc) with hlt | hge
    · left
      rw [encLane_finish _ _ (by omega), if_pos hlt]
      exact symbol_mem_alphabet (Nat.mod_lt _ (by decide))
    · right
      have hpos : 0 < padCount pad s.enc := by omega
      refine ⟨congrArg _ (pad_of_padCount_pos hpos), fun j hkj hj => ?_⟩
      rw [encLane_finish _ _ (by omega), if_neg (not_lt.mpr (hge.trans hkj)), if_pos hj]
  | _ => simp [unitOf] at hi

end Sys2Proof.Laws
end

section
/-! The three decoder commands one by one: what each makes of the decoder's state, what stays pending, and how an error
sticks (42_base32_decoder.md R120 to R128). -/

namespace Sys2Proof.Laws

open Sys2Proof.Machine

/-! ### Character values, DEC_INIT and DEC_FINAL -/

/-- Settles O27: the ranges are read as numbers, where no difference goes below 0 and no value above its width. -/
theorem characterValuesFoldOnlyAsciiLetters : Obligations.CharacterValuesFoldOnlyAsciiLetters := by
  intro c
  simp only [upperCode, symbolValue, BitVec.le_def, BitVec.reduceToNat]
  constructor
  · split
    case isTrue h => rw [BitVec.toNat_sub_of_le (BitVec.le_def.mpr (le_trans (by decide) h.1))]; rfl
    case isFalse => rfl
  · split
    case isTrue h => rw [Option.map_some, BitVec.toNat_ofNat, Nat.mod_eq_of_lt (by omega)]
    case isFalse =>
      split
      case isTrue h => rw [Option.map_some, BitVec.toNat_ofNat, Nat.mod_eq_of_lt (by omega)]
      case isFalse => rfl

/-- Settles O28: DEC_INIT's update of the decoder is its reset value. -/
theorem decInitStartsANewDecode : Obligations.DecInitStartsANewDecode := fun _ => ⟨rfl, rfl⟩

/-- Settles O30: DEC_FINAL reports `decFinalCode`, and its update of the decoder is the reset value. -/
theorem decFinalReportsTheVerdict : Obligations.DecFinalReportsTheVerdict := fun _ => rfl

/-! ### DEC_PUSH -/

/-- The decoder's state after DEC_PUSH, in the terms of the source's character values (42_base32_decoder.md R122). -/
def decPushAfter (c : Byte) (d : DecUnit) : DecUnit :=
  if d.err then d.clearOut
  else if c = Source.padChar then { d.clearOut with pad := true }
  else match Source.charValue c with
    | none => d.failStream
    | some v => if d.pad then d.failStream else d.takeSymbol (BitVec.ofNat 5 v)

theorem decPushAfter_of_err {d : DecUnit} (h : d.err = true) (c : Byte) : decPushAfter c d = d.clearOut := by
  rw [decPushAfter, if_pos h]

theorem decPushAfter_padChar {d : DecUnit} (h : d.err = false) :
    decPushAfter Source.padChar d = { d.clearOut with pad := true } := by
  rw [decPushAfter, if_neg (by simp [h]), if_pos rfl]

theorem decPushAfter_of_fails {c : Byte} {d : DecUnit} (h : d.err = false) (hc : c ≠ Source.padChar)
    (hfails : Source.charValue c = none ∨ d.pad = true) : decPushAfter c d = d.failStream := by
  rw [decPushAfter, if_neg (by simp [h]), if_neg hc]
  cases hv : Source.charValue c with
  | none => rfl
  | some v => exact if_pos (hfails.resolve_left (by simp [hv]))

theorem decPushAfter_of_symbol {c : Byte} {v : Nat} {d : DecUnit} (h : d.err = false)
    (hv : Source.charValue c = some v) (hpad : d.pad = false) :
    decPushAfter c d = d.takeSymbol (BitVec.ofNat 5 v) := by
  have hc : c ≠ Source.padChar := by
    rintro rfl
    exact nomatch charValue_padChar.symm.trans hv
  rw [decPushAfter, if_neg (by simp [h]), if_neg hc, hv]
  exact if_neg (by simp [hpad])

/-- The four updates of DEC_PUSH (42_base32_decoder.md R122): a sticky error, a `=`, a failure, a symbol taken. -/
theorem decPushAfter_cases (c : Byte) (d : DecUnit) :
    (d.err = true ∧ decPushAfter c d = d.clearOut) ∨
    (d.err = false ∧ c = Source.padChar ∧ decPushAfter c d = { d.clearOut with pad := true }) ∨
    (d.err = false ∧ c ≠ Source.padChar ∧ (Source.charValue c = none ∨ d.pad = true) ∧
      decPushAfter c d = d.failStream) ∨
    (∃ v, d.err = false ∧ Source.charValue c = some v ∧ d.pad = false ∧
      decPushAfter c d = d.takeSymbol (BitVec.ofNat 5 v)) := by
  cases herr : d.err with
  | true => exact .inl ⟨rfl, decPushAfter_of_err herr c⟩
  | false =>
    by_cases hc : c = Source.padChar
    · subst hc
      exact .inr (.inl ⟨rfl, rfl, decPushAfter_padChar herr⟩)
    · by_cases hfails : Source.charValue c = none ∨ d.pad = true
      · exact .inr (.inr (.inl ⟨rfl, hc, hfails, decPushAfter_of_fails herr hc hfails⟩))
      · obtain ⟨hv, hpad⟩ := not_or.mp hfails
        obtain ⟨v, hv⟩ := Option.ne_none_iff_exists'.mp hv
        have hpad := Bool.not_eq_true _ ▸ hpad
        exact .inr (.inr (.inr ⟨v, rfl, hv, hpad, decPushAfter_of_symbol herr hv hpad⟩))

theorem decFinalCode_eq_decodeError_iff (d : DecUnit) : decFinalCode d = .decodeError ↔ d.err = true := by
  cases h : d.err <;> simp [decFinalCode, h]

theorem decFinalCode_eq_ok_iff (d : DecUnit) : decFinalCode d = .ok ↔ d.err = false := by
  cases h : d.err <;> simp [decFinalCode, h]

/-- DEC_PUSH maps the decoder's state by `decPushAfter` and changes nothing else but STATUS.ERR, which tells whether the
decode is now in error (42_base32_decoder.md R122). -/
theorem exec_decPush (c : Byte) (s : State) :
    exec (.decPush c) s =
      .next { s with status := decFinalCode (decPushAfter c s.dec), dec := decPushAfter c s.dec } := by
  rcases decPush_cases c s with ⟨herr, h⟩ | ⟨herr, rfl, h⟩ | ⟨herr, hc, hfails, h⟩ | ⟨v, herr, hv, hpad, -, h⟩ <;> rw [h]
  · rw [decPushAfter_of_err herr, (decFinalCode_eq_decodeError_iff s.dec.clearOut).mpr herr]
  · rw [decPushAfter_padChar herr, (decFinalCode_eq_ok_iff { s.dec.clearOut with pad := true }).mpr herr]
  · rw [decPushAfter_of_fails herr hc hfails]
    rfl
  · rw [decPushAfter_of_symbol herr hv hpad, (decFinalCode_eq_ok_iff (s.dec.takeSymbol _)).mpr herr]

theorem exec_decPush_ok {c : Byte} {s : State} {d : DecUnit} (h : decPushAfter c s.dec = d) (herr : d.err = false) :
    exec (.decPush c) s = .next { s with status := .ok, dec := d } := by
  rw [exec_decPush, h, (decFinalCode_eq_ok_iff d).mpr herr]

theorem exec_decPush_error {c : Byte} {s : State} {d : DecUnit} (h : decPushAfter c s.dec = d) (herr : d.err = true) :
    exec (.decPush c) s = .next { s with status := .decodeError, dec := d } := by
  rw [exec_decPush, h, (decFinalCode_eq_decodeError_iff d).mpr herr]

/-- Settles O29: the four updates of `decPushAfter`, the symbol's in closed form; the example runs. -/
theorem decPushTakesOneCharacter : Obligations.DecPushTakesOneCharacter := by
  refine ⟨fun s c hpending => ⟨fun herr => exec_decPush_error (decPushAfter_of_err herr c) herr, fun herr hc => ?_,
    fun herr hc hfails => exec_decPush_error (decPushAfter_of_fails herr hc hfails) rfl, fun v herr hv hpad => ?_⟩,
    _, _, rfl, rfl, by decide, by decide, by decide, by decide⟩
  · subst hc
    exact exec_decPush_ok (decPushAfter_padChar herr) herr
  · obtain ⟨-, htaken⟩ := takeSymbol_eq s.dec v (charValue_lt hv) hpending
    rw [exec_decPush_ok (decPushAfter_of_symbol herr hv hpad) herr, htaken]

/-! ### The decoder's state after a command -/

/-- The decoder's state after a command: what the three decoder commands make of it, and no other command touches it
(10_state.md R43). -/
def decAfter : Instr → DecUnit → DecUnit
  | .decInit, _ => DecUnit.reset
  | .decPush c, d => decPushAfter c d
  | .decFinal, _ => DecUnit.reset
  | _, d => d

theorem exec_dec {i : Instr} {s t : State} (h : exec i s = .next t) : t.dec = decAfter i s.dec := by
  cases i with
  | decInit => obtain rfl := Host.Outcome.next.inj h; rfl
  | decPush c => obtain rfl := Host.Outcome.next.inj ((exec_decPush c s).symm.trans h); rfl
  | decFinal => obtain rfl := Host.Outcome.next.inj h; rfl
  | _ => exact (exec_frame h).2.2.1 (by simp [unitOf])

/-- What a step can do to the decoder: nothing, a reset, or a command's update (40_host_access.md R90,
70_reset_and_hazards.md R230). -/
theorem step_dec {s t : State} (h : step s = .next t) :
    t.dec = s.dec ∨ t.dec = DecUnit.reset ∨ ∃ i, t.dec = decAfter i s.dec := by
  cases hp : s.pending with
  | nil =>
    rw [step_nil hp] at h
    exact .inl (congrArg State.dec (Host.Outcome.next.inj h)).symm
  | cons x rest =>
    rw [step_cons hp] at h
    cases x with
    | resetLine b =>
      obtain rfl := Host.Outcome.next.inj h
      rcases driveReset_cases b { s with pending := rest } with ⟨he, -, -⟩ | he <;> rw [he]
      · exact .inl rfl
      · exact .inr (.inl rfl)
    | access a =>
      rw [takeInput] at h
      split at h
      · exact nomatch h
      · rcases (answerAccess_units h).2 with ⟨-, hdec, -⟩ | ⟨i, he⟩
        · exact .inl hdec
        · exact .inr (.inr ⟨i, (exec_dec he :)⟩)

/-! ### What stays pending -/

theorem decPushAfter_pending (c : Byte) {d : DecUnit} (h : d.Pending) : (decPushAfter c d).Pending := by
  rcases decPushAfter_cases c d with ⟨-, he⟩ | ⟨-, -, he⟩ | ⟨-, -, -, he⟩ | ⟨v, -, hv, -, he⟩ <;> rw [he]
  · exact h
  · exact h
  · exact (failStream_inv d).pending
  · exact takeSymbol_pending d v (charValue_lt hv) h

theorem decAfter_pending (i : Instr) {d : DecUnit} (h : d.Pending) : (decAfter i d).Pending := by
  cases i with
  | decInit => exact decReset_inv.pending
  | decPush c => exact decPushAfter_pending c h
  | decFinal => exact decReset_inv.pending
  | _ => exact h

/-- A push that ends in error leaves nothing pending, if a sticky error already did (42_base32_decoder.md R126). -/
theorem decPushAfter_empty_of_err {c : Byte} {d : DecUnit} (hfailed : (decPushAfter c d).err = true)
    (hsticky : d.err = true → d.acc = 0 ∧ d.nbits = 0) :
    (decPushAfter c d).acc = 0 ∧ (decPushAfter c d).nbits = 0 := by
  rcases decPushAfter_cases c d with ⟨herr, he⟩ | ⟨herr, -, he⟩ | ⟨-, -, -, he⟩ | ⟨v, herr, -, -, he⟩ <;>
    rw [he] at hfailed ⊢
  · exact hsticky herr
  · exact absurd (herr.symm.trans hfailed) (by decide)
  · exact ⟨rfl, rfl⟩
  · exact absurd (herr.symm.trans hfailed) (by decide)

/-- Settles O31: a step leaves the decoder, resets it or runs a command; the code of a push tells whether it ended in
error. -/
theorem decoderPendingBitsStayBelowEight : Obligations.DecoderPendingBitsStayBelowEight := by
  refine ⟨fun s s' h hs => ?_, ⟨rfl, rfl⟩, fun s s' h => ?_⟩
  · rcases step_dec hs with he | he | ⟨i, he⟩ <;> rw [he]
    · exact h
    · exact decReset_inv.pending
    · exact decAfter_pending i h
  · rcases h with he | he | ⟨c, he, hcode, hsticky⟩
    · obtain rfl := Host.Outcome.next.inj he
      exact ⟨rfl, rfl⟩
    · obtain rfl := Host.Outcome.next.inj he
      exact ⟨rfl, rfl⟩
    · obtain rfl := Host.Outcome.next.inj ((exec_decPush c s).symm.trans he)
      exact decPushAfter_empty_of_err ((decFinalCode_eq_decodeError_iff _).mp hcode) hsticky

end Sys2Proof.Laws
end

section
/-! What a decode shows over a list of permitted accesses, and how an error sticks (42_base32_decoder.md R128 and
R129). -/

namespace Sys2Proof.Laws

open Sys2Proof.Machine

/-! ### What a list of decoder commands shows -/

/-- The decoder's state after a list of commands. -/
def decAfterAll (is : List Instr) (d : DecUnit) : DecUnit := is.foldl (fun d i => decAfter i d) d

/-- The bytes a list of decoder commands shows, in order. -/
def decShows : List Instr → DecUnit → List Byte
  | [], _ => []
  | i :: is, d => decBytes (decAfter i d) ++ decShows is (decAfter i d)

theorem decAfterAll_cons (i : Instr) (is : List Instr) (d : DecUnit) :
    decAfterAll (i :: is) d = decAfterAll is (decAfter i d) := rfl

theorem decAfterAll_append (is js : List Instr) (d : DecUnit) :
    decAfterAll (is ++ js) d = decAfterAll js (decAfterAll is d) := List.foldl_append

theorem decShows_append (is js : List Instr) (d : DecUnit) :
    decShows (is ++ js) d = decShows is d ++ decShows js (decAfterAll is d) := by
  induction is generalizing d with
  | nil => rfl
  | cons i is ih => rw [List.cons_append, decShows, ih, decShows, List.append_assoc, decAfterAll_cons]

/-- What a decode shows and leaves is told by its decoder commands and the decoder's state before them, whatever
permitted accesses fall between (42_base32_decoder.md R129). -/
theorem gatherDec_eq_decShows (xs : List HostInput) (s : State) (hr : s.resetAsserted = false)
    (hp : ∀ x ∈ xs, permittedInput x = true) :
    ∃ t, gatherDec xs s = some (decShows (xs.filterMap (unitCommandOf .decoder)) s.dec, t) ∧
      t.dec = decAfterAll (xs.filterMap (unitCommandOf .decoder)) s.dec ∧ t.resetAsserted = false := by
  induction xs generalizing s with
  | nil => exact ⟨s, rfl, rfl, hr⟩
  | cons x xs ih =>
    obtain ⟨hpx, hpxs⟩ := List.forall_mem_cons.mp hp
    cases hu : unitCommandOf .decoder x with
    | none =>
      obtain ⟨u, hx, hru, -, hdec, -⟩ := takeInput_no_unitCommand hu hpx hr
      rw [List.filterMap_cons_none hu, gatherDec, gather_cons_of_none hu hx, ← hdec rfl]
      exact ih u hru hpxs
    | some i =>
      obtain ⟨u, hx, hi, hru⟩ := takeInput_unitCommand hu hr
      obtain ⟨t, hgather, hafter⟩ := ih u hru hpxs
      rw [gatherDec] at hgather
      rw [exec_dec hi] at hgather hafter
      rw [List.filterMap_cons_some hu, gatherDec, gather_cons_of_some hu hx, hgather]
      exact ⟨t, by rw [Option.map_some, decShows, exec_dec hi], hafter⟩

/-! ### Answered inputs -/

/-- What a unit shows is gathered over inputs that are all answered. -/
theorem takeAll_of_gather {u : UnitName} {shown : State → List Byte} {xs : List HostInput} {s t : State}
    {out : List Byte} (h : gather u shown xs s = some (out, t)) : takeAll xs s = .next t := by
  induction xs generalizing s out with
  | nil =>
    obtain ⟨-, rfl⟩ := Prod.mk.inj (Option.some.inj h)
    rfl
  | cons x xs ih =>
    rw [gather] at h
    rw [takeAll]
    cases hx : takeInput x s with
    | next v =>
      rw [hx] at h
      obtain ⟨⟨out', t'⟩, hgather, heq⟩ := Option.map_eq_some_iff.mp h
      obtain ⟨-, rfl⟩ := Prod.mk.inj heq
      exact ih hgather
    | fault f => rw [hx] at h; exact nomatch h
    | refused r => rw [hx] at h; exact nomatch h

theorem gather_append {u : UnitName} {shown : State → List Byte} {xs : List HostInput} {s t : State} {out : List Byte}
    (h : gather u shown xs s = some (out, t)) (ys : List HostInput) :
    gather u shown (xs ++ ys) s = (gather u shown ys t).map fun r => (out ++ r.1, r.2) := by
  induction xs generalizing s out with
  | nil =>
    obtain ⟨rfl, rfl⟩ := Prod.mk.inj (Option.some.inj h)
    simp
  | cons x xs ih =>
    rw [List.cons_append, gather]
    rw [gather] at h
    cases hx : takeInput x s with
    | next v =>
      rw [hx] at h
      obtain ⟨⟨out', t'⟩, hgather, heq⟩ := Option.map_eq_some_iff.mp h
      obtain ⟨rfl, rfl⟩ := Prod.mk.inj heq
      simp only [ih hgather, Option.map_map, Function.comp_def, List.append_assoc]
    | fault f => rw [hx] at h; exact nomatch h
    | refused r => rw [hx] at h; exact nomatch h

/-! ### The sticky error -/

/-- After an error, pushes do nothing but show no byte (42_base32_decoder.md R128). -/
theorem decAfterAll_pushes_of_err {is : List Instr} (his : ∀ i ∈ is, ∃ c, i = .decPush c) {d : DecUnit}
    (h : d.err = true) :
    ∃ b v, decAfterAll is d = { d with outByte := b, outValid := v } := by
  induction is generalizing d with
  | nil => exact ⟨d.outByte, d.outValid, rfl⟩
  | cons i is ih =>
    obtain ⟨⟨c, rfl⟩, hrest⟩ := List.forall_mem_cons.mp his
    rw [decAfterAll_cons, decAfter, decPushAfter_of_err h]
    exact ih hrest (d := d.clearOut) h

theorem eq_decPush_of_unitOf {i : Instr} (h : unitOf i = .decoder) (hinit : i ≠ .decInit) (hfinal : i ≠ .decFinal) :
    ∃ c, i = .decPush c := by
  cases i with
  | decPush c => exact ⟨c, rfl⟩
  | decInit => exact absurd rfl hinit
  | decFinal => exact absurd rfl hfinal
  | _ => simp [unitOf] at h

/-- Settles O32: the decoder commands among the accesses are pushes, which leave the error; it is what a further push
and DEC_FINAL look at. -/
theorem decodeErrorIsStickyUntilInitOrFinal : Obligations.DecodeErrorIsStickyUntilInitOrFinal := by
  intro s xs hr herr hxs
  obtain ⟨t, hgather, hdec, -⟩ := gatherDec_eq_decShows xs s hr fun x hx => (hxs x hx).1
  have hpushes : ∀ i ∈ xs.filterMap (unitCommandOf .decoder), ∃ c, i = .decPush c := by
    intro i hi
    obtain ⟨x, hx, hcommand⟩ := List.mem_filterMap.mp hi
    obtain ⟨-, hinit, hfinal⟩ := hxs x hx
    obtain ⟨hi, hunit⟩ := unitCommandOf_eq_some hcommand
    rw [hi] at hinit hfinal
    exact eq_decPush_of_unitOf hunit (mt (congrArg some) hinit) (mt (congrArg some) hfinal)
  obtain ⟨b, v, hafter⟩ := decAfterAll_pushes_of_err hpushes herr
  rw [hafter] at hdec
  have herr' : t.dec.err = true := hdec ▸ herr
  exact ⟨t, takeAll_of_gather hgather, by rw [hdec], fun c => exec_decPush_error (decPushAfter_of_err herr' c) herr',
    _, rfl, (decFinalCode_eq_decodeError_iff t.dec).mpr herr'⟩

end Sys2Proof.Laws
end

section
/-! The correctness of a decode (42_base32_decoder.md R129): the bits pending in the decoder, followed by those of the
characters still to come, are the part of the source's bit stream not yet shown. -/

namespace Sys2Proof.Laws

open Sys2Proof.Machine

/-! ### Bytes of a bit stream -/

/-- The bytes of a bit stream, leftover bits discarded (§4.1). -/
def byteText (bits : List Bool) : List Byte :=
  (Source.byteGroups bits).map fun g => BitVec.ofNat 8 (Source.bitsValue g)

/-- The source's bytes of a list of values are those of their bit stream. -/
theorem bytesOf_eq_byteText (values : List Nat) : Source.bytesOf values = byteText (values.flatMap (Source.bitsOf 5)) := rfl

/-- Eight bits at the front of the stream are its first group. -/
theorem byteGroups_eight_append {g : List Bool} (h : g.length = 8) (rest : List Bool) :
    Source.byteGroups (g ++ rest) = g :: Source.byteGroups rest := by
  match g, h with
  | [_, _, _, _, _, _, _, _], _ => rfl

theorem byteGroups_of_lt {g : List Bool} (h : g.length < 8) : Source.byteGroups g = [] := by
  match g, h with
  | [], _ | [_], _ | [_, _], _ | [_, _, _], _ | [_, _, _, _], _ | [_, _, _, _, _], _ | [_, _, _, _, _, _], _
  | [_, _, _, _, _, _, _], _ => rfl

/-- Fewer than eight bits are discarded (§4.1). -/
theorem byteText_of_lt {bits : List Bool} (h : bits.length < 8) : byteText bits = [] := by
  rw [byteText, byteGroups_of_lt h, List.map_nil]

/-- The first byte of a stream is the number its first eight bits spell. -/
theorem byteText_bitsOf_append (v : Nat) (rest : List Bool) :
    byteText (Source.bitsOf 8 v ++ rest) = BitVec.ofNat 8 v :: byteText rest := by
  have hbyte : BitVec.ofNat 8 (v % 2 ^ 8) = BitVec.ofNat 8 v := BitVec.eq_of_toNat_eq (by simp)
  rw [byteText, byteGroups_eight_append (bitsOf_length 8 v), List.map_cons, bitsValue_bitsOf, hbyte]
  rfl

/-- There are as many bytes as complete groups of eight bits. -/
theorem byteText_length (bits : List Bool) : (byteText bits).length = bits.length / 8 := by
  induction hn : bits.length using Nat.strong_induction_on generalizing bits with
  | _ n ih =>
    subst hn
    rcases Nat.lt_or_ge bits.length 8 with hlt | hge
    · rw [byteText_of_lt hlt, Nat.div_eq_of_lt hlt, List.length_nil]
    · obtain ⟨g, rest, rfl, hg⟩ : ∃ g rest, bits = g ++ rest ∧ g.length = 8 :=
        ⟨bits.take 8, bits.drop 8, (List.take_append_drop 8 bits).symm, List.length_take_of_le hge⟩
      have hrest := ih rest.length (by rw [List.length_append]; omega) rest rfl
      rw [byteText, List.length_map] at hrest ⊢
      rw [byteGroups_eight_append hg, List.length_cons, hrest, List.length_append]
      omega

/-! ### A text of symbols -/

/-- The pending bits of the decoder, the oldest first (10_state.md R34). -/
def decPendingBits (d : DecUnit) : List Bool := Source.bitsOf d.nbits.toNat d.acc.toNat

/-- Bits followed by the five bits of a symbol (42_base32_decoder.md R122). -/
theorem bitsOf_append_five (n x : Nat) {v : Nat} (h : v < 32) :
    Source.bitsOf n x ++ Source.bitsOf 5 v = Source.bitsOf (n + 5) (x * 32 + v) := by
  rw [bitsOf_add, ← bitsOf_mod 5 (x * 32 + v), show (x * 32 + v) / 2 ^ 5 = x by omega,
    show (x * 32 + v) % 2 ^ 5 = v by omega]

theorem toNat_ofNat_of_lt {w n : Nat} (h : n < 2 ^ w) : (BitVec.ofNat w n).toNat = n :=
  (BitVec.toNat_ofNat n w).trans (Nat.mod_eq_of_lt h)

/-- The pending bits a symbol leaves: the low ones of `x` where its top byte is shown, else all of it
(42_base32_decoder.md R122). -/
theorem takeSymbol_fields {d : DecUnit} (h : d.Pending) {v : Nat} (hv : v < 32) {x n : Nat}
    (hx : d.acc.toNat * 32 + v = x) (hn : d.nbits.toNat + 5 = n) :
    (d.takeSymbol (BitVec.ofNat 5 v)).acc.toNat = (if 8 ≤ n then x % 2 ^ (n - 8) else x) ∧
    (d.takeSymbol (BitVec.ofNat 5 v)).nbits.toNat = (if 8 ≤ n then n - 8 else n) := by
  obtain ⟨hlt, htaken⟩ := takeSymbol_eq d v hv h
  simp only [hx, hn] at hlt htaken
  have hnbits := h.1
  have hfits : ∀ k ≤ 7, 2 ^ k ≤ 128 := by decide
  rw [htaken]
  split
  case isTrue hge =>
    have hlow : x % 2 ^ (n - 8) < 2 ^ (n - 8) := Nat.mod_lt _ (by positivity)
    have := hfits (n - 8) (by omega)
    exact ⟨toNat_ofNat_of_lt (by omega), toNat_ofNat_of_lt (by omega)⟩
  case isFalse =>
    have := hfits n (by omega)
    exact ⟨toNat_ofNat_of_lt (by omega), toNat_ofNat_of_lt (by omega)⟩

/-- DEC_PUSH of a symbol shows the front of what remains: the top byte of the pending bits and the symbol's, when eight
are there (42_base32_decoder.md R122). -/
theorem byteText_takeSymbol {d : DecUnit} (h : d.Pending) {v : Nat} (hv : v < 32) (rest : List Bool) :
    byteText (decPendingBits d ++ (Source.bitsOf 5 v ++ rest)) =
      decBytes (d.takeSymbol (BitVec.ofNat 5 v)) ++
        byteText (decPendingBits (d.takeSymbol (BitVec.ofNat 5 v)) ++ rest) := by
  obtain ⟨-, htaken⟩ := takeSymbol_eq d v hv h
  obtain ⟨hacc, hnbits⟩ := takeSymbol_fields h hv rfl rfl
  rw [← List.append_assoc, decPendingBits, bitsOf_append_five _ _ hv, decPendingBits, hacc, hnbits]
  split
  case isTrue hge =>
    have hbytes : decBytes (d.takeSymbol (BitVec.ofNat 5 v)) =
        [BitVec.ofNat 8 ((d.acc.toNat * 32 + v) / 2 ^ (d.nbits.toNat + 5 - 8))] := by
      rw [htaken, if_pos hge]
      rfl
    obtain ⟨m, hm⟩ : ∃ m, d.nbits.toNat + 5 = 8 + m := ⟨d.nbits.toNat + 5 - 8, by omega⟩
    rw [hbytes, hm, Nat.add_sub_cancel_left, bitsOf_add, bitsOf_mod, List.append_assoc, byteText_bitsOf_append]
    rfl
  case isFalse hlt =>
    rw [htaken, if_neg hlt]
    rfl

/-- A decode that has met neither an error nor a `=` (42_base32_decoder.md R122). -/
def Clean (d : DecUnit) : Prop := d.err = false ∧ d.pad = false

theorem clean_decPushAfter_iff (c : Byte) (d : DecUnit) :
    Clean (decPushAfter c d) ↔ Clean d ∧ (Source.charValue c).isSome := by
  rcases decPushAfter_cases c d with ⟨herr, he⟩ | ⟨herr, rfl, he⟩ | ⟨herr, -, hfails, he⟩ | ⟨v, herr, hv, hpad, he⟩
  · simp [Clean, he, herr]
  · simp [Clean, he, charValue_padChar]
  · rcases hfails with hv | hpad
    · simp [Clean, he, hv]
    · simp [Clean, he, hpad]
  · simp [Clean, he, herr, hpad, hv]

/-- A text leaves the decode clean when all its characters are in the alphabet (42_base32_decoder.md R127). -/
theorem clean_decAfterAll_iff (text : List Byte) (d : DecUnit) :
    Clean (decAfterAll (text.map Instr.decPush) d) ↔ Clean d ∧ ∀ c ∈ text, (Source.charValue c).isSome := by
  induction text generalizing d with
  | nil => simp [decAfterAll]
  | cons c text ih =>
    rw [List.map_cons, decAfterAll_cons, ih, decAfter, clean_decPushAfter_iff, List.forall_mem_cons, and_assoc]

/-- A text of symbols shows the bytes of the pending bits and its own (42_base32_decoder.md R124). -/
theorem decShows_pushes_of_symbols {text : List Byte} (hsymbols : ∀ c ∈ text, (Source.charValue c).isSome) {d : DecUnit}
    (hclean : Clean d) (hpending : d.Pending) :
    decShows (text.map Instr.decPush) d =
      byteText (decPendingBits d ++ (text.filterMap Source.charValue).flatMap (Source.bitsOf 5)) := by
  induction text generalizing d with
  | nil =>
    have hlt : (decPendingBits d).length < 8 := by
      rw [decPendingBits, bitsOf_length]
      exact Nat.lt_succ_of_le hpending.1
    rw [List.filterMap_nil, List.flatMap_nil, List.append_nil, byteText_of_lt hlt]
    rfl
  | cons c text ih =>
    obtain ⟨hc, htext⟩ := List.forall_mem_cons.mp hsymbols
    obtain ⟨v, hv⟩ := Option.isSome_iff_exists.mp hc
    have hafter : decAfter (.decPush c) d = d.takeSymbol (BitVec.ofNat 5 v) :=
      decPushAfter_of_symbol hclean.1 hv hclean.2
    rw [List.filterMap_cons_some hv, List.flatMap_cons, byteText_takeSymbol hpending (charValue_lt hv), List.map_cons,
      decShows, hafter, ih htext (d := d.takeSymbol _) hclean (takeSymbol_pending d v (charValue_lt hv) hpending)]

/-! ### The text without its padding -/

theorem err_decPushAfter_padChar (d : DecUnit) : (decPushAfter Source.padChar d).err = d.err := by
  cases h : d.err with
  | true => rw [decPushAfter_of_err h]; exact h
  | false => rw [decPushAfter_padChar h]; exact h

theorem decBytes_decPushAfter_padChar (d : DecUnit) : decBytes (decPushAfter Source.padChar d) = [] := by
  cases h : d.err with
  | true => rw [decPushAfter_of_err h]; rfl
  | false => rw [decPushAfter_padChar h]; rfl

/-- A run of `=` shows nothing and is no error (42_base32_decoder.md R122). -/
theorem decPush_padding {tail : List Byte} (h : ∀ c ∈ tail, c = Source.padChar) (d : DecUnit) :
    decShows (tail.map Instr.decPush) d = [] ∧ (decAfterAll (tail.map Instr.decPush) d).err = d.err := by
  induction tail generalizing d with
  | nil => exact ⟨rfl, rfl⟩
  | cons c tail ih =>
    obtain ⟨rfl, htail⟩ := List.forall_mem_cons.mp h
    obtain ⟨hshows, herr⟩ := ih htail (decPushAfter Source.padChar d)
    rw [List.map_cons, decShows, decAfterAll_cons, decAfter, decBytes_decPushAfter_padChar, hshows, herr,
      err_decPushAfter_padChar]
    exact ⟨rfl, rfl⟩

/-- A text is its stripped text and a run of `=`. -/
theorem exists_padding (text : List Byte) :
    ∃ tail, text = Source.stripPadding text ++ tail ∧ ∀ c ∈ tail, c = Source.padChar :=
  ⟨text.rtakeWhile (· == Source.padChar), List.rdropWhile_append_rtakeWhile.symm,
    fun _ hc => beq_iff_eq.mp (List.mem_rtakeWhile_imp (p := (· == Source.padChar)) hc)⟩

/-- A stripped text does not end in `=`. -/
theorem stripPadding_eq_nil_or (text : List Byte) :
    Source.stripPadding text = [] ∨ ∃ init c, Source.stripPadding text = init ++ [c] ∧ c ≠ Source.padChar := by
  rcases eq_or_ne (Source.stripPadding text) [] with hnil | hne
  · exact .inl hnil
  · exact .inr ⟨_, _, (List.dropLast_append_getLast hne).symm, fun hc =>
      List.rdropWhile_last_not (· == Source.padChar) text hne (beq_iff_eq.mpr hc)⟩

/-- A character that is no `=` leaves no error only where it leaves the decode clean. -/
theorem clean_of_err_false {c : Byte} (hc : c ≠ Source.padChar) {d : DecUnit} (h : (decPushAfter c d).err = false) :
    Clean (decPushAfter c d) := by
  refine ⟨h, ?_⟩
  rcases decPushAfter_cases c d with ⟨herr, he⟩ | ⟨-, hpad, -⟩ | ⟨-, -, -, he⟩ | ⟨v, -, -, hpad, he⟩
  · rw [he] at h
    exact absurd (herr.symm.trans h) (by decide)
  · exact absurd hpad hc
  · rw [he] at h
    exact nomatch h
  · rw [he]
    exact hpad

/-- The verdict of a decode: an error exactly where the stripped text has a character outside the alphabet
(42_base32_decoder.md R129). -/
theorem err_decAfterAll_eq_false_iff (text : List Byte) :
    (decAfterAll (text.map Instr.decPush) DecUnit.reset).err = false ↔
      ∀ c ∈ Source.stripPadding text, (Source.charValue c).isSome := by
  have hreset : Clean DecUnit.reset := ⟨rfl, rfl⟩
  obtain ⟨tail, htext, htail⟩ := exists_padding text
  have hstrip : (decAfterAll (text.map Instr.decPush) DecUnit.reset).err =
      (decAfterAll ((Source.stripPadding text).map Instr.decPush) DecUnit.reset).err := by
    conv_lhs => rw [htext]
    rw [List.map_append, decAfterAll_append, (decPush_padding htail _).2]
  rw [hstrip, ← and_iff_right (b := ∀ c ∈ Source.stripPadding text, _) hreset, ← clean_decAfterAll_iff]
  refine ⟨fun herr => ?_, And.left⟩
  rcases stripPadding_eq_nil_or text with hnil | ⟨init, c, hlast, hc⟩
  · rw [hnil]
    exact hreset
  · rw [hlast, List.map_append, decAfterAll_append] at herr ⊢
    exact clean_of_err_false hc herr

/-- Where every element has a value, `mapM` gives them all. -/
theorem mapM_eq_some_filterMap {α β : Type} {f : α → Option β} {xs : List α} (h : ∀ x ∈ xs, (f x).isSome) :
    xs.mapM f = some (xs.filterMap f) := by
  induction xs with
  | nil => rfl
  | cons x xs ih =>
    obtain ⟨hx, hxs⟩ := List.forall_mem_cons.mp h
    obtain ⟨y, hy⟩ := Option.isSome_iff_exists.mp hx
    rw [List.mapM_cons, hy, ih hxs, List.filterMap_cons_some hy]
    rfl

/-- `decode` of a text whose stripped text is in the alphabet (§4.1). -/
theorem decode_of_symbols {text : List Byte} (h : ∀ c ∈ Source.stripPadding text, (Source.charValue c).isSome) :
    Source.decode text = some (Source.bytesOf ((Source.stripPadding text).filterMap Source.charValue)) := by
  rw [Source.decode, mapM_eq_some_filterMap h, Option.map_some]

theorem flatMap_bitsOf_length (n : Nat) (values : List Nat) :
    (values.flatMap (Source.bitsOf n)).length = n * values.length := by
  induction values with
  | nil => rfl
  | cons v values ih => rw [List.flatMap_cons, List.length_append, bitsOf_length, ih, List.length_cons]; ring

/-! ### The whole sequence -/

/-- A decode shows what its pushes show from the reset state, and DEC_FINAL reports the verdict on them, whatever other
permitted accesses fall between (42_base32_decoder.md R129). -/
theorem gatherDec_decode {s : State} {xs : List HostInput} {text : List Byte} (hr : s.resetAsserted = false)
    (hp : ∀ x ∈ xs, permittedInput x = true)
    (hcommands : xs.filterMap (unitCommandOf .decoder) = .decInit :: text.map Instr.decPush) :
    ∃ t, gatherDec (xs ++ [runInput .decFinal]) s = some (decShows (text.map Instr.decPush) DecUnit.reset, t) ∧
      t.status = decFinalCode (decAfterAll (text.map Instr.decPush) DecUnit.reset) := by
  obtain ⟨t, hgather, hdec, hr'⟩ := gatherDec_eq_decShows xs s hr hp
  rw [hcommands] at hgather hdec
  have hfinal : takeInput (runInput .decFinal) t =
      .next { t with dec := DecUnit.reset, status := decFinalCode t.dec } :=
    takeInput_command (commandOf_runInput .decFinal) t hr'
  refine ⟨{ t with dec := DecUnit.reset, status := decFinalCode t.dec }, ?_, congrArg decFinalCode hdec⟩
  rw [gatherDec, gather_append hgather,
    gather_cons_of_some (u := .decoder) (unitCommandOf_runInput .decFinal) hfinal]
  exact congrArg (fun out => some (out, _)) (List.append_nil _)

/-- What the pushes of a text show from the reset state, where its stripped text is in the alphabet: the source's
bytes. -/
theorem decShows_eq_bytesOf {text : List Byte} (h : ∀ c ∈ Source.stripPadding text, (Source.charValue c).isSome) :
    decShows (text.map Instr.decPush) DecUnit.reset =
      Source.bytesOf ((Source.stripPadding text).filterMap Source.charValue) := by
  obtain ⟨tail, htext, htail⟩ := exists_padding text
  conv_lhs => rw [htext]
  rw [List.map_append, decShows_append, (decPush_padding htail _).1, List.append_nil,
    decShows_pushes_of_symbols h ⟨rfl, rfl⟩ decReset_inv.pending]
  rfl

/-- Settles O33: DEC_INIT resets the decoder, the other accesses do not count, the error tells whether the stripped text
has a character outside the alphabet, and without one the pushes show the source's bytes. -/
theorem decodeSequenceComputesTheSourceDecode : Obligations.DecodeSequenceComputesTheSourceDecode := by
  intro s xs text hr hp hcommands
  obtain ⟨t, hgather, hstatus⟩ := gatherDec_decode hr hp hcommands
  have hverdict := err_decAfterAll_eq_false_iff text
  refine ⟨_, t, hgather, ?_, fun hne => ?_⟩
  · rw [hstatus, decFinalCode_eq_decodeError_iff, ← Bool.not_eq_false, hverdict]
    simp
  · rw [hstatus, Ne, decFinalCode_eq_decodeError_iff, Bool.not_eq_true] at hne
    have hsymbols := hverdict.mp hne
    refine ⟨hstatus.trans ((decFinalCode_eq_ok_iff _).mpr hne), ?_, ?_⟩
    · rw [decode_of_symbols hsymbols, decShows_eq_bytesOf hsymbols]
    · rw [decShows_eq_bytesOf hsymbols, bytesOf_eq_byteText, byteText_length, flatMap_bitsOf_length,
        List.filterMap_length_eq_length.mpr hsymbols]

end Sys2Proof.Laws
end

section
/-! Decoding is the inverse of encoding (42_base32_decoder.md R131): the values of an encoded text spell the bits of the
bytes, followed by fewer than five zeros, which are discarded. -/

namespace Sys2Proof.Laws

open Sys2Proof.Machine

/-! ### Bits and groups -/

/-- Bits are those of the number they spell. -/
theorem bitsOf_bitsValue (bs : List Bool) : Source.bitsOf bs.length (Source.bitsValue bs) = bs := by
  induction bs using List.reverseRecOn with
  | nil => rfl
  | append_singleton bs b ih =>
    have hlast : Source.bitsOf 1 (2 * Source.bitsValue bs + b.toNat) = [b] := by cases b <;> simp [Source.bitsOf]
    have hinit : (2 * Source.bitsValue bs + b.toNat) / 2 ^ 1 = Source.bitsValue bs := by
      have := b.toNat_lt
      omega
    rw [List.length_append, List.length_singleton, bitsValue_append_singleton, bitsOf_add, hinit, ih, hlast]

theorem bitsValue_lt (bs : List Bool) : Source.bitsValue bs < 2 ^ bs.length := by
  rw [← bitsOf_bitsValue bs, bitsValue_bitsOf, bitsOf_length]
  exact Nat.mod_lt _ (by positivity)

/-- The groups of the encoder have five bits each, and put together they are the bits, filled with fewer than five
zeros (§4.1). -/
theorem symbolGroups_spec (bits : List Bool) :
    (∀ g ∈ Source.symbolGroups bits, g.length = 5) ∧
    ∃ k < 5, (Source.symbolGroups bits).flatten = bits ++ List.replicate k false := by
  induction bits using Source.symbolGroups.induct with
  | case1 a b c d e rest ih =>
    obtain ⟨hlength, k, hk, hflatten⟩ := ih
    rw [Source.symbolGroups, List.flatten_cons, hflatten]
    exact ⟨List.forall_mem_cons.mpr ⟨rfl, hlength⟩, k, hk, rfl⟩
  | case2 => exact ⟨nofun, 0, by decide, rfl⟩
  | case3 rest hfive hnil =>
    have hpos : 0 < rest.length := List.length_pos_iff.mpr hnil
    have hlt : rest.length < 5 := by
      match rest, hfive with
      | _ :: _ :: _ :: _ :: _ :: _, h => exact absurd rfl (h _ _ _ _ _ _)
      | [], _ | [_], _ | [_, _], _ | [_, _, _], _ | [_, _, _, _], _ => simp
    rw [symbolGroups_partial hpos hlt]
    refine ⟨List.forall_mem_singleton.mpr ?_, 5 - rest.length, by omega, List.flatten_singleton⟩
    rw [List.length_append, List.length_replicate]
    omega

/-- Whole bytes at the front of a bit stream are its first bytes. -/
theorem byteText_bytes_append (bytes : List Byte) (rest : List Bool) :
    byteText ((bytes.flatMap fun b => Source.bitsOf 8 b.toNat) ++ rest) = bytes ++ byteText rest := by
  induction bytes with
  | nil => rfl
  | cons b bytes ih =>
    rw [List.flatMap_cons, List.append_assoc, byteText_bitsOf_append, ih, BitVec.ofNat_toNat, BitVec.setWidth_eq]
    rfl

/-- The bytes of the encoder's groups are the bytes encoded: the zeros filled in make no byte (§4.1). -/
theorem bytesOf_symbolGroups (bytes : List Byte) :
    Source.bytesOf ((Source.symbolGroups (bytes.flatMap fun b => Source.bitsOf 8 b.toNat)).map Source.bitsValue) =
      bytes := by
  obtain ⟨hlength, k, hk, hflatten⟩ := symbolGroups_spec (bytes.flatMap fun b => Source.bitsOf 8 b.toNat)
  have hbits : ((Source.symbolGroups (bytes.flatMap fun b => Source.bitsOf 8 b.toNat)).map Source.bitsValue).flatMap
      (Source.bitsOf 5) = (Source.symbolGroups (bytes.flatMap fun b => Source.bitsOf 8 b.toNat)).flatten := by
    rw [List.flatMap_map, ← List.flatMap_id]
    refine List.flatMap_congr fun g hg => ?_
    rw [← hlength g hg, bitsOf_bitsValue, id]
  rw [bytesOf_eq_byteText, hbits, hflatten, byteText_bytes_append,
    byteText_of_lt (by rw [List.length_replicate]; omega), List.append_nil]

/-! ### The text of an encode -/

/-- The characters of an encoded text have the values of the groups (41_base32_encoder.md R102). -/
theorem charValue_symbolGroup {bits g : List Bool} (h : g ∈ Source.symbolGroups bits) :
    Source.charValue (Source.symbol (Source.bitsValue g)) = some (Source.bitsValue g) :=
  charValue_symbol _ (((symbolGroups_spec bits).1 g h ▸ bitsValue_lt g :))

theorem charValue_encodeText {bytes : List Byte} {c : Byte} (h : c ∈ Source.encodeText bytes) :
    (Source.charValue c).isSome := by
  obtain ⟨g, hg, rfl⟩ := List.mem_map.mp h
  rw [charValue_symbolGroup hg]
  rfl

theorem filterMap_charValue_encodeText (bytes : List Byte) :
    (Source.encodeText bytes).filterMap Source.charValue =
      (Source.symbolGroups (bytes.flatMap fun b => Source.bitsOf 8 b.toNat)).map Source.bitsValue := by
  rw [Source.encodeText, List.filterMap_map, ← List.filterMap_eq_map]
  exact List.filterMap_congr fun g hg => charValue_symbolGroup hg

/-- A run of `=` behind a text that has none is its padding. -/
theorem stripPadding_append_replicate {text : List Byte} (h : ∀ c ∈ text, c ≠ Source.padChar) (k : Nat) :
    Source.stripPadding (text ++ List.replicate k Source.padChar) = text := by
  have htext : Source.stripPadding text = text :=
    List.rdropWhile_eq_self_iff.mpr fun hne hpad => h _ (List.getLast_mem hne) (beq_iff_eq.mp hpad)
  rw [Source.stripPadding, List.reverse_append, List.reverse_replicate,
    List.dropWhile_append_of_pos fun c hc => beq_iff_eq.mpr (List.eq_of_mem_replicate hc)]
  exact htext

/-- Stripping an encoded text leaves the symbols (41_base32_encoder.md R105). -/
theorem stripPadding_encode (bytes : List Byte) (pad : Bool) :
    Source.stripPadding (Source.encode bytes pad) = Source.encodeText bytes := by
  have hsymbols : ∀ c ∈ Source.encodeText bytes, c ≠ Source.padChar := by
    rintro c hc rfl
    exact nomatch charValue_padChar ▸ charValue_encodeText hc
  rw [Source.encode]
  cases pad with
  | false =>
    have hnone := stripPadding_append_replicate hsymbols 0
    rwa [List.replicate_zero, List.append_nil] at hnone
  | true => exact stripPadding_append_replicate hsymbols _

/-! ### Lower case -/

/-- Only `=` has `=` as its lower-case form. -/
theorem stripPadding_map_lower (text : List Byte) :
    Source.stripPadding (text.map Source.lower) = (Source.stripPadding text).map Source.lower := by
  have hpad : (· == Source.padChar) ∘ Source.lower = (· == Source.padChar) := by
    funext c
    exact Bool.eq_iff_iff.mpr (by simp [lower_eq_padChar_iff])
  rw [Source.stripPadding, Source.stripPadding, ← List.map_reverse, List.dropWhile_map, hpad, List.map_reverse]

theorem filterMap_charValue_map_lower (text : List Byte) :
    (text.map Source.lower).filterMap Source.charValue = text.filterMap Source.charValue := by
  rw [List.filterMap_map]
  exact List.filterMap_congr fun c _ => charValue_lower c

/-- An encoded text, as it is or in lower case, is in the alphabet but for its padding, and its values give the bytes
(42_base32_decoder.md R131). -/
theorem values_of_encode (bytes : List Byte) (pad toLower : Bool) {text : List Byte}
    (htext : text = if toLower then (Source.encode bytes pad).map Source.lower else Source.encode bytes pad) :
    (∀ c ∈ Source.stripPadding text, (Source.charValue c).isSome) ∧
    Source.bytesOf ((Source.stripPadding text).filterMap Source.charValue) = bytes := by
  subst htext
  cases toLower with
  | false =>
    rw [if_neg (by decide), stripPadding_encode, filterMap_charValue_encodeText, bytesOf_symbolGroups]
    exact ⟨fun _ => charValue_encodeText, rfl⟩
  | true =>
    rw [if_pos rfl, stripPadding_map_lower, stripPadding_encode, filterMap_charValue_map_lower,
      filterMap_charValue_encodeText, bytesOf_symbolGroups]
    exact ⟨List.forall_mem_map.mpr fun c hc => charValue_lower c ▸ charValue_encodeText hc, rfl⟩

/-! ### The two sequences -/

/-- A list of permitted accesses leaves reset not asserted (70_reset_and_hazards.md R230). -/
theorem resetAsserted_of_takeAll {xs : List HostInput} {s t : State} (hr : s.resetAsserted = false)
    (hp : ∀ x ∈ xs, permittedInput x = true) (h : takeAll xs s = .next t) : t.resetAsserted = false := by
  obtain ⟨u, hgather, -, hu⟩ := gatherDec_eq_decShows xs s hr hp
  obtain rfl := Host.Outcome.next.inj ((takeAll_of_gather hgather).symm.trans h)
  exact hu

/-- DEC_INIT, the pushes of a text in the alphabet and DEC_FINAL show the bytes of its values and end with 0
(42_base32_decoder.md R129). -/
theorem gatherDec_of_symbols {s : State} {text : List Byte} (hr : s.resetAsserted = false)
    (h : ∀ c ∈ Source.stripPadding text, (Source.charValue c).isSome) :
    ∃ u, gatherDec (runInput .decInit :: (text.map fun c => runInput (.decPush c)) ++ [runInput .decFinal]) s =
      some (Source.bytesOf ((Source.stripPadding text).filterMap Source.charValue), u) ∧ u.status = .ok := by
  have hunit : ∀ i ∈ .decInit :: text.map Instr.decPush, unitOf i = .decoder :=
    List.forall_mem_cons.mpr ⟨rfl, List.forall_mem_map.mpr fun _ _ => rfl⟩
  obtain ⟨u, hgather, hstatus⟩ := gatherDec_decode hr permittedInput_of_mem_map_runInput
    (filterMap_unitCommandOf_runInput hunit)
  rw [decShows_eq_bytesOf h, List.map_cons, List.map_map] at hgather
  exact ⟨u, hgather, hstatus.trans ((decFinalCode_eq_ok_iff _).mpr ((err_decAfterAll_eq_false_iff text).mpr h))⟩

/-- ENC_INIT, the pushes and ENC_FINAL show the source's encoding and leave reset not asserted (41_base32_encoder.md
R108). -/
theorem gatherEnc_of_bytes {s : State} (bytes : List Byte) (pad : Bool) (hr : s.resetAsserted = false) :
    ∃ t, gatherEnc (runInput .encInit :: (bytes.map fun b => runInput (.encPush b)) ++ [runInput (.encFinal pad)]) s =
      some (Source.encode bytes pad, t) ∧ t.resetAsserted = false := by
  have hunit : ∀ i ∈ .encInit :: bytes.map Instr.encPush ++ [.encFinal pad], unitOf i = .encoder :=
    List.forall_mem_append.mpr ⟨List.forall_mem_cons.mpr ⟨rfl, List.forall_mem_map.mpr fun _ _ => rfl⟩,
      List.forall_mem_singleton.mpr rfl⟩
  obtain ⟨t, hgather⟩ := encodeSequenceComputesTheSourceEncode s _ bytes pad hr permittedInput_of_mem_map_runInput
    (filterMap_unitCommandOf_runInput hunit)
  have hreset := resetAsserted_of_takeAll hr permittedInput_of_mem_map_runInput (takeAll_of_gather hgather)
  rw [List.map_append, List.map_cons, List.map_map] at hgather
  exact ⟨t, hgather, hreset⟩

/-- Settles O34: the encode shows the source's text, whose values spell the bytes. -/
theorem decodingTheEncodersOutputGivesTheBytesBack : Obligations.DecodingTheEncodersOutputGivesTheBytesBack := by
  intro s bytes pad toLower hr
  obtain ⟨t, hencode, ht⟩ := gatherEnc_of_bytes bytes pad hr
  obtain ⟨hsymbols, hbytes⟩ := values_of_encode bytes pad toLower rfl
  obtain ⟨u, hdecode, hok⟩ := gatherDec_of_symbols ht hsymbols
  rw [hbytes] at hdecode
  exact ⟨_, t, hencode, u, hdecode, hok⟩

end Sys2Proof.Laws
end

section
/-! The three truncator commands one by one: what TRN_PUSH stores, which cause a TRN_RUN reports, and what a successful one
shows (43_hotp_truncator.md R142 to R152). -/

namespace Sys2Proof.Laws

open Sys2Proof.Machine

/-! ### TRN_CLEAR -/

/-- Settles O35: TRN_CLEAR's update is the truncator's reset value, whose buffer is all 0. -/
theorem trnClearWipesTheTruncator : Obligations.TrnClearWipesTheTruncator := fun _ => ⟨rfl, digestByte_clear, rfl⟩

/-! ### TRN_PUSH -/

/-- The truncator with one digest byte more (43_hotp_truncator.md R143). -/
def appendDigestByte (d : Byte) (t : TrnUnit) : TrnUnit :=
  { t with dbuf := t.dbuf.setIfInBounds t.dcount.toNat d, dcount := t.dcount + 1 }

theorem exec_trnPush_of_lt {s : State} (h : s.trn.dcount.toNat < 64) (d : Byte) :
    exec (.trnPush d) s = .next { s with status := .ok, trn := appendDigestByte d s.trn } := if_pos h

theorem exec_trnPush_of_full {s : State} (h : 64 ≤ s.trn.dcount.toNat) (d : Byte) :
    exec (.trnPush d) s = .next { s with status := .digestLength, trn := { s.trn with ovf := true } } :=
  if_neg (not_lt.mpr h)

theorem appendDigestByte_dcount {t : TrnUnit} (h : t.dcount.toNat < 64) (d : Byte) :
    (appendDigestByte d t).dcount.toNat = t.dcount.toNat + 1 := by
  change (t.dcount + 1).toNat = _
  rw [BitVec.toNat_add]
  exact Nat.mod_eq_of_lt (by simp; omega)

theorem digestByte_appendDigestByte {t : TrnUnit} (h : t.dcount.toNat < 64) (d : Byte) (i : Nat) :
    digestByte (appendDigestByte d t).dbuf i = if i = t.dcount.toNat then d else digestByte t.dbuf i :=
  digestByte_set t.dbuf t.dcount.toNat d h i

/-- Settles O36: the byte is stored at the count, or dropped when the buffer is full. -/
theorem trnPushAppendsOneDigestByte : Obligations.TrnPushAppendsOneDigestByte := by
  refine ⟨fun s d => ⟨fun h => ?_, fun h => exec_trnPush_of_full h d⟩, ?_⟩
  · exact ⟨_, exec_trnPush_of_lt h d, rfl, appendDigestByte_dcount h d, digestByte_appendDigestByte h d⟩
  · exact ⟨_, exec_trnPush_of_lt (by decide) 0xCC, digestByte_appendDigestByte (by decide) 0xCC 0, rfl, rfl⟩

/-! ### The cause TRN_RUN reports -/

theorem digitsInRange_iff (dg : BitVec 4) : digitsInRange dg = true ↔ 6 ≤ dg.toNat ∧ dg.toNat ≤ 9 := by
  simp [digitsInRange]

theorem exists_digestLength {alg : BitVec 2} (h : alg ≠ 3) : ∃ len, algDigestLength alg = some len :=
  Option.ne_none_iff_exists'.mp fun hnone => h ((algDigestLength_eq_none alg).mp hnone)

theorem trnRunCode_of_unsupported {s : State} (h : s.cfgAlg = 3) : trnRunCode s = .unsupportedAlgorithm := by
  simp [trnRunCode, (algDigestLength_eq_none _).mpr h]

theorem trnRunCode_of_invalid {s : State} (halg : s.cfgAlg ≠ 3) (hdg : ¬(6 ≤ s.cfgDigits.toNat ∧ s.cfgDigits.toNat ≤ 9)) :
    trnRunCode s = .invalidOptions := by
  obtain ⟨len, hlen⟩ := exists_digestLength halg
  simp [trnRunCode, hlen, digitsInRange_iff, hdg]

/-- With the options in range, TRN_RUN fails unless one digest of the algorithm's length is held (43_hotp_truncator.md
R146). -/
theorem trnRunCode_of_options {s : State} {len : Nat} (hlen : algDigestLength s.cfgAlg = some len)
    (hdg : 6 ≤ s.cfgDigits.toNat ∧ s.cfgDigits.toNat ≤ 9) :
    trnRunCode s = if s.trn.ovf = true ∨ s.trn.dcount.toNat ≠ len then .digestLength else .ok := by
  simp [trnRunCode, hlen, digitsInRange_iff, hdg]

/-- A TRN_RUN with a cause to report leaves the truncator as after reset (43_hotp_truncator.md R152). -/
theorem exec_trnRun_of_cause {s : State} {code : StatusCode} (h : trnRunCode s = code) (hne : code ≠ .ok) :
    exec .trnRun s = .next { s with status := code, trn := TrnUnit.reset } := by
  rcases exec_trnRun s with ⟨-, -, -, -, -, hok, -⟩ | ⟨-, hx⟩
  · exact absurd (h.symm.trans hok) hne
  · rw [hx, h]

/-- Settles O38: each premise is the cause that the order of R146 reports. -/
theorem trnRunReportsTheFirstCause : Obligations.TrnRunReportsTheFirstCause := by
  intro s fails digitsOk oneDigest
  refine ⟨fun halg => exec_trnRun_of_cause (trnRunCode_of_unsupported halg) nofun,
    fun halg hdg => exec_trnRun_of_cause (trnRunCode_of_invalid halg hdg) nofun, fun halg hdg hdigest => ?_⟩
  obtain ⟨len, hlen⟩ := exists_digestLength halg
  have hbad : s.trn.ovf = true ∨ s.trn.dcount.toNat ≠ len := by
    by_contra hgood
    push Not at hgood
    obtain ⟨hovf, hcount⟩ := hgood
    exact hdigest ⟨by simpa using hovf, hcount ▸ (algDigestLength_eq_some _ _).mp hlen⟩
  exact exec_trnRun_of_cause ((trnRunCode_of_options hlen hdg).trans (if_pos hbad)) nofun

/-- TRN_RUN empties the buffer, whether it succeeds or fails (43_hotp_truncator.md R151). -/
theorem exec_trnRun_empties (s : State) :
    ∃ t, exec .trnRun s = .next t ∧ t.trn.dcount = 0 ∧ t.trn.ovf = false ∧ ∀ i, digestByte t.trn.dbuf i = 0 := by
  rcases exec_trnRun s with ⟨_, -, -, -, -, -, hx⟩ | ⟨-, hx⟩
  · exact ⟨_, hx, rfl, rfl, digestByte_clear⟩
  · exact ⟨_, hx, rfl, rfl, digestByte_clear⟩

/-- Settles O39: the first run empties the buffer, so the second finds no digest: none has length 0. -/
theorem trnRunConsumesTheDigest : Obligations.TrnRunConsumesTheDigest := by
  intro s
  obtain ⟨t, ht, hcount, hovf, hbytes⟩ := exec_trnRun_empties s
  refine ⟨t, ht, hcount, hovf, hbytes, fun halg h6 h9 => ?_⟩
  obtain ⟨hdg, hkeep, -⟩ := exec_keeps_options ht
  have hempty : ¬(t.trn.ovf = false ∧ (t.cfgAlg.toNat, t.trn.dcount.toNat) ∈ [(0, 20), (1, 32), (2, 64)]) := by
    simp [hcount]
  exact ⟨_, (trnRunReportsTheFirstCause t).2.2 (hkeep ▸ halg) (hdg ▸ ⟨h6, h9⟩) hempty, rfl, rfl⟩

/-! ### The code TRN_RUN shows -/

/-- The truncator after a successful TRN_RUN on a digest of `len` bytes (43_hotp_truncator.md R144). -/
def showHotpCode (len : Nat) (dg : BitVec 4) (t : TrnUnit) : TrnUnit :=
  (t.setCode (hotpCode t.dbuf len dg.toNat) dg.toNat).clearDigest

theorem exec_trnRun_of_digest {s : State} {len : Nat} (hlen : algDigestLength s.cfgAlg = some len)
    (hdg : 6 ≤ s.cfgDigits.toNat ∧ s.cfgDigits.toNat ≤ 9) (hovf : s.trn.ovf = false) (hcount : s.trn.dcount.toNat = len) :
    exec .trnRun s = .next { s with status := .ok, trn := showHotpCode len s.cfgDigits s.trn } := by
  rcases exec_trnRun s with ⟨len', hlen', -, -, -, -, hx⟩ | ⟨hcause, -⟩
  · obtain rfl := Option.some.inj (hlen.symm.trans hlen')
    exact hx
  · exact absurd ((trnRunCode_of_options hlen hdg).trans (if_neg (by simp [hovf, hcount]))) hcause

theorem showHotpCode_code {dg : BitVec 4} (h : 6 ≤ dg.toNat ∧ dg.toNat ≤ 9) (len : Nat) (t : TrnUnit) :
    (showHotpCode len dg t).code.toNat = hotpCode t.dbuf len dg.toNat := by
  obtain ⟨-, -, hfits⟩ := hotpCode_lt t.dbuf len dg ((digitsInRange_iff dg).mpr h)
  exact (BitVec.toNat_ofNat _ 30).trans (Nat.mod_eq_of_lt hfits)

theorem codeLane_showHotpCode (len : Nat) (dg : BitVec 4) (t : TrnUnit) {k : Nat} (hk : k < 12) :
    codeLane (showHotpCode len dg t) k = (codeChars (hotpCode t.dbuf len dg.toNat) dg.toNat).getD k 0 :=
  codeLane_setCode _ _ t k hk

theorem decimalDigit_toNat (code dg k : Nat) : (decimalDigit code dg k).toNat = 0x30 + code / 10 ^ (dg - 1 - k) % 10 := by
  rw [decimalDigit, BitVec.toNat_ofNat]
  omega

/-- Settles O37: the window's four bytes are `p`, and what is shown are the digits of its remainder. -/
theorem trnRunTruncatesAndReduces : Obligations.TrnRunTruncatesAndReduces := by
  intro s len hlen h6 h9 hovf hcount o p dg
  have hrun := exec_trnRun_of_digest ((algDigestLength_eq_some _ _).mpr hlen) ⟨h6, h9⟩ hovf hcount
  have hp : (truncValue s.trn.dbuf (truncOffset s.trn.dbuf len).toNat).toNat = p := by
    rw [truncOffset_toNat, truncValue_toNat]
  have hcode : hotpCode s.trn.dbuf len dg = p % 10 ^ dg := by rw [hotpCode, hp]
  refine ⟨Nat.le_of_lt_succ (Nat.mod_lt _ (by decide)), ?_, _, hrun, rfl, ?_, fun k hk => ?_, rfl, rfl, rfl,
    digestByte_clear⟩
  · exact hp ▸ Nat.le_of_lt_succ (BitVec.isLt _)
  · exact (showHotpCode_code ⟨h6, h9⟩ len s.trn).trans hcode
  · rw [codeLane_showHotpCode len _ _ hk, hcode, codeChars_getD]
    split
    · exact decimalDigit_toNat _ _ k
    · rfl

end Sys2Proof.Laws
end

section
/-! The truncation window and the range of the codes (43_hotp_truncator.md R153 and R154). -/

namespace Sys2Proof.Laws

open Sys2Proof.Machine

/-! ### The window -/

theorem digestLength_bounds {alg : BitVec 2} {len : Nat} (h : algDigestLength alg = some len) : 20 ≤ len ∧ len ≤ 64 := by
  have hmem := (algDigestLength_eq_some alg len).mp h
  simp only [List.mem_cons, List.not_mem_nil, Prod.mk.injEq, or_false] at hmem
  omega

/-- Settles O41: an offset is at most 15 and a digest has 20 bytes or more. -/
theorem truncationWindowLiesInsideTheDigest : Obligations.TruncationWindowLiesInsideTheDigest := by
  intro alg len hlen
  obtain ⟨h20, -⟩ := digestLength_bounds hlen
  have hwindow (buf : Vector Byte 64) : (truncOffset buf len).toNat + 3 < len - 1 := by
    have := (truncOffset buf len).isLt
    omega
  refine ⟨hwindow, fun buf buf' digits heq => ?_⟩
  have hoffset : truncOffset buf len = truncOffset buf' len := by rw [truncOffset, truncOffset, heq _ (by omega)]
  have hin := hwindow buf'
  rw [hotpCode, hotpCode, hoffset, truncValue, truncValue, heq _ (by omega), heq _ (by omega), heq _ (by omega),
    heq _ (by omega)]

/-! ### The range -/

/-- A buffer whose four bytes from 0 spell a number, big-endian, all others 0: its offset is 0. -/
def windowBuffer (c : Nat) : Vector Byte 64 :=
  ((((Vector.replicate 64 0).setIfInBounds 0 (BitVec.ofNat 8 (c / 2 ^ 24))).setIfInBounds 1
    (BitVec.ofNat 8 (c / 2 ^ 16))).setIfInBounds 2 (BitVec.ofNat 8 (c / 2 ^ 8))).setIfInBounds 3 (BitVec.ofNat 8 c)

theorem digestByte_windowBuffer (c i : Nat) :
    digestByte (windowBuffer c) i =
      if i = 3 then BitVec.ofNat 8 c else if i = 2 then BitVec.ofNat 8 (c / 2 ^ 8)
      else if i = 1 then BitVec.ofNat 8 (c / 2 ^ 16) else if i = 0 then BitVec.ofNat 8 (c / 2 ^ 24) else 0 := by
  rw [windowBuffer, digestByte_set _ 3 _ (by decide), digestByte_set _ 2 _ (by decide), digestByte_set _ 1 _ (by decide),
    digestByte_set _ 0 _ (by decide), digestByte_clear]

/-- A code below `2^31` and below `10^digits` is the code of its own window buffer (43_hotp_truncator.md R154). -/
theorem hotpCode_windowBuffer {c dg : Nat} (h31 : c < 2 ^ 31) (hdg : c < 10 ^ dg) :
    hotpCode (windowBuffer c) 20 dg = c := by
  have hoffset : (truncOffset (windowBuffer c) 20).toNat = 0 := by
    rw [truncOffset_toNat, digestByte_windowBuffer]
    rfl
  have hvalue : (truncValue (windowBuffer c) 0).toNat = c := by
    simp [truncValue_toNat, digestByte_windowBuffer]
    omega
  rw [hotpCode, hoffset, hvalue, Nat.mod_eq_of_lt hdg]

/-- A state with 9 digits and a SHA-1 digest whose code is a given number. -/
def codeState (c : Nat) : State :=
  { State.reset with cfgDigits := 9, trn := { TrnUnit.reset with dbuf := windowBuffer c, dcount := 20 } }

/-- Settles O42: `hotpCode_lt` for the bound, the buffer that spells a code for the range, R146's order for the rest. -/
theorem codesFillTheirRange : Obligations.CodesFillTheirRange := by
  refine ⟨fun s t ht hvalid => ?_, fun c hc => ?_, fun s halg hdg => ?_⟩
  · rcases exec_trnRun s with ⟨len, -, hdg, -, -, -, hx⟩ | ⟨-, hx⟩ <;> obtain rfl := Host.Outcome.next.inj (hx.symm.trans ht)
    · obtain ⟨hlt, hle, -⟩ := hotpCode_lt s.trn.dbuf len s.cfgDigits hdg
      exact ⟨(showHotpCode_code ((digitsInRange_iff _).mp hdg) len s.trn).trans_lt hlt, hle⟩
    · exact nomatch hvalid
  · have hnine : 6 ≤ (9#4).toNat ∧ (9#4).toNat ≤ 9 := by decide
    refine ⟨codeState c, _, rfl, exec_trnRun_of_digest (len := 20) rfl hnine rfl rfl, rfl, ?_⟩
    exact (showHotpCode_code hnine 20 _).trans (hotpCode_windowBuffer (by omega) hc)
  · exact ⟨_, exec_trnRun_of_cause (trnRunCode_of_invalid halg (by omega)) nofun, rfl⟩

end Sys2Proof.Laws
end

section
/-! The correctness of a truncation (43_hotp_truncator.md R150): over any permitted accesses the truncator's commands alone
tell its state, after TRN_CLEAR and the pushes the buffer holds the digest, and TRN_RUN computes the source's code of
it. -/

namespace Sys2Proof.Laws

open Sys2Proof.Machine

/-! ### The truncator's state after a list of accesses -/

/-- The truncator's state after a command other than TRN_RUN, which looks at CFG too and has its own law,
`exec_trnRun` (10_state.md R43). -/
def trnAfter : Instr → TrnUnit → TrnUnit
  | .trnClear, _ => TrnUnit.reset
  | .trnPush d, t => if t.dcount.toNat < 64 then appendDigestByte d t else { t with ovf := true }
  | _, t => t

theorem exec_trn {i : Instr} {s t : State} (h : exec i s = .next t) (hi : i ≠ .trnRun) : t.trn = trnAfter i s.trn := by
  cases i with
  | trnClear => obtain rfl := Host.Outcome.next.inj h; rfl
  | trnPush d =>
    rw [trnAfter]
    split
    · obtain rfl := Host.Outcome.next.inj ((exec_trnPush_of_lt ‹_› d).symm.trans h); rfl
    · obtain rfl := Host.Outcome.next.inj ((exec_trnPush_of_full (not_lt.mp ‹_›) d).symm.trans h); rfl
  | trnRun => exact absurd rfl hi
  | _ => obtain ⟨-, -, -, htrn, -⟩ := exec_frame h; exact htrn (by simp [unitOf])

/-- The truncator's state after a list of commands without TRN_RUN. -/
def trnAfterAll (is : List Instr) (t : TrnUnit) : TrnUnit := is.foldl (fun t i => trnAfter i t) t

/-- An access that is no write of CFG leaves CFG (10_state.md R43). -/
theorem takeInput_keeps_cfg {x : HostInput} {s t : State} (h : takeInput x s = .next t) (hp : permittedInput x = true)
    (hcfg : writesCfg x = false) : t.cfgDigits = s.cfgDigits ∧ t.cfgAlg = s.cfgAlg := by
  cases x with
  | resetLine b => exact nomatch hp
  | access a =>
    cases hr : s.resetAsserted with
    | true => simp [takeInput, hr] at h
    | false =>
      have ha : answerAccess a s = .next t := by simpa [takeInput, hr] using h
      rcases answerAccess_effect ha with ⟨v, rfl⟩ | ⟨r, v, rfl, hw⟩ | ⟨i, w, -, -, he⟩ | ⟨w, -, rfl⟩
      · exact ⟨rfl, rfl⟩
      · obtain ⟨-, hkeep, -⟩ := writeReg_frame hw
        exact hkeep fun hreg => by simp [writesCfg, hreg] at hcfg
      · obtain ⟨hdigits, halg, -⟩ := exec_keeps_options he
        exact ⟨hdigits, halg⟩
      · exact ⟨rfl, rfl⟩

/-- Permitted accesses without a TRN_RUN and without a write of CFG leave the truncator as its own commands among them
make it, and CFG as it was, whatever falls between (40_host_access.md R97). -/
theorem takeAll_trn (xs : List HostInput) (s : State) (hr : s.resetAsserted = false)
    (hxs : ∀ x ∈ xs, permittedInput x = true ∧ writesCfg x = false)
    (hrun : .trnRun ∉ xs.filterMap (unitCommandOf .truncator)) :
    ∃ t, takeAll xs s = .next t ∧
      t.trn = trnAfterAll (xs.filterMap (unitCommandOf .truncator)) s.trn ∧
      t.resetAsserted = false ∧ t.cfgDigits = s.cfgDigits ∧ t.cfgAlg = s.cfgAlg := by
  induction xs generalizing s with
  | nil => exact ⟨s, rfl, rfl, hr, rfl, rfl⟩
  | cons x xs ih =>
    obtain ⟨⟨hp, hcfg⟩, hxs⟩ := List.forall_mem_cons.mp hxs
    cases hu : unitCommandOf .truncator x with
    | none =>
      rw [List.filterMap_cons_none hu] at hrun ⊢
      obtain ⟨u, hx, hru, -, -, htrn⟩ := takeInput_no_unitCommand hu hp hr
      obtain ⟨hdigits, halg⟩ := takeInput_keeps_cfg hx hp hcfg
      obtain ⟨t, ht, htrn', hrt, hdigits', halg'⟩ := ih u hru hxs hrun
      exact ⟨t, by rw [takeAll, hx]; exact ht, htrn rfl ▸ htrn', hrt, hdigits'.trans hdigits, halg'.trans halg⟩
    | some i =>
      rw [List.filterMap_cons_some hu] at hrun ⊢
      rw [List.mem_cons, not_or] at hrun
      obtain ⟨hi, hrun⟩ := hrun
      obtain ⟨u, hx, he, hru⟩ := takeInput_unitCommand hu hr
      obtain ⟨hdigits, halg⟩ := takeInput_keeps_cfg hx hp hcfg
      obtain ⟨t, ht, htrn', hrt, hdigits', halg'⟩ := ih u hru hxs hrun
      rw [exec_trn he (Ne.symm hi)] at htrn'
      exact ⟨t, by rw [takeAll, hx]; exact ht, htrn', hrt, hdigits'.trans hdigits, halg'.trans halg⟩

theorem takeAll_append {xs : List HostInput} {s t : State} (h : takeAll xs s = .next t) (ys : List HostInput) :
    takeAll (xs ++ ys) s = takeAll ys t := by
  induction xs generalizing s with
  | nil => obtain rfl := Host.Outcome.next.inj h; rfl
  | cons x xs ih =>
    rw [List.cons_append, takeAll]
    rw [takeAll] at h
    cases hx : takeInput x s with
    | next u => rw [hx] at h; exact ih h
    | fault f => rw [hx] at h; exact nomatch h
    | refused r => rw [hx] at h; exact nomatch h

/-! ### The digest held -/

/-- The buffer holds exactly a digest (10_state.md R37). -/
structure HoldsDigest (t : TrnUnit) (digest : List Byte) : Prop where
  noOverflow : t.ovf = false
  count : t.dcount.toNat = digest.length
  bytes : ∀ i, digestByte t.dbuf i = digest.getD i 0

theorem holdsDigest_reset : HoldsDigest TrnUnit.reset [] := ⟨rfl, rfl, digestByte_clear⟩

theorem holdsDigest_push {t : TrnUnit} {held : List Byte} (h : HoldsDigest t held) (hlen : held.length < 64) (d : Byte) :
    HoldsDigest (trnAfter (.trnPush d) t) (held ++ [d]) := by
  have hlt : t.dcount.toNat < 64 := h.count ▸ hlen
  rw [trnAfter, if_pos hlt]
  refine ⟨h.noOverflow, ?_, fun i => ?_⟩
  · rw [appendDigestByte_dcount hlt, h.count, List.length_append, List.length_singleton]
  · rw [digestByte_appendDigestByte hlt, h.bytes, h.count]
    rcases lt_trichotomy i held.length with hi | rfl | hi
    · rw [if_neg hi.ne, List.getD_append _ _ _ _ hi]
    · simp
    · rw [if_neg hi.ne', List.getD_eq_default _ _ hi.le, List.getD_eq_default _ _ (by simpa using hi)]

/-- Pushes that fit the buffer append their bytes to the digest held (43_hotp_truncator.md R143). -/
theorem holdsDigest_pushes (ds : List Byte) {t : TrnUnit} {held : List Byte} (h : HoldsDigest t held)
    (hlen : held.length + ds.length ≤ 64) :
    HoldsDigest (trnAfterAll (ds.map Instr.trnPush) t) (held ++ ds) := by
  induction ds generalizing t held with
  | nil => rwa [List.append_nil]
  | cons d ds ih =>
    rw [List.length_cons] at hlen
    rw [List.append_cons]
    exact ih (holdsDigest_push h (by omega) d) (by rw [List.length_append, List.length_singleton]; omega)

/-! ### The source's truncation -/

theorem take_four_drop {xs : List Byte} {o : Nat} (h : o + 3 < xs.length) :
    (xs.drop o).take 4 = [xs.getD o 0, xs.getD (o + 1) 0, xs.getD (o + 2) 0, xs.getD (o + 3) 0] := by
  have hget (k : Nat) (hk : k < 4) : xs[o + k]? = some (xs.getD (o + k) 0) := by
    simp [List.getElem?_eq_getElem (show o + k < xs.length by omega)]
  apply List.ext_getElem?
  intro k
  match k with
  | 0 => simpa using hget 0 (by decide)
  | 1 => simpa using hget 1 (by decide)
  | 2 => simpa using hget 2 (by decide)
  | 3 => simpa using hget 3 (by decide)
  | k + 4 => simp

theorem bigEndian_four (a b c d : Byte) :
    Source.bigEndian [a, b, c, d] % 2 ^ 31 =
      a.toNat % 128 * 2 ^ 24 + b.toNat * 2 ^ 16 + c.toNat * 2 ^ 8 + d.toNat := by
  have ha := a.isLt
  have hb := b.isLt
  have hc := c.isLt
  have hd := d.isLt
  simp only [Source.bigEndian, List.foldl_cons, List.foldl_nil]
  omega

/-- TRN_RUN's code of a digest held is the source's, its window inside the digest (43_hotp_truncator.md R147 and R148). -/
theorem hotpCode_eq_truncate {t : TrnUnit} {digest : List Byte} (h : HoldsDigest t digest) (hlen : 20 ≤ digest.length)
    (dg : Nat) : hotpCode t.dbuf digest.length dg = Source.truncate digest % 10 ^ dg := by
  have hoffset : (truncOffset t.dbuf digest.length).toNat = Source.truncationOffset digest := by
    rw [truncOffset_toNat, h.bytes, Source.truncationOffset, List.getLastD_eq_getLast?, List.getLast?_eq_getElem?,
      List.getD_eq_getElem?_getD]
  have hwindow : Source.truncationOffset digest + 3 < digest.length := by
    have := Nat.mod_lt (digest.getLastD 0).toNat (show 16 > 0 by decide)
    rw [Source.truncationOffset]
    omega
  rw [hotpCode, hoffset, truncValue_toNat, h.bytes, h.bytes, h.bytes, h.bytes, ← bigEndian_four, ← take_four_drop hwindow]
  rfl

/-! ### The whole sequence -/

/-- A write of CFG stores the two options and keeps reset not asserted (10_state.md R25, 40_host_access.md R93). -/
theorem takeInput_writeCfg {s : State} (hr : s.resetAsserted = false) {digits alg : Nat} (hdigits : digits < 16)
    (halg : alg < 4) :
    ∃ t, takeInput (writeInput .cfg (BitVec.ofNat 32 (alg * 16 + digits))) s = .next t ∧ t.resetAsserted = false ∧
      t.cfgDigits.toNat = digits ∧ t.cfgAlg.toNat = alg := by
  have hwrite (v : Word) : takeInput (writeInput .cfg v) s = answerAccess (.write Reg.cfg.offset 4 v) s := by
    simp [takeInput, writeInput, hr]
  refine ⟨_, (hwrite _).trans (answerAccess_write_of_writeReg rfl rfl), hr, ?_, ?_⟩
  · rw [extract_toNat, BitVec.toNat_ofNat]
    omega
  · rw [extract_toNat, BitVec.toNat_ofNat]
    omega

/-- TRN_RUN on a digest held, the options in range, shows the source's code (43_hotp_truncator.md R150). -/
theorem exec_trnRun_source {s : State} {digest : List Byte} (h : HoldsDigest s.trn digest)
    (hlen : algDigestLength s.cfgAlg = some digest.length) (hdg : 6 ≤ s.cfgDigits.toNat ∧ s.cfgDigits.toNat ≤ 9) :
    ∃ t, exec .trnRun s = .next t ∧ t.status = .ok ∧ t.trn.codeValid = true ∧
      t.trn.code.toNat = Source.truncate digest % 10 ^ s.cfgDigits.toNat ∧
      ∀ k, k < 12 → codeLane t.trn k = (Source.generatedCode digest s.cfgDigits.toNat).getD k 0 := by
  have hcode := hotpCode_eq_truncate h (digestLength_bounds hlen).1 s.cfgDigits.toNat
  refine ⟨_, exec_trnRun_of_digest hlen hdg h.noOverflow h.count, rfl, rfl, ?_, fun k hk => ?_⟩
  · exact (showHotpCode_code hdg _ s.trn).trans hcode
  · rw [codeLane_showHotpCode _ _ s.trn hk, hcode, codeChars_eq_decimal, Source.generatedCode]

/-- Settles O40: CFG stays as written, the commands among the accesses leave the digest held, and TRN_RUN shows its code. -/
theorem digestSequenceComputesTheSourceCode : Obligations.DigestSequenceComputesTheSourceCode := by
  intro s xs digest digits alg hr h6 h9 halg hxs hcommands
  have hrun : .trnRun ∉ xs.filterMap (unitCommandOf .truncator) := by simp [hcommands]
  have halg4 : alg < 4 := by
    simp only [List.mem_cons, List.not_mem_nil, Prod.mk.injEq, or_false] at halg
    omega
  obtain ⟨v, hwrite, hrv, hdigits, hcfgAlg⟩ := takeInput_writeCfg hr (show digits < 16 by omega) halg4
  obtain ⟨u, hu, htrn, hru, hkeepDigits, hkeepAlg⟩ := takeAll_trn xs v hrv hxs hrun
  rw [← hkeepDigits] at hdigits
  rw [← hkeepAlg] at hcfgAlg
  have hlen : algDigestLength u.cfgAlg = some digest.length := (algDigestLength_eq_some _ _).mpr (hcfgAlg ▸ halg)
  have hheld : HoldsDigest u.trn digest := by
    rw [htrn, hcommands]
    exact holdsDigest_pushes digest holdsDigest_reset (by simpa using (digestLength_bounds hlen).2)
  obtain ⟨t, ht, hshown⟩ := exec_trnRun_source hheld hlen (by omega)
  rw [hdigits] at hshown
  refine ⟨t, ?_, hshown⟩
  rw [List.cons_append, takeAll, hwrite]
  refine (takeAll_append hu [runInput .trnRun]).trans ?_
  rw [takeAll, takeInput_command (commandOf_runInput .trnRun) u hru, ht]
  rfl

end Sys2Proof.Laws
end

section
/-! The counter mapper: the quotient CTR_RUN leaves in COUNTER, the message MSG0 and MSG1 show of it, and the two together
against the source's counter (44_totp_counter_mapper.md R171 to R177). -/

namespace Sys2Proof.Laws

open Sys2Proof.Machine

/-! ### EPOCH and COUNTER as numbers -/

theorem epoch_toNat (s : State) : s.epoch.toNat = s.epochHi.toNat * 2 ^ 32 + s.epochLo.toNat := append_toNat _ _

theorem counter_toNat (s : State) : s.counter.toNat = s.counterHi.toNat * 2 ^ 32 + s.counterLo.toNat := append_toNat _ _

/-! ### CTR_RUN -/

/-- A step of 0 is the one CTR_RUN refuses (44_totp_counter_mapper.md R172). -/
theorem exec_ctrRun_of_step_zero {s : State} (h : s.stepSeconds = 0) :
    exec .ctrRun s = .next { s with status := .invalidOptions } := by
  rw [exec, execCtrRun, if_pos h, raiseStatus_eq]

/-- With a step above 0 the two halves of COUNTER are those of the quotient, which 64 bits always hold
(44_totp_counter_mapper.md R171 and R173). -/
theorem exec_ctrRun_of_step_pos {s : State} (h : s.stepSeconds ≠ 0) :
    ∃ t, exec .ctrRun s = .next t ∧
      t = { s with status := .ok, counterLo := t.counterLo, counterHi := t.counterHi } ∧
      t.counter.toNat = s.epoch.toNat / s.stepSeconds.toNat := by
  rw [exec, execCtrRun, if_neg h, raiseStatus_eq]
  refine ⟨_, rfl, rfl, ?_⟩
  have hquotient : (s.epoch / s.stepSeconds.setWidth 64).toNat = s.epoch.toNat / s.stepSeconds.toNat := by
    rw [BitVec.toNat_udiv, BitVec.toNat_setWidth_of_le (by decide)]
  have hlt := (s.epoch / s.stepSeconds.setWidth 64).isLt
  rw [counter_toNat, extract_toNat, extract_toNat, ← hquotient]
  omega

/-- Settles O43: both cases of STEP, COUNTER and EPOCH read as numbers. -/
theorem ctrRunDividesTheEpoch : Obligations.CtrRunDividesTheEpoch := by
  refine fun s => ⟨fun h => ?_, exec_ctrRun_of_step_zero⟩
  obtain ⟨t, hrun, hframe, hcounter⟩ := exec_ctrRun_of_step_pos h
  exact ⟨t, hrun, hframe, by rw [← counter_toNat, ← epoch_toNat, hcounter]⟩

/-! ### The message -/

/-- Message byte `k` is a byte of COUNTER_HI, and from byte 4 on one of COUNTER_LO, each half's bytes from the top
down (44_totp_counter_mapper.md R175). -/
theorem msgLane_eq_laneOf (s : State) {k : Nat} (hk : k < 8) :
    msgLane s k = if k < 4 then laneOf s.counterHi (3 - k) else laneOf s.counterLo (7 - k) := by
  rw [msgLane_eq_extract s k hk, State.counter]
  split
  · rw [BitVec.extractLsb'_append_eq_of_le (by omega), laneOf, show 56 - 8 * k - 32 = 8 * (3 - k) by omega]
  · rw [BitVec.extractLsb'_append_eq_of_add_le (by omega), laneOf, show 56 - 8 * k = 8 * (7 - k) by omega]

/-- Settles O44: the lane of the message is that byte of COUNTER, as a number and as a lane of one half. -/
theorem messageIsTheCounterBigEndian : Obligations.MessageIsTheCounterBigEndian := by
  refine ⟨fun s k hk => ⟨?_, msgLane_eq_laneOf s hk⟩, rfl, rfl⟩
  rw [msgLane_eq_extract s k hk, extract_toNat, counter_toNat]
  rfl

/-- Byte `k` of `n` bytes, big-endian, has the weight `256 ^ (n - 1 - k)`. -/
theorem bytesBigEndian_eq_map (n v : Nat) :
    Source.bytesBigEndian n v = (List.range n).map fun k => BitVec.ofNat 8 (v / 256 ^ (n - 1 - k)) := by
  induction n generalizing v with
  | zero => rfl
  | succ n ih =>
    rw [Source.bytesBigEndian, ih, List.range_succ, List.map_append, List.map_singleton]
    congr 1
    · refine List.map_congr_left fun k hk => ?_
      have hk := List.mem_range.mp hk
      rw [Nat.div_div_eq_div_mul, ← pow_succ', show n - 1 - k + 1 = n + 1 - 1 - k by omega]
    · simp

/-- The message the registers show is the source's message of COUNTER (44_totp_counter_mapper.md R175). -/
theorem map_msgLane_eq_message (s : State) : (List.range 8).map (msgLane s) = Source.message s.counter.toNat := by
  rw [Source.message, bytesBigEndian_eq_map]
  refine List.map_congr_left fun k hk => BitVec.eq_of_toNat_eq ?_
  have hk := List.mem_range.mp hk
  rw [msgLane_eq_extract s k hk, extract_toNat, BitVec.toNat_ofNat, show 256 = 2 ^ 8 from rfl, ← pow_mul,
    show 8 * (8 - 1 - k) = 56 - 8 * k by omega]

/-! ### The whole sequence -/

/-- An input answered with a next state is followed by the rest of the list in that state (40_host_access.md R90). -/
theorem takeAll_cons {x : HostInput} {s t : State} (h : takeInput x s = .next t) (xs : List HostInput) :
    takeAll (x :: xs) s = takeAll xs t := by
  rw [takeAll, h]

/-- With reset not asserted, the write of an RW register stores its value (40_host_access.md R93). -/
theorem takeAll_writeInput {r : Reg} {v : Word} {s t : State} (h : writeReg r v s = some t) (hrw : r.access = .rw)
    (hr : s.resetAsserted = false) (xs : List HostInput) : takeAll (writeInput r v :: xs) s = takeAll xs t := by
  refine takeAll_cons ?_ xs
  rw [writeInput, takeInput, hr]
  exact answerAccess_write_of_writeReg hrw h

/-- EPOCH and STEP as three register writes leave them (10_state.md R27 and R28). -/
def withEpochAndStep (epoch stepSize : Nat) (s : State) : State :=
  { s with
    epochLo := BitVec.ofNat 32 epoch
    epochHi := BitVec.ofNat 32 (epoch / 2 ^ 32)
    stepSeconds := BitVec.ofNat 32 stepSize }

theorem withEpochAndStep_epoch {epoch : Nat} (h : epoch < 2 ^ 64) (stepSize : Nat) (s : State) :
    (withEpochAndStep epoch stepSize s).epoch.toNat = epoch := by
  rw [epoch_toNat, withEpochAndStep, BitVec.toNat_ofNat, BitVec.toNat_ofNat]
  omega

theorem withEpochAndStep_step {stepSize : Nat} (h : stepSize < 2 ^ 32) (epoch : Nat) (s : State) :
    (withEpochAndStep epoch stepSize s).stepSeconds.toNat = stepSize := toNat_ofNat_of_lt h

/-- The three writes in the order EPOCH_LO, EPOCH_HI, STEP leave EPOCH and STEP (40_host_access.md R93). -/
theorem takeAll_writeEpochAndStep {s : State} (hr : s.resetAsserted = false) (epoch stepSize : Nat)
    (xs : List HostInput) :
    takeAll (writeInput .epochLo (BitVec.ofNat 32 epoch) :: writeInput .epochHi (BitVec.ofNat 32 (epoch / 2 ^ 32)) ::
      writeInput .step (BitVec.ofNat 32 stepSize) :: xs) s = takeAll xs (withEpochAndStep epoch stepSize s) := by
  rw [takeAll_writeInput rfl rfl hr, takeAll_writeInput rfl rfl, takeAll_writeInput rfl rfl, withEpochAndStep]
  · exact hr
  · exact hr

/-- Settles O45: CTR_RUN divides the EPOCH and STEP that the writes leave, and the message is that of any COUNTER. -/
theorem counterSequenceComputesTheSourceCounter : Obligations.CounterSequenceComputesTheSourceCounter := by
  intro s epoch stepSize hr hepoch hpos hstep
  have hne : (withEpochAndStep epoch stepSize s).stepSeconds ≠ 0 := by
    rw [← BitVec.toNat_ne_iff_ne, withEpochAndStep_step hstep]
    exact Nat.one_le_iff_ne_zero.mp hpos
  obtain ⟨t, hrun, hframe, hcounter⟩ := exec_ctrRun_of_step_pos hne
  rw [withEpochAndStep_epoch hepoch, withEpochAndStep_step hstep] at hcounter
  have hinput : takeInput (runInput .ctrRun) (withEpochAndStep epoch stepSize s) = .next t :=
    (takeInput_command (commandOf_runInput .ctrRun) (withEpochAndStep epoch stepSize s) hr).trans hrun
  refine ⟨t, ?_, hcounter, by rw [hframe], by rw [map_msgLane_eq_message, hcounter, Source.deriveCounter]⟩
  rw [takeAll_writeEpochAndStep hr, takeAll_cons hinput, takeAll]

end Sys2Proof.Laws
end

section
/-! The codes of a command's row, and a command and a state that report each of them (60_exceptions.md R202). -/

namespace Sys2Proof.Laws

open Sys2Proof.Machine

/-- The codes the table of 60_exceptions.md R202 gives the row of a command. -/
def rowCodes : Instr → List StatusCode
  | .encInit | .encPush _ | .encFinal _ | .decInit | .trnClear => [.ok]
  | .decPush _ | .decFinal => [.ok, .decodeError]
  | .trnPush _ => [.ok, .digestLength]
  | .trnRun => [.ok, .unsupportedAlgorithm, .invalidOptions, .digestLength]
  | .ctrRun => [.ok, .invalidOptions]

/-! ### No other code is reported -/

theorem decFinalCode_mem (d : DecUnit) : decFinalCode d ∈ [StatusCode.ok, .decodeError] := by
  cases h : d.err <;> simp [decFinalCode, h]

theorem trnRunCode_mem (s : State) : trnRunCode s ∈ rowCodes .trnRun := by
  by_cases halg : s.cfgAlg = 3
  · rw [trnRunCode_of_unsupported halg]
    simp [rowCodes]
  · by_cases hdg : 6 ≤ s.cfgDigits.toNat ∧ s.cfgDigits.toNat ≤ 9
    · obtain ⟨len, hlen⟩ := exists_digestLength halg
      rw [trnRunCode_of_options hlen hdg]
      split <;> simp [rowCodes]
    · rw [trnRunCode_of_invalid halg hdg]
      simp [rowCodes]

/-- A command ends in a next state with a code of its row (60_exceptions.md R202). -/
theorem exec_status_mem_rowCodes (i : Instr) (s : State) : ∃ t, exec i s = .next t ∧ t.status ∈ rowCodes i := by
  cases i with
  | decPush c => exact ⟨_, exec_decPush c s, decFinalCode_mem _⟩
  | decFinal => exact ⟨_, rfl, decFinalCode_mem s.dec⟩
  | trnPush d =>
    rcases lt_or_ge s.trn.dcount.toNat 64 with hroom | hfull
    · exact ⟨_, exec_trnPush_of_lt hroom d, by simp [rowCodes]⟩
    · exact ⟨_, exec_trnPush_of_full hfull d, by simp [rowCodes]⟩
  | trnRun =>
    rcases exec_trnRun s with ⟨_, -, -, -, -, -, h⟩ | ⟨-, h⟩
    · exact ⟨_, h, by simp [rowCodes]⟩
    · exact ⟨_, h, trnRunCode_mem s⟩
  | ctrRun =>
    by_cases hstep : s.stepSeconds = 0
    · exact ⟨_, exec_ctrRun_of_step_zero hstep, by simp [rowCodes]⟩
    · obtain ⟨t, h, hframe, -⟩ := exec_ctrRun_of_step_pos hstep
      exact ⟨t, h, by rw [hframe]; simp [rowCodes]⟩
  | _ => exact ⟨_, rfl, List.mem_singleton_self _⟩

/-! ### Each code of a row is reported -/

/-- A state in which every row that has the code reports it: for OK the reset state with a whole SHA-1 digest held, for
each other code the reset state with that code's cause in it (60_exceptions.md R201). No row has ILLEGAL_COMMAND. -/
def stateWithCause : StatusCode → State
  | .ok => { State.reset with trn := { TrnUnit.reset with dcount := 20 } }
  | .decodeError => { State.reset with dec := { DecUnit.reset with err := true } }
  | .unsupportedAlgorithm => { State.reset with cfgAlg := 3 }
  | .invalidOptions => { State.reset with cfgDigits := 0, stepSeconds := 0 }
  | .digestLength => { State.reset with trn := { TrnUnit.reset with dcount := 64 } }
  | .illegalCommand => State.reset

/-- A command of the row of `i`: `i` itself, but `=` for any DEC_PUSH, since only some characters can report OK. -/
def rowReporter : Instr → Instr
  | .decPush _ => .decPush Source.padChar
  | i => i

theorem rowReporter_opcode (i : Instr) : (rowReporter i).opcode = i.opcode := by cases i <;> rfl

/-- In the state with a code's cause, each row that has the code reports it. -/
theorem exec_rowReporter_status {i : Instr} {c : StatusCode} (h : c ∈ rowCodes i) :
    ∃ t, exec (rowReporter i) (stateWithCause c) = .next t ∧ t.status = c := by
  cases i <;> simp only [rowCodes, List.mem_cons, List.not_mem_nil, or_false] at h
  case encInit | encPush | encFinal | decInit | trnClear => exact h ▸ ⟨_, rfl, rfl⟩
  case decPush | decFinal | trnPush | ctrRun => rcases h with rfl | rfl <;> exact ⟨_, rfl, rfl⟩
  case trnRun => rcases h with rfl | rfl | rfl | rfl <;> exact ⟨_, rfl, rfl⟩

/-- Settles O15: the codes are those of `rowCodes`, each reported in the state with its cause. -/
theorem everyCommandEndsWithACodeOfItsRow : Obligations.EveryCommandEndsWithACodeOfItsRow := by
  unfold Obligations.EveryCommandEndsWithACodeOfItsRow
  intro codes
  have hcodes (i : Instr) : codes i = (rowCodes i).map fun c => c.number.toNat := by cases i <;> rfl
  refine ⟨fun i s => ?_, fun i n hn => ?_, fun w why s h => ⟨_, runCommand_illegal h s, rfl⟩⟩
  · obtain ⟨t, ht, hmem⟩ := exec_status_mem_rowCodes i s
    exact ⟨t, ht, hcodes i ▸ List.mem_map_of_mem hmem⟩
  · rw [hcodes, List.mem_map] at hn
    obtain ⟨c, hc, rfl⟩ := hn
    obtain ⟨t, ht, hstatus⟩ := exec_rowReporter_status hc
    exact ⟨rowReporter i, stateWithCause c, t, rowReporter_opcode i, ht, by rw [hstatus]⟩

end Sys2Proof.Laws
end

section
/-! When a step stops (60_exceptions.md R200, 40_host_access.md R92 and R95, 70_reset_and_hazards.md R232). -/

namespace Sys2Proof.Laws

open Sys2Proof.Machine

/-- The bus error that answers an access which is not permitted (40_host_access.md R92). -/
def busErrorOf : Access → Fault
  | .read off _ => .busError off .read
  | .write off _ _ => .busError off .write

theorem takeInput_eq_busErrorOf {a : Access} (h : a.permitted = false) {s : State} (hr : s.resetAsserted = false) :
    takeInput (.access a) s = .fault (busErrorOf a) := by
  rw [takeInput_bus_error h s hr]
  cases a <;> rfl

theorem takeInput_during_reset (a : Access) {s : State} (hr : s.resetAsserted = true) :
    takeInput (.access a) s = .refused .accessDuringReset := if_pos hr

/-- What a step can answer: a next state, and then an access it took was permitted and outside reset; a refusal of an
access during reset; a bus error for an access that is not permitted. -/
theorem step_cases (s : State) :
    ((∃ t, step s = .next t) ∧
      ∀ a rest, s.pending = .access a :: rest → s.resetAsserted = false ∧ a.permitted = true) ∨
    (∃ a rest, s.pending = .access a :: rest ∧ s.resetAsserted = true ∧ step s = .refused .accessDuringReset) ∨
    (∃ a rest, s.pending = .access a :: rest ∧ s.resetAsserted = false ∧ a.permitted = false ∧
      step s = .fault (busErrorOf a)) := by
  cases hp : s.pending with
  | nil => exact .inl ⟨⟨s, step_nil hp⟩, nofun⟩
  | cons x rest =>
    cases x with
    | resetLine level => exact .inl ⟨⟨_, step_cons hp⟩, nofun⟩
    | access a =>
      cases hr : s.resetAsserted with
      | true => exact .inr (.inl ⟨a, rest, rfl, rfl, (step_cons hp).trans (takeInput_during_reset a hr)⟩)
      | false =>
        cases ha : a.permitted with
        | false => exact .inr (.inr ⟨a, rest, rfl, rfl, ha, (step_cons hp).trans (takeInput_eq_busErrorOf ha hr)⟩)
        | true =>
          refine .inl ⟨?_, ?_⟩
          · rw [step_access hr hp]
            exact answerAccess_permitted ha _
          · rintro _ _ ⟨⟩
            exact ⟨rfl, ha⟩

theorem step_eq_fault_iff (s : State) (f : Fault) :
    step s = .fault f ↔
      s.resetAsserted = false ∧ ∃ a rest, s.pending = .access a :: rest ∧ a.permitted = false ∧ f = busErrorOf a := by
  constructor
  · intro h
    rcases step_cases s with ⟨⟨t, hnext⟩, -⟩ | ⟨a, rest, -, -, hrefused⟩ | ⟨a, rest, hp, hr, ha, hfault⟩
    · exact nomatch h.symm.trans hnext
    · exact nomatch h.symm.trans hrefused
    · exact ⟨hr, a, rest, hp, ha, Host.Outcome.fault.inj (h.symm.trans hfault)⟩
  · rintro ⟨hr, a, rest, hp, ha, rfl⟩
    exact (step_cons hp).trans (takeInput_eq_busErrorOf ha hr)

theorem step_eq_refused_iff (s : State) (r : Refusal) :
    step s = .refused r ↔
      s.resetAsserted = true ∧ r = .accessDuringReset ∧ ∃ a rest, s.pending = .access a :: rest := by
  constructor
  · intro h
    rcases step_cases s with ⟨⟨t, hnext⟩, -⟩ | ⟨a, rest, hp, hr, hrefused⟩ | ⟨a, rest, -, -, -, hfault⟩
    · exact nomatch h.symm.trans hnext
    · exact ⟨hr, Host.Outcome.refused.inj (h.symm.trans hrefused), a, rest, hp⟩
    · exact nomatch h.symm.trans hfault
  · rintro ⟨hr, rfl, a, rest, hp⟩
    exact (step_cons hp).trans (takeInput_during_reset a hr)

/-- Settles O19: the two reasons to stop are the two cases of `step_cases` that give no next state. -/
theorem stepsStopOnlyOnBusErrorsAndDuringReset : Obligations.StepsStopOnlyOnBusErrorsAndDuringReset :=
  fun s => ⟨step_eq_fault_iff s, step_eq_refused_iff s⟩

end Sys2Proof.Laws
end

section
/-! What a push makes of the readable counts, in the terms of the counts before it alone (60_exceptions.md R218). -/

namespace Sys2Proof.Laws

open Sys2Proof.Machine

/-- The counts ENC_PUSH leaves are functions of the counts it finds (41_base32_encoder.md R104). -/
theorem pushByte_counts (e : EncUnit) (b : Byte) :
    (e.pushByte b).nbits = BitVec.ofNat 4 ((e.nbits.toNat + 8) % 5) ∧
    (e.pushByte b).sym = BitVec.ofNat 3 ((e.sym.toNat + (e.nbits.toNat + 8) / 5) % 8) ∧
    (e.pushByte b).outN = BitVec.ofNat 4 ((e.nbits.toNat + 8) / 5) := by
  obtain ⟨hsymbols, hleft⟩ :=
    drainSymbols_counts (e.nbits.toNat + 8) ((e.acc.toNat <<< 8) ||| b.toNat) (e.nbits.toNat + 8) le_rfl
  simp only [EncUnit.pushByte, setOut_nbits, setOut_sym, setOut_outN, hsymbols, hleft, and_self]

/-- DEC_STATE after a push follows from DEC_STATE before it and from the kind of the character, `=`, a symbol or another
code (42_base32_decoder.md R122). -/
theorem decStateWord_decPushAfter {d e : DecUnit} {b c : Byte} (h : decStateWord d = decStateWord e)
    (hpadChar : b = Source.padChar ↔ c = Source.padChar)
    (hsymbol : Source.charValue b = none ↔ Source.charValue c = none) :
    decStateWord (decPushAfter b d) = decStateWord (decPushAfter c e) := by
  rw [decStateWord_eq_iff] at h ⊢
  obtain ⟨hnbits, hpad, herr⟩ := h
  rcases decPushAfter_cases b d with ⟨hd, hb⟩ | ⟨hd, rfl, hb⟩ | ⟨hd, hne, hfails, hb⟩ | ⟨v, hd, hv, hopen, hb⟩
  · rw [hb, decPushAfter_of_err (herr ▸ hd)]
    exact ⟨hnbits, hpad, herr⟩
  · obtain rfl := hpadChar.mp rfl
    rw [hb, decPushAfter_padChar (herr ▸ hd)]
    exact ⟨hnbits, rfl, herr⟩
  · rw [hb, decPushAfter_of_fails (herr ▸ hd) (mt hpadChar.mpr hne) (hpad ▸ hfails.imp_left hsymbol.mp)]
    exact ⟨rfl, hpad, rfl⟩
  · obtain ⟨w, hw⟩ := Option.ne_none_iff_exists'.mp (mt hsymbol.mpr (by simp [hv]))
    rw [hb, decPushAfter_of_symbol (herr ▸ hd) hw (hpad ▸ hopen)]
    exact ⟨by rw [takeSymbol_nbits, takeSymbol_nbits, hnbits], hpad, herr⟩

/-- TRN_STATE shows its three fields and nothing else (10_state.md R38). -/
theorem trnStateWord_eq_iff (t u : TrnUnit) :
    trnStateWord t = trnStateWord u ↔ t.dcount = u.dcount ∧ t.ovf = u.ovf ∧ t.codeValid = u.codeValid := by
  constructor
  · intro h
    obtain ⟨hflags, hcount⟩ := (bitVec_append_eq_iff (m := 25) (n := 7)).mp h
    obtain ⟨hvalid, hovf⟩ := (bitVec_append_eq_iff (m := 24) (n := 1)).mp hflags
    exact ⟨hcount, BitVec.ofBool_eq_iff_eq.mp hovf, BitVec.ofBool_eq_iff_eq.mp ((BitVec.append_right_inj 0#23).mp hvalid)⟩
  · rintro ⟨hcount, hovf, hvalid⟩
    rw [trnStateWord, trnStateWord, hcount, hovf, hvalid]

/-- TRN_STATE after a push follows from TRN_STATE before it (43_hotp_truncator.md R143). -/
theorem trnStateWord_trnPush {t u : TrnUnit} (h : trnStateWord t = trnStateWord u) (b c : Byte) :
    trnStateWord (trnAfter (.trnPush b) t) = trnStateWord (trnAfter (.trnPush c) u) := by
  rw [trnStateWord_eq_iff] at h ⊢
  obtain ⟨hcount, hovf, hvalid⟩ := h
  rw [trnAfter, trnAfter, ← hcount]
  split
  · exact ⟨congrArg (· + 1) hcount, hovf, hvalid⟩
  · exact ⟨rfl, rfl, hvalid⟩

/-- Settles O52: each push determines its register's fields from the fields before it. -/
theorem readableCountsDoNotDependOnData : Obligations.ReadableCountsDoNotDependOnData := by
  refine fun s u s' u' b c => ⟨fun hnbits hsym hs hu => ?_, fun h hpadChar hsymbol hs hu => ?_, fun h hs hu => ?_⟩
  · obtain rfl := Host.Outcome.next.inj hs
    obtain rfl := Host.Outcome.next.inj hu
    obtain ⟨hnbits₁, hsym₁, hout₁⟩ := pushByte_counts s.enc b
    obtain ⟨hnbits₂, hsym₂, hout₂⟩ := pushByte_counts u.enc c
    simp only [regValue, encStateWord, encOutNWord, hnbits₁, hsym₁, hout₁, hnbits₂, hsym₂, hout₂, hnbits, hsym, and_self]
  · rw [regValue, regValue, exec_dec hs, exec_dec hu]
    exact congrArg some (decStateWord_decPushAfter (Option.some.inj h) hpadChar hsymbol)
  · rw [regValue, regValue, exec_trn hs nofun, exec_trn hu nofun]
    exact congrArg some (trnStateWord_trnPush (Option.some.inj h) b c)

end Sys2Proof.Laws
end

section
/-! The reset input and the state after it (70_reset_and_hazards.md R230), the accesses that bring the same state back
(R233), and the commands that wipe what a unit held (R246). -/

namespace Sys2Proof.Laws

open Sys2Proof.Machine

/-! ### The reset input -/

/-- An asserted level, and the release of one, bring the block to its reset state (70_reset_and_hazards.md R230). -/
theorem driveReset_of_reset {b : Bool} {s : State} (h : b = true ∨ s.resetAsserted = true) :
    driveReset b s = { State.reset with resetAsserted := b, pending := s.pending, reads := s.reads } :=
  if_pos ((Bool.or_eq_true _ _).mpr h)

/-- A level that was and stays not asserted changes nothing (70_reset_and_hazards.md R230). -/
theorem driveReset_of_not_asserted {s : State} (h : s.resetAsserted = false) : driveReset false s = s :=
  if_neg (by simp [h])

/-- Settles O47: the step takes the level out of the inputs and drives reset with it. -/
theorem resetInputRestoresTheResetState : Obligations.ResetInputRestoresTheResetState := by
  refine fun s rest b hp => ⟨fun h => ?_, ?_⟩
  · exact (step_cons hp).trans (congrArg Host.Outcome.next (driveReset_of_reset (s := { s with pending := rest }) h))
  · rintro rfl hr
    exact (step_cons hp).trans
      (congrArg Host.Outcome.next (driveReset_of_not_asserted (s := { s with pending := rest }) hr))

/-- Settles O50: each unit's reset state meets the unit's invariant, and reset is not asserted. -/
theorem resetStateMeetsTheMachineInvariant : Obligations.ResetStateMeetsTheMachineInvariant :=
  ⟨encReset_inv, decReset_inv, trnReset_inv, nofun⟩

/-! ### The accesses that restore the reset state -/

/-- A piece of the block's state that one access brings back to its reset value (70_reset_and_hazards.md R233). -/
inductive ResetPiece where
  | encoder | decoder | truncator | cfg | step | epochLo | epochHi | counterLo | counterHi

/-- The access that brings a piece back. -/
def ResetPiece.input : ResetPiece → HostInput
  | .encoder => runInput .encInit
  | .decoder => runInput .decInit
  | .truncator => runInput .trnClear
  | .cfg => writeInput .cfg 6
  | .step => writeInput .step 30
  | .epochLo => writeInput .epochLo 0
  | .epochHi => writeInput .epochHi 0
  | .counterLo => writeInput .counterLo 0
  | .counterHi => writeInput .counterHi 0

/-- The state with a piece at its reset value; the three commands end with 0 in STATUS.ERR. -/
def restorePiece (s : State) : ResetPiece → State
  | .encoder => { s with status := .ok, enc := EncUnit.reset }
  | .decoder => { s with status := .ok, dec := DecUnit.reset }
  | .truncator => { s with status := .ok, trn := TrnUnit.reset }
  | .cfg => { s with cfgDigits := 6, cfgAlg := 0 }
  | .step => { s with stepSeconds := 30 }
  | .epochLo => { s with epochLo := 0 }
  | .epochHi => { s with epochHi := 0 }
  | .counterLo => { s with counterLo := 0 }
  | .counterHi => { s with counterHi := 0 }

/-- The nine pieces, in the order R233 names their accesses. -/
def resetPieces : List ResetPiece :=
  [.encoder, .decoder, .truncator, .cfg, .step, .epochLo, .epochHi, .counterLo, .counterHi]

theorem restorePiece_resetAsserted (s : State) (p : ResetPiece) :
    (restorePiece s p).resetAsserted = s.resetAsserted := by
  cases p <;> rfl

/-- Different pieces are different fields, and STATUS.ERR takes one value from all commands: the order does not
matter. -/
theorem restorePiece_comm (s : State) (p q : ResetPiece) :
    restorePiece (restorePiece s p) q = restorePiece (restorePiece s q) p := by
  cases p <;> cases q <;> rfl

/-- With reset not asserted, the access of a piece restores that piece: an INIT or CLEAR command is answered by its
meaning (40_host_access.md R94), a register write by the value stored (R93). -/
theorem takeAll_resetPiece_cons (p : ResetPiece) {s : State} (hr : s.resetAsserted = false) (xs : List HostInput) :
    takeAll (p.input :: xs) s = takeAll xs (restorePiece s p) := by
  cases p with
  | encoder | decoder | truncator => exact takeAll_cons (takeInput_command (commandOf_runInput _) s hr) xs
  | cfg | step | epochLo | epochHi | counterLo | counterHi => exact takeAll_writeInput rfl rfl hr xs

/-- The accesses of a list of pieces restore them one by one. -/
theorem takeAll_resetPieces (ps : List ResetPiece) {s : State} (hr : s.resetAsserted = false) :
    takeAll (ps.map ResetPiece.input) s = .next (ps.foldl restorePiece s) := by
  induction ps generalizing s with
  | nil => rfl
  | cons p ps ih =>
    rw [List.map_cons, takeAll_resetPiece_cons p hr, ih ((restorePiece_resetAsserted s p).trans hr), List.foldl_cons]

/-- All nine pieces together are the whole state of the block (70_reset_and_hazards.md R233). -/
theorem foldl_restorePiece_resetPieces {s : State} (hr : s.resetAsserted = false) :
    resetPieces.foldl restorePiece s = { State.reset with pending := s.pending, reads := s.reads } :=
  congrArg (fun b => { State.reset with resetAsserted := b, pending := s.pending, reads := s.reads }) hr

/-- Settles O48: the accesses in any order are those of the nine pieces in some order, and the pieces' order does not
matter. -/
theorem initCommandsAndWritesRestoreTheResetState : Obligations.InitCommandsAndWritesRestoreTheResetState := by
  intro s xs hr hxs
  have hpieces : Relation.Comp (· = List.map ResetPiece.input ·) List.Perm xs resetPieces :=
    (List.eq_map_comp_perm ResetPiece.input).symm ▸ hxs
  obtain ⟨ps, rfl, hps⟩ := hpieces
  rw [takeAll_resetPieces ps hr, hps.foldl_eq' fun p _ q _ u => restorePiece_comm u p q,
    foldl_restorePiece_resetPieces hr]

/-! ### The commands that wipe -/

/-- ENC_INIT and ENC_FINAL clear ENC.acc (41_base32_encoder.md R103 and R105). -/
theorem enc_acc_of_wiped {i : Instr} (hi : i ∈ [.encInit, .encFinal false, .encFinal true]) {s t : State}
    (h : exec i s = .next t) : t.enc.acc = 0 := by
  fin_cases hi <;> (obtain rfl := Host.Outcome.next.inj h; rfl)

/-- DEC_INIT and DEC_FINAL clear DEC.acc (42_base32_decoder.md R121 and R123). -/
theorem dec_acc_of_wiped {i : Instr} (hi : i ∈ [.decInit, .decFinal]) {s t : State} (h : exec i s = .next t) :
    t.dec.acc = 0 := by
  rw [exec_dec h]
  fin_cases hi <;> rfl

/-- A DEC_PUSH that brings a decode into error clears DEC.acc (42_base32_decoder.md R122). -/
theorem dec_acc_of_failed_push {c : Byte} {s t : State} (h : exec (.decPush c) s = .next t) (herr : s.dec.err = false)
    (hcode : t.status = .decodeError) : t.dec.acc = 0 :=
  (decoderPendingBitsStayBelowEight.2.2 s t
    (.inr (.inr ⟨c, h, hcode, fun hsticky => absurd (herr.symm.trans hsticky) Bool.false_ne_true⟩))).1

/-- TRN_RUN and TRN_CLEAR clear the digest buffer (43_hotp_truncator.md R142 and R151). -/
theorem dbuf_of_wiped {i : Instr} (hi : i ∈ [.trnRun, .trnClear]) {s t : State} (h : exec i s = .next t) (k : Nat) :
    digestByte t.trn.dbuf k = 0 := by
  fin_cases hi
  · obtain ⟨u, hu, -, -, hempty⟩ := exec_trnRun_empties s
    obtain rfl := Host.Outcome.next.inj (hu.symm.trans h)
    exact hempty k
  · obtain rfl := Host.Outcome.next.inj h
    exact digestByte_clear k

/-- ENC_INIT and TRN_CLEAR leave both units as after reset, whatever they held (70_reset_and_hazards.md R246). -/
theorem takeAll_encInit_trnClear {s : State} (hr : s.resetAsserted = false) :
    takeAll [runInput .encInit, runInput .trnClear] s =
      .next { s with status := .ok, enc := EncUnit.reset, trn := TrnUnit.reset } :=
  takeAll_resetPieces [.encoder, .truncator] hr

/-- Settles O51: each command named clears what it owns, and the state ENC_INIT and TRN_CLEAR leave does not name the
units they cleared. -/
theorem secretsAreWiped : Obligations.SecretsAreWiped := by
  refine ⟨fun i s t h => ⟨fun hi => enc_acc_of_wiped hi h, fun hi => dec_acc_of_wiped hi h, ?_,
    fun hi => dbuf_of_wiped hi h⟩, fun s e d hr => ?_⟩
  · rintro c rfl herr hcode
    exact dec_acc_of_failed_push h herr hcode
  · rw [takeAll_encInit_trnClear hr]
    exact takeAll_encInit_trnClear (s := { s with enc := e, trn := d }) hr

end Sys2Proof.Laws
end
